-- ==== Sys2Proof/Word.lean ====
section
/-! DEFINITION. The value types of 00_scope.md rule R11 (bytes, byte strings, blocks) and the widths of the
register window and the scratchpad port. -/

namespace Sys2Proof

/-- `u8` of R11. -/
abbrev Byte := BitVec 8

/-- A 32-bit register of the window, and a command word (R20, R90). -/
abbrev Word := BitVec 32

/-- `Bn` of R11: a string of `n` bytes, indexed from 0. -/
abbrev Bytes (n : Nat) := Vector Byte n

/-- A *block*: 16 bytes (R11, R18). -/
abbrev Block := Bytes 16

/-- Ten round keys, one block each (R118). -/
abbrev KeySchedule := Vector Block 10

/-- The eight text blocks of the expander and the absorber (R46, R140). -/
abbrev Text := Vector Block 8

end Sys2Proof
end

