-- ==== Sys2Proof/Syntax.lean ====
section
/-! DEFINITION. The commands of 30_encoding.md rule R96: one constructor per row of the opcode table. -/

namespace Sys2Proof

/-- The ten commands.  KEYEXP's operand is the one-bit field K of R93; no other command has an operand, so every
term of this type is a legal command (R96 counts eleven words for them). -/
inductive Instr where
  /-- R198: no operation. -/
  | nop
  /-- R154: validate the descriptor. -/
  | check
  /-- R121: one block round on registers. -/
  | round
  /-- R122: key schedule of the 32-byte slice `ST[32K .. 32K+31]`. -/
  | keyexp (k : BitVec 1)
  /-- R141: fill the scratchpad. -/
  | expand
  /-- R159: the memory-hard loop. -/
  | mix
  /-- R184: re-absorb the scratchpad into the final state. -/
  | absorb
  /-- R188: the permutation port on the final state. -/
  | permute
  /-- R192: dispatch to a finalization hash. -/
  | select
  /-- R196: the whole pipeline. -/
  | run
  deriving DecidableEq, Repr

/-- Does the command access the scratchpad, and so own its region while it executes (R72, R75)? -/
def Instr.usesScratchpad : Instr → Bool
  | .nop | .check | .round | .keyexp _ | .permute | .select => false
  | .expand | .mix | .absorb | .run => true

end Sys2Proof
end

