-- ==== Sys2Proof/WellFormed.lean ====
section
/-! DEFINITION. Well-formed assembler lines (30_encoding.md rules R100 and R102).  The command type itself holds
no ill-formed term (K is one bit wide); what a person can write wrongly is the line: a mnemonic the table lacks,
an operand where the mnemonic takes none, a missing operand, an operand other than the literals 0 and 1. -/

namespace Sys2Proof

/-- A written line of R100: a mnemonic and at most one operand. -/
structure AsmLine where
  mnemonic : String
  operand  : Option Nat
  deriving DecidableEq, Repr

/-- The mnemonics of R100, and those pseudo-instructions of R102 that stand for one command. -/
def plainMnemonics : List String :=
  ["cne.nop", "cne.check", "cne.round", "cne.expand", "cne.mix", "cne.absorb", "cne.permute", "cne.select",
   "cne.run", "cne.hash", "cne.keyexp.fill", "cne.keyexp.final"]

/-- The line names a mnemonic of R100 or R102. -/
def AsmLine.mnemonicKnown (l : AsmLine) : Bool :=
  l.mnemonic == "cne.keyexp" || plainMnemonics.contains l.mnemonic

/-- Only `cne.keyexp` takes an operand, and it must have one (R100). -/
def AsmLine.operandPresence (l : AsmLine) : Bool :=
  (l.mnemonic == "cne.keyexp") == l.operand.isSome

/-- "The operand of `cne.keyexp` is the literal 0 or 1.  Any other operand is an assembly error" (R100). -/
def AsmLine.operandRange (l : AsmLine) : Bool :=
  match l.operand with
  | none => true
  | some n => n == 0 || n == 1

/-- A line that R100 and R102 accept. -/
def AsmLine.wellFormed (l : AsmLine) : Bool :=
  l.mnemonicKnown && l.operandPresence && l.operandRange

end Sys2Proof
end

