-- ==== Sys2Proof/Decode.lean ====
section
/-! DEFINITION. The decoder of 30_encoding.md rule R95, total on every 32-bit word, then the encoder written
from R91 and R96, and the assembler of R100. -/

namespace Sys2Proof

/-- OP = W[7:0] (R92). -/
def opField (w : Word) : BitVec 8 := w.extractLsb' 0 8

/-- K = W[8] (R93). -/
def kField (w : Word) : BitVec 1 := w.extractLsb' 8 1

/-- RSV = W[31:9] (R91). -/
def rsvField (w : Word) : BitVec 23 := w.extractLsb' 9 23

/-- Why a word is illegal: the three kinds of R97.  Each raises BAD_CMD. -/
inductive Reject where
  /-- R97(a): OP in 0x0A..0xFF. -/
  | undefinedOpcode
  /-- R97(b): one of bits 31:9 is set. -/
  | reservedBits
  /-- R97(c): bit 8 is set and OP is not KEYEXP's. -/
  | strayK
  deriving DecidableEq, Repr

/-- The opcode map of R96: the command OP names, with K for KEYEXP. -/
def commandOf (op : BitVec 8) (k : BitVec 1) : Option Instr :=
  match op.toNat with
  | 0 => some .nop
  | 1 => some .check
  | 2 => some .round
  | 3 => some (.keyexp k)
  | 4 => some .expand
  | 5 => some .mix
  | 6 => some .absorb
  | 7 => some .permute
  | 8 => some .select
  | 9 => some .run
  | _ => none

/-- `decode` of R95, its tests in R95's order. -/
def decode (w : Word) : Except Reject Instr :=
  match commandOf (opField w) (kField w) with
  | none => .error .undefinedOpcode
  | some i =>
    if rsvField w ≠ 0 then .error .reservedBits
    else if kField w = 1 ∧ opField w ≠ 0x03 then .error .strayK
    else .ok i

/-- OP of R96. -/
def opcode : Instr → BitVec 8
  | .nop => 0x00
  | .check => 0x01
  | .round => 0x02
  | .keyexp _ => 0x03
  | .expand => 0x04
  | .mix => 0x05
  | .absorb => 0x06
  | .permute => 0x07
  | .select => 0x08
  | .run => 0x09

/-- Bit 8 of the word: K for KEYEXP, 0 for every other command (R94). -/
def kBit : Instr → BitVec 1
  | .keyexp k => k
  | .nop | .check | .round | .expand | .mix | .absorb | .permute | .select | .run => 0

/-- The command word of R91: RSV = 0, then K, then OP. -/
def encode (i : Instr) : Word := (0 : BitVec 23) ++ kBit i ++ opcode i

/-- What the decoder reads from a word given with the opcode table's bit numbers (bit 0 the least significant).
A command word is 32 bits (R90), so a longer one is no command. -/
def decodeTableWord (nbits w : Nat) : Option Instr :=
  if nbits ≤ 32 then (decode (BitVec.ofNat 32 (w % 2 ^ nbits))).toOption else none

/-- The command a line of R100 stands for, the one-command pseudo-instructions of R102 among them. -/
def AsmLine.parse (l : AsmLine) : Option Instr :=
  match l.mnemonic, l.operand with
  | "cne.nop", none => some .nop
  | "cne.check", none => some .check
  | "cne.round", none => some .round
  | "cne.keyexp", some 0 => some (.keyexp 0)
  | "cne.keyexp", some 1 => some (.keyexp 1)
  | "cne.expand", none => some .expand
  | "cne.mix", none => some .mix
  | "cne.absorb", none => some .absorb
  | "cne.permute", none => some .permute
  | "cne.select", none => some .select
  | "cne.run", none => some .run
  | "cne.hash", none => some .run
  | "cne.keyexp.fill", none => some (.keyexp 0)
  | "cne.keyexp.final", none => some (.keyexp 1)
  | _, _ => none

/-- The assembler of R100: the line's command word; `none` is an assembly error. -/
def AsmLine.assemble (l : AsmLine) : Option Word := l.parse.map encode

end Sys2Proof
end

