-- ==== Sys2Proof/Config.lean ====
section
/-! DEFINITION. The fixed parameters of 00_scope.md rules R8 and R9, the types the platform parameters of R10
are written in, and the values the spec leaves open: opaque constants, so no proof can see what they are. -/

namespace Sys2Proof

/-- The four finalization hashes of R190, by their expected instantiation. -/
inductive HashAlg where
  | blake256       -- BLAKE-256, 14 rounds
  | groestl256     -- Groestl-256
  | jh256          -- JH-256, 42 rounds
  | skein512_256   -- Skein-512-256, version 1.3
  deriving DecidableEq, Repr

/-- What stands behind the permutation port: the expected instantiation of R187, or any other pure total
function of the platform's (R10, R186). -/
inductive PermUnit where
  | keccakF1600
  | other
  deriving DecidableEq, Repr, Inhabited

/-- How the memory system treats one scratchpad-port access: it serves it, it ends it in a bus error (R66), or
it never answers (R252). -/
inductive PortReply where
  | served
  | busError
  | noAnswer
  deriving DecidableEq, Repr

/-- One entry of the platform's admission map: every 16-byte access whose address lies in `first .. last` gets
`reply`.  A list of these is MemAdmit of R10 as plain data. -/
structure PortRange where
  first : Nat
  last  : Nat
  reply : PortReply
  deriving DecidableEq, Repr

namespace Config

/-- SP_SIZE of R8: the scratchpad's size in bytes. -/
abbrev spSize : Nat := 2097152
/-- CHUNK of R8: eight blocks. -/
abbrev chunk : Nat := 128
/-- N_CHUNKS of R8. -/
abbrev nChunks : Nat := 16384
/-- BLOCK of R8. -/
abbrev block : Nat := 16
/-- N_BLOCKS of R8. -/
abbrev nBlocks : Nat := 131072
/-- MIX_ITER of R8. -/
abbrev mixIter : Nat := 524288
/-- SP_ALIGN of R9: required of SP_BASE only when CAP.ACCEL = 1. -/
abbrev spAlign : Nat := 16
/-- REG_WINDOW of R9: the window's size in bytes. -/
abbrev regWindow : Nat := 4096
/-- PA_WIDTH of R9: scratchpad addresses are below 2 ^ 64. -/
abbrev paSpace : Nat := 18446744073709551616
/-- The constant of register ID: "CNE" and interface version 1 (R22). -/
abbrev idWord : Word := 0x434E4501#32

/-- REG_BASE of R10 as the platform has it at State.reset.  Log entry 2. -/
opaque regBase : Nat
/-- ACCEL_BUILD of R10.  Log entry 2. -/
opaque accelBuild : Bool
/-- The HW_CAP input as sampled at State.reset (R10, R240).  Log entry 2. -/
opaque hwCap : Bool
/-- Which permutation unit the platform attaches (R10).  Log entry 5. -/
opaque permUnit : PermUnit
/-- MemAdmit of R10 as the platform has it at State.reset, written as ranges.  Log entry 3. -/
opaque memMap : List PortRange
/-- SP_COHERENT of R80.  Log entry 9. -/
opaque spCoherent : Bool

/-- The permutation port when its unit is not the expected one: any pure total function (R186).  Log entry 5. -/
opaque keccakPort : Bytes 200 → Bytes 200
/-- The four hash ports: pure total functions of 200 bytes (R10, R186).  Log entry 6. -/
opaque hashPort : HashAlg → Bytes 200 → Bytes 32

/-- What a byte of the scratchpad space holds before anything has written it: any value, held until written
(R52; 93_implementation_defined.md item 5).  Log entry 7. -/
opaque powerOnByte : Nat → Byte
/-- The bytes a scratchpad write leaves when it ends in a bus error or when a hardware reset arrives during it,
and the bytes seen past an unmaintained cache: the first argument numbers the event (State's counter), the second
is the byte's address (R216, R240, R80).  Log entry 8. -/
opaque freeByte : Nat → Nat → Byte

end Config

end Sys2Proof
end

