-- ==== Sys2Proof/Machine/State.lean ====
section
/-! DEFINITION. The state of one CNE: the register window's registers (10_state.md rules R20 to R44), the
sequencer and its internal registers (R45, R46), the scratchpad port with the memory behind it (20_memory.md),
the platform parameters (00_scope.md rule R10) and the host's pending moves.  Plain data throughout. -/

namespace Sys2Proof.Machine

/-- The sequencer phase PH of R45.  `PH = EXEC` exactly when STATUS.BUSY = 1: one field stores both. -/
inductive Phase where
  | idle
  | exec
  deriving DecidableEq, Repr

/-- FAULT.CODE, the codes of R211; 0x06..0xFF are never produced. -/
inductive FaultCode where
  | noFault
  | badCmd
  | spSize
  | spAlign
  | spRange
  | busErr
  deriving DecidableEq, Repr

/-- The internal registers of R46, which live only while a command executes and are never observable. -/
structure Engine where
  /-- CW: the latched command word. -/
  cw   : Word
  /-- KS: the working round keys. -/
  ks   : KeySchedule
  /-- TEXT: the eight text blocks. -/
  text : Text
  /-- A: the mixer's first working register, its round key. -/
  a    : Block
  /-- B: the mixer's second working register. -/
  b    : Block
  /-- C1: the block of an iteration's first half. -/
  c1   : Block
  /-- I: the chunk or iteration counter. -/
  i    : Nat
  /-- FW: the working final state. -/
  fw   : Bytes 200
  /-- DW: the working digest. -/
  dw   : Bytes 32
  deriving DecidableEq, Repr

/-- The bytes of the scratchpad space that something has written, by address, strictly rising (see `Memory.wf`).
An address that is not listed holds `Config.powerOnByte`. -/
abbrev Memory := List Host.Cell

/-- What the engine does on its ports, as R47 lists it: scratchpad accesses and calls of the external units. -/
inductive PortEvent where
  /-- A 16-byte read at the address. -/
  | read (addr : Nat)
  /-- A 16-byte write at the address, with the block the memory holds there afterwards. -/
  | write (addr : Nat) (data : Block)
  /-- A call of the permutation port. -/
  | permute
  /-- A call of one hash port. -/
  | hash (alg : HashAlg)
  deriving DecidableEq, Repr

/-- What the host's caches hold that the port does not see, where the port is not coherent with them (R80). -/
structure HostCache where
  /-- The bytes the host has stored and not written back, in the form of `Memory.wf`. -/
  dirty : Memory
  /-- The ranges, as first address and length, that the engine has written and the host not invalidated since. -/
  stale : List (Nat × Nat)
  deriving DecidableEq, Repr

/-- The scratchpad port with the memory system behind it. -/
structure Port where
  /-- The memory system's contents. -/
  mem       : Memory
  /-- MemAdmit of R10 and R66. -/
  map       : List PortRange
  /-- SP_COHERENT (R80). -/
  coherent  : Bool
  /-- The host's caches, empty where the port is coherent (R80).  Log entry 9. -/
  cache     : HostCache
  /-- How many free values have been drawn: the number of the next one (the model's own field). -/
  freeCount : Nat
  /-- What the last accepted command has done on the ports so far, newest first (the model's own record).  DESIGN
  CHOICE, log entry 12. -/
  trace     : List PortEvent
  deriving DecidableEq, Repr

/-- What the host's last read brought it. -/
inductive HostData where
  | nothing
  | word (w : Word)
  | bytes (bs : List Byte)
  deriving DecidableEq, Repr

/-- One thing that happens to the CNE.  The schedule is data in State: it says who moves next.
DEDUCED, log entry 10. -/
inductive Move where
  /-- ENGINE's turn: the executing command runs to its end (R47); nothing happens when it is idle. -/
  | engine
  /-- A host read of `width` bits at a bus address. -/
  | busRead (addr width : Nat)
  /-- A host write of `width` bits at a bus address. -/
  | busWrite (addr width : Nat) (val : Word)
  /-- The host, or any other master, stores bytes in the scratchpad space (R65). -/
  | memStore (addr : Nat) (bytes : List Byte)
  /-- The host, or any other master, loads bytes from the scratchpad space. -/
  | memLoad (addr n : Nat)
  /-- The host writes `n` bytes at an address back from its caches to memory (R80). -/
  | cacheWriteBack (addr n : Nat)
  /-- The host invalidates `n` bytes at an address in its caches (R80). -/
  | cacheInvalidate (addr n : Nat)
  /-- The HW_CAP input changes its level (R241). -/
  | hwCapInput (level : Bool)
  /-- A hardware reset (R240).  If a command is executing it has performed `done` port events by then, and
  `midAccess` says whether the next one is in progress. -/
  | hardReset (done : Nat) (midAccess : Bool)
  deriving DecidableEq, Repr

/-- The whole state of one CNE with its platform. -/
structure State where
  /-- REG_BASE (R10). -/
  regBase    : Nat
  /-- CAP.ACCEL_BUILD, the build-time switch (R23). -/
  accelBuild : Bool
  /-- The level of the HW_CAP input (R10). -/
  hwCapPin   : Bool
  /-- Which unit stands behind the permutation port (R10, R187). -/
  permUnit   : PermUnit
  /-- CAP.HW_CAP, latched at hardware reset (R23). -/
  hwCap      : Bool
  /-- PH and STATUS.BUSY (R45, R26). -/
  ph         : Phase
  /-- STATUS.DONE (R27). -/
  done       : Bool
  /-- STATUS.FAULT (R28). -/
  faulted    : Bool
  /-- STATUS.OVR (R29). -/
  ovr        : Bool
  /-- STATUS.SEL (R30). -/
  sel        : BitVec 2
  /-- STATUS.SELV (R30). -/
  selv       : Bool
  /-- STATUS.LASTOP (R31). -/
  lastop     : BitVec 8
  /-- FAULT.CODE (R32). -/
  code       : FaultCode
  /-- FAULT.FOP (R32). -/
  fop        : BitVec 8
  /-- SP_BASE_LO (R34). -/
  spBaseLo   : Word
  /-- SP_BASE_HI (R34). -/
  spBaseHi   : Word
  /-- SP_LEN (R35). -/
  spLen      : Word
  /-- ST, the Initial State (R39). -/
  st         : Bytes 200
  /-- DIGEST (R40). -/
  digest     : Bytes 32
  /-- RIN (R41). -/
  rin        : Block
  /-- RKEY (R41). -/
  rkey       : Block
  /-- ROUT (R42). -/
  rout       : Block
  /-- RK[0..9] (R43). -/
  rk         : KeySchedule
  /-- FST, the final state (R44). -/
  fst        : Bytes 200
  /-- The internal registers (R46). -/
  eng        : Engine
  /-- The scratchpad port and the memory (R60, R66). -/
  port       : Port
  /-- The moves still to come, next first. -/
  moves      : List Move
  /-- What the host's last read brought it (R63). -/
  readback   : HostData
  deriving DecidableEq, Repr

/-- Why the model stops.  The CNE's own faults (R211) are no stops: fault entry is a next state. -/
inductive Fault where
  /-- Raised by EXPAND, MIX, ABSORB and RUN when the memory system never answers an access: the command never
  ends (R252; 93_implementation_defined.md item 8, "stuck").  Safe: the hardware would stay busy.  DEDUCED, log
  entry 4. -/
  | scratchpadNeverAnswers
  deriving DecidableEq, Repr

/-- What the model gives no move. -/
inductive Refusal where
  /-- Raised by no meaning here: an instruction that has no meaning yet.  Safe. -/
  | notModelled (mnemonic : String)
  /-- Raised by a host access to the register window that is not 32 bits wide at an offset that is a multiple of
  4 (R62: "A model refuses such an access").  Safe.  Log entry 14. -/
  | undefinedAccess
  /-- Raised by a host load, store or cache maintenance in a region the engine owns (R75: "A model gives a host
  access to an owned region no move").  Safe in the model; R75 notes that it errs toward proving about a host that
  breaks its duty.  Log entries 14 and 22. -/
  | ownedRegion
  /-- Raised by a host load, store or cache maintenance that leaves the 64-bit scratchpad space (R60).  Safe.  DESIGN
  CHOICE, log entry 16. -/
  | outsideMemorySpace
  deriving DecidableEq, Repr

/-- The internal registers at reset: unspecified and never observable (R52); zero here.  DESIGN CHOICE,
log entry 1. -/
def Engine.reset : Engine where
  cw   := 0
  ks   := Vector.replicate 10 (Vector.replicate 16 0)
  text := Vector.replicate 8 (Vector.replicate 16 0)
  a    := Vector.replicate 16 0
  b    := Vector.replicate 16 0
  c1   := Vector.replicate 16 0
  i    := 0
  fw   := Vector.replicate 200 0
  dw   := Vector.replicate 32 0

/-- The machine right after a hardware reset: the "after hardware reset" column of R52, no byte of memory written
yet, and no move pending. -/
def State.reset : State where
  regBase    := Config.regBase
  accelBuild := Config.accelBuild
  hwCapPin   := Config.hwCap
  permUnit   := Config.permUnit
  hwCap      := Config.hwCap
  ph         := .idle
  done       := false
  faulted    := false
  ovr        := false
  sel        := 0
  selv       := false
  lastop     := 0
  code       := .noFault
  fop        := 0
  spBaseLo   := 0
  spBaseHi   := 0
  spLen      := 0
  st         := Vector.replicate 200 0
  digest     := Vector.replicate 32 0
  rin        := Vector.replicate 16 0
  rkey       := Vector.replicate 16 0
  rout       := Vector.replicate 16 0
  rk         := Vector.replicate 10 (Vector.replicate 16 0)
  fst        := Vector.replicate 200 0
  eng        := Engine.reset
  port       :=
    { mem := [], map := Config.memMap, coherent := Config.spCoherent, cache := { dirty := [], stale := [] }
      freeCount := 0, trace := [] }
  moves      := []
  readback   := .nothing

end Sys2Proof.Machine
end

