-- ==== Sys2Proof/Machine/Bytes.lean ====
section
/-! DEFINITION. Byte strings: the notation of 00_scope.md rule R11, the little-endian conversions of R12, and
the word view of a byte-array register of 10_state.md rule R21(b). -/

namespace Sys2Proof.Machine

/-- `x ⊕ y` of R11. -/
def bxor {n : Nat} (x y : Bytes n) : Bytes n := Vector.zipWith (· ^^^ ·) x y

/-- `v[o .. o + m - 1]` of R11. -/
def slice {n : Nat} (v : Bytes n) (o m : Nat) (h : o + m ≤ n := by omega) : Bytes m :=
  Vector.ofFn fun k => v[o + k.val]

/-- The number a byte string is in little-endian order: `Σ v[k] · 256^k`. -/
def leNat : List Byte → Nat
  | [] => 0
  | b :: bs => b.toNat + 256 * leNat bs

/-- `le32(v, o)` of R12. -/
def le32 {n : Nat} (v : Bytes n) (o : Nat) : Nat := leNat ((v.toList.drop o).take 4)

/-- `le64(v, o)` of R12. -/
def le64 {n : Nat} (v : Bytes n) (o : Nat) : Nat := leNat ((v.toList.drop o).take 8)

/-- `to_le64(n)` of R12: the 8 bytes of n mod 2^64. -/
def toLe64 (n : Nat) : Bytes 8 := Vector.ofFn fun k => BitVec.ofNat 8 (n / 256 ^ k.val)

/-- `a +64 b` of R12. -/
def add64 (a b : Nat) : Nat := (a + b) % 2 ^ 64

/-- `mul128(a, b)` of R12: exact. -/
def mul128 (a b : Nat) : Nat := a * b

/-- `hi64(p)` of R12. -/
def hi64 (p : Nat) : Nat := p / 2 ^ 64

/-- `lo64(p)` of R12. -/
def lo64 (p : Nat) : Nat := p % 2 ^ 64

/-- Word `w` of a byte array: bytes 4w .. 4w+3, byte 4w in bits 7:0 (R21(b), R61). -/
def wordAt {n : Nat} (v : Bytes n) (w : Nat) : Word := BitVec.ofNat 32 (le32 v (4 * w))

/-- The byte array with word `w` written (R21(b)). -/
def setWordAt {n : Nat} (v : Bytes n) (w : Nat) (x : Word) : Bytes n :=
  Vector.ofFn fun i => if i.val / 4 = w then x.extractLsb' (8 * (i.val % 4)) 8 else v[i.val]

/-- The 128 bytes `TEXT[0] ‖ TEXT[1] ‖ ... ‖ TEXT[7]` (R181). -/
def textBytes (t : Text) : Bytes 128 := Vector.ofFn fun i => t[i.val / 16][i.val % 16]

/-- The 160 bytes of RK as the window lays them out: RK[r] at bytes 16r .. 16r+15 (R43). -/
def keyBytes (k : KeySchedule) : Bytes 160 := Vector.ofFn fun i => k[i.val / 16][i.val % 16]

end Sys2Proof.Machine
end

