-- ==== Sys2Proof/Machine/Keccak.lean ====
section
/-! DEFINITION. The expected instantiation of the permutation port (43_finalizer.md rule R187): Keccak-f[1600]. -/

namespace Sys2Proof.Machine

/-- The 25 lanes, lane (x, y) at index x + 5y (R187). -/
abbrev Lanes := Vector (BitVec 64) 25

/-- Lane (x, y), indices mod 5. -/
def lane (A : Lanes) (x y : Nat) : BitVec 64 := A[x % 5 + 5 * (y % 5)]

/-- ROT[x][y] of R187, row x. -/
def keccakRot : List (List Nat) :=
  [[0, 36, 3, 41, 18],
   [1, 44, 10, 45, 2],
   [62, 6, 43, 15, 61],
   [28, 55, 25, 21, 56],
   [27, 20, 39, 8, 14]]

/-- RC[0..23] of R187, in the rows the rule prints: RC[r] stands in row r / 4, column r mod 4. -/
def keccakRC : List (List (BitVec 64)) :=
  [[0x0000000000000001, 0x0000000000008082, 0x800000000000808A, 0x8000000080008000],
   [0x000000000000808B, 0x0000000080000001, 0x8000000080008081, 0x8000000000008009],
   [0x000000000000008A, 0x0000000000000088, 0x0000000080008009, 0x000000008000000A],
   [0x000000008000808B, 0x800000000000008B, 0x8000000000008089, 0x8000000000008003],
   [0x8000000000008002, 0x8000000000000080, 0x000000000000800A, 0x800000008000000A],
   [0x8000000080008081, 0x8000000000008080, 0x0000000080000001, 0x8000000080008008]]

/-- C[x] of theta. -/
def thetaC (A : Lanes) (x : Nat) : BitVec 64 :=
  lane A x 0 ^^^ lane A x 1 ^^^ lane A x 2 ^^^ lane A x 3 ^^^ lane A x 4

/-- Theta of R187. -/
def theta (A : Lanes) : Lanes :=
  Vector.ofFn fun i =>
    let x := i.val % 5
    A[i.val] ^^^ (thetaC A (x + 4) ^^^ (thetaC A (x + 1)).rotateLeft 1)

/-- Rho and pi of R187: `Bm[y][(2x + 3y) mod 5] := rol64(A[x][y], ROT[x][y])`.  Lane (X, Y) of the result is the
one with y = X and 2x = Y - 3y, which is x = X + 3Y, mod 5. -/
def rhoPi (A : Lanes) : Lanes :=
  Vector.ofFn fun i =>
    let x := (i.val % 5 + 3 * (i.val / 5)) % 5
    let y := i.val % 5
    (lane A x y).rotateLeft ((keccakRot.getD x []).getD y 0)

/-- Chi of R187. -/
def chi (B : Lanes) : Lanes :=
  Vector.ofFn fun i =>
    let x := i.val % 5
    let y := i.val / 5
    lane B x y ^^^ (~~~ lane B (x + 1) y &&& lane B (x + 2) y)

/-- Iota of R187. -/
def iota (A : Lanes) (rc : BitVec 64) : Lanes := A.set 0 (A[0] ^^^ rc)

/-- One round of R187. -/
def keccakRound (A : Lanes) (rc : BitVec 64) : Lanes := iota (chi (rhoPi (theta A))) rc

/-- The lanes of a 200-byte state (R187). -/
def lanesOf (S : Bytes 200) : Lanes := Vector.ofFn fun i => BitVec.ofNat 64 (le64 S (8 * i.val))

/-- The 200 bytes with `to_le64` of lane i at offset 8i (R187). -/
def bytesOf (A : Lanes) : Bytes 200 :=
  Vector.ofFn fun i => A[i.val / 8].extractLsb' (8 * (i.val % 8)) 8

/-- `KeccakF` of R187: 24 rounds. -/
def keccakF1600 (S : Bytes 200) : Bytes 200 := bytesOf (keccakRC.flatten.foldl keccakRound (lanesOf S))

end Sys2Proof.Machine
end

