-- ==== Sys2Proof/Machine/Aes.lean ====
section
/-! DEFINITION. The block-round engine's functions (40_block_round.md rules R110 to R119): the field, the S-box,
the round, the ten-key schedule and the ten-round transform.  One AESRound serves both variants (R120). -/

namespace Sys2Proof.Machine

/-- Multiplication by x (R110). -/
def xtime (b : Byte) : Byte := (b <<< 1) ^^^ (if b.getLsbD 7 then 0x1B else 0x00)

/-- `xtime^n` (R110). -/
def xtimes : Nat → Byte → Byte
  | 0, a => a
  | n + 1, a => xtime (xtimes n a)

/-- The field product: the exclusive-or over the set bits i of b of xtime^i(a) (R110). -/
def gmul (a b : Byte) : Byte :=
  (List.range 8).foldl (fun acc i => if b.getLsbD i then acc ^^^ xtimes i a else acc) 0

/-- The S-box table of R112: row h, column l holds S(0xhl). -/
def sboxTable : List (List Byte) :=
  [[0x63, 0x7c, 0x77, 0x7b, 0xf2, 0x6b, 0x6f, 0xc5, 0x30, 0x01, 0x67, 0x2b, 0xfe, 0xd7, 0xab, 0x76],
   [0xca, 0x82, 0xc9, 0x7d, 0xfa, 0x59, 0x47, 0xf0, 0xad, 0xd4, 0xa2, 0xaf, 0x9c, 0xa4, 0x72, 0xc0],
   [0xb7, 0xfd, 0x93, 0x26, 0x36, 0x3f, 0xf7, 0xcc, 0x34, 0xa5, 0xe5, 0xf1, 0x71, 0xd8, 0x31, 0x15],
   [0x04, 0xc7, 0x23, 0xc3, 0x18, 0x96, 0x05, 0x9a, 0x07, 0x12, 0x80, 0xe2, 0xeb, 0x27, 0xb2, 0x75],
   [0x09, 0x83, 0x2c, 0x1a, 0x1b, 0x6e, 0x5a, 0xa0, 0x52, 0x3b, 0xd6, 0xb3, 0x29, 0xe3, 0x2f, 0x84],
   [0x53, 0xd1, 0x00, 0xed, 0x20, 0xfc, 0xb1, 0x5b, 0x6a, 0xcb, 0xbe, 0x39, 0x4a, 0x4c, 0x58, 0xcf],
   [0xd0, 0xef, 0xaa, 0xfb, 0x43, 0x4d, 0x33, 0x85, 0x45, 0xf9, 0x02, 0x7f, 0x50, 0x3c, 0x9f, 0xa8],
   [0x51, 0xa3, 0x40, 0x8f, 0x92, 0x9d, 0x38, 0xf5, 0xbc, 0xb6, 0xda, 0x21, 0x10, 0xff, 0xf3, 0xd2]] ++
  [[0xcd, 0x0c, 0x13, 0xec, 0x5f, 0x97, 0x44, 0x17, 0xc4, 0xa7, 0x7e, 0x3d, 0x64, 0x5d, 0x19, 0x73],
   [0x60, 0x81, 0x4f, 0xdc, 0x22, 0x2a, 0x90, 0x88, 0x46, 0xee, 0xb8, 0x14, 0xde, 0x5e, 0x0b, 0xdb],
   [0xe0, 0x32, 0x3a, 0x0a, 0x49, 0x06, 0x24, 0x5c, 0xc2, 0xd3, 0xac, 0x62, 0x91, 0x95, 0xe4, 0x79],
   [0xe7, 0xc8, 0x37, 0x6d, 0x8d, 0xd5, 0x4e, 0xa9, 0x6c, 0x56, 0xf4, 0xea, 0x65, 0x7a, 0xae, 0x08],
   [0xba, 0x78, 0x25, 0x2e, 0x1c, 0xa6, 0xb4, 0xc6, 0xe8, 0xdd, 0x74, 0x1f, 0x4b, 0xbd, 0x8b, 0x8a],
   [0x70, 0x3e, 0xb5, 0x66, 0x48, 0x03, 0xf6, 0x0e, 0x61, 0x35, 0x57, 0xb9, 0x86, 0xc1, 0x1d, 0x9e],
   [0xe1, 0xf8, 0x98, 0x11, 0x69, 0xd9, 0x8e, 0x94, 0x9b, 0x1e, 0x87, 0xe9, 0xce, 0x55, 0x28, 0xdf],
   [0x8c, 0xa1, 0x89, 0x0d, 0xbf, 0xe6, 0x42, 0x68, 0x41, 0x99, 0x2d, 0x0f, 0xb0, 0x54, 0xbb, 0x16]]

/-- S of R112, read from the table. -/
def sbox (a : Byte) : Byte := (sboxTable.getD (a.toNat / 16) []).getD (a.toNat % 16) 0

/-- `SubBytes` of R114. -/
def subBytes (x : Block) : Block := x.map sbox

/-- `ShiftRows` of R114: byte 4c+r comes from column (c + r) mod 4. -/
def shiftRows (x : Block) : Block :=
  Vector.ofFn fun i => x[4 * ((i.val / 4 + i.val % 4) % 4) + i.val % 4]

/-- One row of MixColumns on a column (a0, a1, a2, a3) (R114). -/
def mixRow (r : Nat) (a0 a1 a2 a3 : Byte) : Byte :=
  match r with
  | 0 => gmul 2 a0 ^^^ gmul 3 a1 ^^^ a2 ^^^ a3
  | 1 => a0 ^^^ gmul 2 a1 ^^^ gmul 3 a2 ^^^ a3
  | 2 => a0 ^^^ a1 ^^^ gmul 2 a2 ^^^ gmul 3 a3
  | _ => gmul 3 a0 ^^^ a1 ^^^ a2 ^^^ gmul 2 a3

/-- `MixColumns` of R114. -/
def mixColumns (x : Block) : Block :=
  Vector.ofFn fun i =>
    have := i.isLt
    mixRow (i.val % 4) x[4 * (i.val / 4)] x[4 * (i.val / 4) + 1] x[4 * (i.val / 4) + 2] x[4 * (i.val / 4) + 3]

/-- The Block Round Function of R116, layers in the order of R115. -/
def aesRound (x k : Block) : Block := bxor (mixColumns (shiftRows (subBytes x))) k

/-- RCON of R118: only 1 to 4 are used. -/
def rcon (i : Nat) : Byte :=
  match i with
  | 1 => 0x01
  | 2 => 0x02
  | 3 => 0x04
  | _ => 0x08

/-- `RotWord` of R118. -/
def rotWord (w : Bytes 4) : Bytes 4 := Vector.ofFn fun i => w[(i.val + 1) % 4]

/-- `SubWord` of R118. -/
def subWord (w : Bytes 4) : Bytes 4 := w.map sbox

/-- `RCON ‖ 00 ‖ 00 ‖ 00` of R118. -/
def rconWord (i : Nat) : Bytes 4 := Vector.ofFn fun k => if k.val = 0 then rcon i else 0

/-- Word `i` of a list of words (R118 only reads words that are there). -/
def keyWordAt (ws : List (Bytes 4)) (i : Nat) : Bytes 4 := ws.getD i (Vector.replicate 4 0)

/-- The body of R118's loop: w[i] from w[i-1] and w[i-8]. -/
def nextKeyWord (ws : List (Bytes 4)) (i : Nat) : Bytes 4 :=
  let t := keyWordAt ws (i - 1)
  let t := if i % 8 = 0 then bxor (subWord (rotWord t)) (rconWord (i / 8))
    else if i % 8 = 4 then subWord t else t
  bxor (keyWordAt ws (i - 8)) t

/-- w[0..7] of R118: the key's own words. -/
def firstKeyWords (K : Bytes 32) : List (Bytes 4) :=
  List.ofFn fun i : Fin 8 => slice K (4 * i.val) 4

/-- w[0..39] of R118. -/
def keyWords (K : Bytes 32) : List (Bytes 4) :=
  (List.range' 8 32).foldl (fun ws i => ws ++ [nextKeyWord ws i]) (firstKeyWords K)

/-- `KeyExp10` of R118: KS[r] = w[4r] ‖ w[4r+1] ‖ w[4r+2] ‖ w[4r+3]. -/
def keyExp10 (K : Bytes 32) : KeySchedule :=
  let ws := keyWords K
  Vector.ofFn fun r => Vector.ofFn fun k => (keyWordAt ws (4 * r.val + k.val / 4))[k.val % 4]

/-- `Pseudo10` of R119: ten full rounds with KS[0..9] in order. -/
def pseudo10 (x : Block) (ks : KeySchedule) : Block := ks.foldl aesRound x

end Sys2Proof.Machine
end

