-- ==== Sys2Proof/Machine/Flags.lean ====
section
/-! DEFINITION. The register words the window composes from the state's fields: STATUS (10_state.md rule R25),
FAULT (R32), CAP (R23) and ALIGN (R38), and the selector (43_finalizer.md rule R189).  The CNE has no arithmetic
flags (R51). -/

namespace Sys2Proof.Machine

/-- STATUS.BUSY: set exactly when PH = EXEC (R26, R45). -/
def State.busy (s : State) : Bool :=
  match s.ph with
  | .idle => false
  | .exec => true

/-- CAP.ACCEL = ACCEL_BUILD AND HW_CAP as latched (R23). -/
def State.accel (s : State) : Bool := s.accelBuild && s.hwCap

/-- The value of FAULT.CODE (R211). -/
def FaultCode.toByte : FaultCode → BitVec 8
  | .noFault => 0x00
  | .badCmd => 0x01
  | .spSize => 0x02
  | .spAlign => 0x03
  | .spRange => 0x04
  | .busErr => 0x05

/-- STATUS of R25, from bit 31 down: reserved, LASTOP 15:8, reserved 7, SELV 6, SEL 5:4, OVR 3, FAULT 2, DONE 1,
BUSY 0. -/
def statusWord (s : State) : Word :=
  (0 : BitVec 16) ++ s.lastop ++ (0 : BitVec 1) ++ BitVec.ofBool s.selv ++ s.sel ++ BitVec.ofBool s.ovr ++
    BitVec.ofBool s.faulted ++ BitVec.ofBool s.done ++ BitVec.ofBool s.busy

/-- FAULT of R32: reserved, FOP 15:8, CODE 7:0. -/
def faultWord (s : State) : Word := (0 : BitVec 16) ++ s.fop ++ s.code.toByte

/-- CAP of R23: reserved, ACCEL 2, HW_CAP 1, ACCEL_BUILD 0. -/
def capWord (s : State) : Word :=
  (0 : BitVec 29) ++ BitVec.ofBool s.accel ++ BitVec.ofBool s.hwCap ++ BitVec.ofBool s.accelBuild

/-- ALIGN of R38. -/
def alignWord (s : State) : Word := if s.accel then 16 else 1

/-- The selector of R189: `FST[0] AND 3`. -/
def selector (f : Bytes 200) : BitVec 2 := (f[0] &&& 3).setWidth 2

/-- The hash behind each selector value (R190). -/
def hashOf (sel : BitVec 2) : HashAlg :=
  match sel.toNat with
  | 0 => .blake256
  | 1 => .groestl256
  | 2 => .jh256
  | _ => .skein512_256

end Sys2Proof.Machine
end

