-- ==== Sys2Proof/Machine/Operands.lean ====
section
/-! DEFINITION. The operands of the commands: the slices of ST they read (30_encoding.md rule R93, 41_expander.md
rule R140, 42_mixer.md rule R159, 43_finalizer.md rule R180), the scratchpad base (10_state.md rule R34), and the
addresses and integers the mixer forms (42_mixer.md rules R155 to R157). -/

namespace Sys2Proof.Machine

/-- `ST[32·K .. 32·K + 31]` of R93. -/
def keySlice (st : Bytes 200) (k : BitVec 1) : Bytes 32 :=
  slice st (32 * k.toNat) 32 (by have := k.isLt; omega)

/-- The text block `ST[64 + 16j .. 79 + 16j]` (R140, R180). -/
def textBlock (st : Bytes 200) (j : Fin 8) : Block := slice st (64 + 16 * j.val) 16

/-- The eight text blocks, ST[64..191] (R140, R180). -/
def textOf (st : Bytes 200) : Text := Vector.ofFn fun j => textBlock st j

/-- A at the start of MIX: `ST[0..15] ⊕ ST[32..47]` (R159). -/
def startA (st : Bytes 200) : Block := bxor (slice st 0 16) (slice st 32 16)

/-- B at the start of MIX: `ST[16..31] ⊕ ST[48..63]` (R159). -/
def startB (st : Bytes 200) : Block := bxor (slice st 16 16) (slice st 48 16)

/-- FW of R184: `ST[0..63] ‖ TEXT[0] ‖ ... ‖ TEXT[7] ‖ ST[192..199]`. -/
def absorbedState (st : Bytes 200) (t : Text) : Bytes 200 :=
  slice st 0 64 ++ textBytes t ++ slice st 192 8

/-- `SP_BASE = SP_BASE_HI · 2^32 + SP_BASE_LO` (R34). -/
def State.spBase (s : State) : Nat := s.spBaseHi.toNat * 2 ^ 32 + s.spBaseLo.toNat

/-- The scratchpad offset of block j of chunk I: `128·I + 16·j` (R141, R184). -/
def blockOffset (I j : Nat) : Nat := 128 * I + 16 * j

/-- `SpIndex(v) = le32(v, 0) AND 0x001FFFF0` (R155). -/
def spIndex (v : Block) : Nat := le32 v 0 &&& 0x001FFFF0

/-- S of R158: the high half of C1 × Y is added to A's low eight bytes, the low half to its high eight bytes,
each modulo 2^64 with the carry discarded (R157). -/
def mulAdd (a c1 y : Block) : Block :=
  let p := mul128 (le64 c1 0) (le64 y 0)
  toLe64 (add64 (le64 a 0) (hi64 p)) ++ toLe64 (add64 (le64 a 8) (lo64 p))

end Sys2Proof.Machine
end

