-- ==== Sys2Proof/Machine/Ops.lean ====
section
/-! DEFINITION. The shared operations: memory (20_memory.md), the scratchpad port and its bus errors
(60_exceptions.md rule R216), the descriptor check (42_mixer.md rule R150), command acceptance and completion
(10_state.md rule R33), and fault entry (60_exceptions.md rule R220).  The way back from a fault, the resets of
70_reset_and_hazards.md, stands in Machine/Reset.lean. -/

namespace Sys2Proof.Machine

/-! ### Memory -/

/-- The canonical form: addresses strictly rising.  An unlisted address has no value in the list, so no entry can
equal one, and the list is exactly what has been written. -/
abbrev Memory.wf (m : Memory) : Prop := m.Pairwise fun x y => x.1 < y.1

/-- The byte something has written at `a`, if anything has. -/
def Memory.find : Memory → Nat → Option Byte
  | [], _ => none
  | (k, b) :: m, a => if k = a then some b else Memory.find m a

/-- The byte at `a`: what was written there, else what the memory held before (log entry 7). -/
def Memory.byte (m : Memory) (a : Nat) : Byte := (m.find a).getD (Config.powerOnByte a)

/-- Store one byte. -/
def Memory.store : Memory → Nat → Byte → Memory
  | [], a, b => [(a, b)]
  | (k, c) :: m, a, b =>
    if a < k then (a, b) :: (k, c) :: m
    else if a = k then (a, b) :: m
    else (k, c) :: Memory.store m a b

/-- Store bytes at rising addresses from `a`. -/
def Memory.storeBytes : Memory → Nat → List Byte → Memory
  | m, _, [] => m
  | m, a, b :: bs => Memory.storeBytes (m.store a b) (a + 1) bs

/-- The bytes at `a .. a + n - 1`. -/
def Memory.loadBytes (m : Memory) (a n : Nat) : List Byte :=
  (List.range n).map fun k => m.byte (a + k)

/-- The block at `addr`, byte 0 at the lowest address (R64). -/
def Memory.readBlock (m : Memory) (addr : Nat) : Block := Vector.ofFn fun k => m.byte (addr + k.val)

/-- Store a block at `addr`, byte 0 at the lowest address (R64). -/
def Memory.writeBlock (m : Memory) (addr : Nat) (v : Block) : Memory := m.storeBytes addr v.toList

/-- The block of free values numbered `n`, as seen at `addr` (log entry 8). -/
@[irreducible] def freeBlock (n addr : Nat) : Block := Vector.ofFn fun k => Config.freeByte n (addr + k.val)

/-- The memory with the bytes at the listed addresses replaced by the free values numbered `n`. -/
def Memory.forget (m : Memory) (n : Nat) : List Nat → Memory
  | [] => m
  | a :: as => Memory.forget (m.store a (Config.freeByte n a)) n as

/-- The memory with the listed bytes stored into it. -/
def Memory.merge (m : Memory) : Memory → Memory
  | [] => m
  | (a, b) :: cs => Memory.merge (m.store a b) cs

/-! ### The scratchpad port -/

/-- MemAdmit(addr, 16) of R66, and R252's access that is never answered: the first range that holds the address
decides; an address in no range is served. -/
def replyAt (map : List PortRange) (addr : Nat) : PortReply :=
  match map.find? fun r => decide (r.first ≤ addr ∧ addr ≤ r.last) with
  | some r => r.reply
  | none => .served

/-- Without coherence, a byte the host has stored and not written back is uncertain at the port: the engine reads any
value there (R80; 93_implementation_defined.md item 9).  Log entry 9. -/
def Port.unsure (p : Port) (a : Nat) : Bool := !p.coherent && (p.cache.dirty.find a).isSome

/-- The block a read that is served returns (R64, R66): memory's bytes, but for those that are uncertain. -/
def Port.seenBlock (p : Port) (addr : Nat) : Block :=
  Vector.ofFn fun k =>
    if p.unsure (addr + k.val) then Config.freeByte p.freeCount (addr + k.val) else p.mem.byte (addr + k.val)

/-- The host's caches after the engine has written the block at `addr`: they are stale there, and a byte the host had
not written back may now reach memory before the engine's or after it, so what a later write-back leaves is any value
(R80).  Log entry 9. -/
def HostCache.overwritten (n addr : Nat) (c : HostCache) : HostCache where
  dirty := c.dirty.map fun x => if addr ≤ x.1 ∧ x.1 < addr + 16 then (x.1, Config.freeByte n x.1) else x
  stale := (addr, 16) :: c.stale

/-- The memory system after it has stored the block `v` at `addr`. -/
def Port.put (addr : Nat) (v : Block) (p : Port) : Port :=
  { p with
    mem := p.mem.writeBlock addr v
    cache := if p.coherent then p.cache else p.cache.overwritten (p.freeCount + 1) addr
    freeCount := p.freeCount + 2 }

/-- The memory system after a read, served or not: only free values may have been drawn (log entry 8). -/
def Port.drawn (p : Port) : Port := { p with freeCount := p.freeCount + 1 }

/-- Record one event (R47). -/
def Port.note (e : PortEvent) (p : Port) : Port := { p with trace := e :: p.trace }

/-- What a command works on: its internal registers and the port.  No register of the window is in it, so nothing
a command does before its commit can show in one (R49). -/
structure Work where
  eng  : Engine
  port : Port
  deriving DecidableEq, Repr

/-- Why a command's pseudocode stops early. -/
inductive Stop where
  /-- `raise Fault(code)` (R15). -/
  | fault (c : FaultCode)
  /-- An access that is never answered (R252). -/
  | unanswered
  deriving DecidableEq, Repr

/-- The outcome of a piece of a command's pseudocode. -/
inductive Run (α : Type) where
  | ok (val : α) (w : Work)
  | stop (why : Stop) (w : Work)

/-- What a run leaves, however it ended. -/
def Run.work {α : Type} : Run α → Work
  | .ok _ w => w
  | .stop _ w => w

/-- Sequencing: nothing after a stop executes (R15). -/
def Run.andThen {α β : Type} (r : Run α) (f : α → Work → Run β) : Run β :=
  match r with
  | .ok x w => f x w
  | .stop why w => .stop why w

/-- `for i in i .. i + n - 1: f i`, in increasing order (R16). -/
@[irreducible] def loop (f : Nat → Work → Run Unit) : (n i : Nat) → Work → Run Unit
  | 0, _, w => .ok () w
  | n + 1, i, w =>
    match f i w with
    | .ok _ w => loop f n (i + 1) w
    | .stop why w => .stop why w

/-! The internal registers of R46, one update each; none of them touches the port. -/

/-- `KS := ks` and `TEXT := t`. -/
def Work.setKeysText (ks : KeySchedule) (t : Text) (w : Work) : Work :=
  { w with eng := { w.eng with ks := ks, text := t } }

/-- `TEXT[j]`; every loop has j below 8. -/
def Work.textAt (j : Nat) (w : Work) : Block := w.eng.text.getD j (Vector.replicate 16 0)

/-- `TEXT[j] := t`. -/
def Work.setText (j : Nat) (t : Block) (w : Work) : Work :=
  { w with eng := { w.eng with text := w.eng.text.setIfInBounds j t } }

/-- `A := a` and `B := b`. -/
def Work.setAB (a b : Block) (w : Work) : Work := { w with eng := { w.eng with a := a, b := b } }

/-- `C1 := c`. -/
def Work.setC1 (c : Block) (w : Work) : Work := { w with eng := { w.eng with c1 := c } }

/-- The loop counter `I`. -/
def Work.setI (I : Nat) (w : Work) : Work := { w with eng := { w.eng with i := I } }

/-- `FW := f`. -/
def Work.setFW (f : Bytes 200) (w : Work) : Work := { w with eng := { w.eng with fw := f } }

/-- `DW := d`. -/
def Work.setDW (d : Bytes 32) (w : Work) : Work := { w with eng := { w.eng with dw := d } }

/-- Record what the engine does on its ports (R47). -/
def Work.note (e : PortEvent) (w : Work) : Work := { w with port := w.port.note e }

/-- The memory system after a write of `v` that was served. -/
def Work.put (addr : Nat) (v : Block) (w : Work) : Work := { w with port := w.port.put addr v }

/-- The memory system after a write that was not: the 16 bytes at its address are any value (R216). -/
def Work.spoil (addr : Nat) (w : Work) : Work := w.put addr (freeBlock w.port.freeCount addr)

/-- The memory system after a read. -/
def Work.drawn (w : Work) : Work := { w with port := w.port.drawn }

/-- `MemRead(addr, 16)` of R14: served, or a bus error that leaves memory unchanged (R216). -/
def portRead (addr : Nat) (w : Work) : Run Block :=
  match replyAt w.port.map addr with
  | .served => .ok (w.port.seenBlock addr) (w.drawn.note (.read addr))
  | .busError => .stop (.fault .busErr) (w.drawn.note (.read addr))
  | .noAnswer => .stop .unanswered (w.drawn.note (.read addr))

/-- `MemWrite(addr, 16, v)` of R14: served, or a bus error after which the bytes at its address are any value
(R216). -/
def portWrite (addr : Nat) (v : Block) (w : Work) : Run Unit :=
  match replyAt w.port.map addr with
  | .served => .ok () ((w.put addr v).note (.write addr v))
  | .busError =>
    .stop (.fault .busErr) ((w.spoil addr).note (.write addr (freeBlock w.port.freeCount addr)))
  | .noAnswer =>
    .stop .unanswered ((w.spoil addr).note (.write addr (freeBlock w.port.freeCount addr)))

/-- The permutation port (R186): the expected instantiation of R187, or the platform's own function. -/
def permPort (u : PermUnit) (x : Bytes 200) : Bytes 200 :=
  match u with
  | .keccakF1600 => keccakF1600 x
  | .other => Config.keccakPort x

/-! ### Commands -/

/-- CheckDescriptor of R150: the first check that fails, in the order SP_SIZE, SP_ALIGN, SP_RANGE. -/
def checkDescriptor (s : State) : Option FaultCode :=
  if s.spLen.toNat ≠ Config.spSize then some .spSize
  else if s.accel = true ∧ s.spBase % Config.spAlign ≠ 0 then some .spAlign
  else if s.spBase + Config.spSize > 2 ^ 64 then some .spRange
  else none

/-- FaultEntry of R220: the code and the opcode byte are latched, BUSY and DONE are cleared, FAULT is set, and
PH is IDLE.  No other register changes; control goes nowhere. -/
def faultEntry (c : FaultCode) (s : State) : State :=
  { s with
    code := c
    fop := s.eng.cw.extractLsb' 0 8
    ph := .idle
    done := false
    faulted := true }

/-- Completion of R33: BUSY is cleared and DONE set, at the moment of the commit. -/
def complete (s : State) : State := { s with ph := .idle, done := true }

/-- Where a command's pseudocode starts. -/
def State.work (s : State) : Work := { eng := s.eng, port := s.port }

/-- The state with what the pseudocode has left in the internal registers and on the port. -/
def State.withWork (s : State) (w : Work) : State := { s with eng := w.eng, port := w.port }

/-- The end of a scratchpad command: the commit and completion, or fault entry with nothing committed (R216,
R220).  An access that is never answered leaves the command executing for ever: the model stops there. -/
def finish (s : State) (commit : Engine → State → State) (r : Run Unit) : Host.Outcome State Fault Refusal :=
  match r with
  | .ok _ w => .next (complete (commit w.eng (s.withWork w)))
  | .stop (.fault c) w => .next (faultEntry c (s.withWork w))
  | .stop .unanswered _ => .fault .scratchpadNeverAnswers

/-- A scratchpad command's body behind its descriptor check: no access is made when the check fails (R150,
R221). -/
def checked (s : State) (body : Work → Run Unit) : Run Unit :=
  match checkDescriptor s with
  | some c => .stop (.fault c) s.work
  | none => body s.work

/-- Does the command word name a command that accesses the scratchpad (R75)? -/
def wordUsesScratchpad (w : Word) : Bool :=
  match decode w with
  | .ok i => i.usesScratchpad
  | .error _ => false

/-- Acceptance of R33: DONE is cleared, BUSY set, LASTOP and CW taken from the word. -/
def latchCommand (w : Word) (s : State) : State :=
  { s with
    done := false
    ph := .exec
    lastop := w.extractLsb' 0 8
    eng := { s.eng with cw := w }
    port := { s.port with trace := [] } }

end Sys2Proof.Machine
end

