-- ==== Sys2Proof/Machine/HostMemory.lean ====
section
/-! DEFINITION. What the host and other masters do to the scratchpad space while the engine does not own it
(20_memory.md rules R65, R75, R76 and R80). -/

namespace Sys2Proof.Machine

/-- Does the engine own its region now: a scratchpad command is executing (R75)? -/
def State.owning (s : State) : Bool := s.busy && wordUsesScratchpad s.eng.cw

/-- Does `addr .. addr + n - 1` meet the region? -/
def meetsRegion (base addr n : Nat) : Bool := decide (addr < base + Config.spSize ∧ base < addr + n)

/-- Is a host access to these bytes one the model gives no move, and why? -/
def hostAccessRefused (s : State) (addr n : Nat) : Option Refusal :=
  if Config.paSpace < addr + n then some .outsideMemorySpace
  else if s.owning && meetsRegion s.spBase addr n then some .ownedRegion
  else none

/-- A host store: with a coherent port the bytes are in memory for the engine (R76(a)), without they are in the host's
caches until it writes them back (R80). -/
def memStore (addr : Nat) (bytes : List Byte) (s : State) : Host.Outcome State Fault Refusal :=
  match hostAccessRefused s addr bytes.length with
  | some r => .refused r
  | none =>
    if s.port.coherent then .next { s with port := { s.port with mem := s.port.mem.storeBytes addr bytes } }
    else
      .next { s with
        port := { s.port with cache := { s.port.cache with dirty := s.port.cache.dirty.storeBytes addr bytes } } }

/-- Is the byte at `a` one the engine has written and the host not invalidated since? -/
def HostCache.staleAt (c : HostCache) (a : Nat) : Bool := c.stale.any fun r => decide (r.1 ≤ a ∧ a < r.1 + r.2)

/-- The byte a host load sees.  With a coherent port it is memory's (R76(b)); without, it is the host's own where it has
stored one, any value where its caches are stale, and memory's elsewhere (R80).  Log entry 9. -/
def Port.hostByte (p : Port) (a : Nat) : Byte :=
  if p.coherent then p.mem.byte a
  else
    match p.cache.dirty.find a with
    | some b => b
    | none => if p.cache.staleAt a then Config.freeByte p.freeCount a else p.mem.byte a

/-- A host load.  It changes nothing but what the host holds, and counts the free value it may have drawn. -/
def memLoad (addr n : Nat) (s : State) : Host.Outcome State Fault Refusal :=
  match hostAccessRefused s addr n with
  | some r => .refused r
  | none =>
    .next { s with
      readback := .bytes ((List.range n).map fun k => s.port.hostByte (addr + k))
      port := { s.port with freeCount := s.port.freeCount + 1 } }

/-- Does `addr .. addr + n - 1` hold the byte at `a`? -/
def inRange (addr n a : Nat) : Bool := decide (addr ≤ a ∧ a < addr + n)

/-- What of the range `r` (first address, length) lies outside `addr .. addr + n - 1`. -/
def cutRange (addr n : Nat) (r : Nat × Nat) : List (Nat × Nat) :=
  let hi := max r.1 (addr + n)
  [(r.1, min r.2 (addr - r.1)), (hi, r.1 + r.2 - hi)].filter fun q => decide (0 < q.2)

/-- The memory system after the host has written a range back: memory holds the host's bytes (R80). -/
def Port.writeBack (addr n : Nat) (p : Port) : Port :=
  { p with
    mem := p.mem.merge (p.cache.dirty.filter fun c => inRange addr n c.1)
    cache := { p.cache with dirty := p.cache.dirty.filter fun c => !inRange addr n c.1 } }

/-- The memory system after the host has invalidated a range: its caches are stale there no longer, and of a byte it had
not written back it is not known whether it reached memory (R80).  Log entry 9. -/
def Port.invalidate (addr n : Nat) (p : Port) : Port :=
  { p with
    mem := p.mem.forget p.freeCount ((p.cache.dirty.filter fun c => inRange addr n c.1).map (·.1))
    cache :=
      { dirty := p.cache.dirty.filter fun c => !inRange addr n c.1
        stale := p.cache.stale.flatMap (cutRange addr n) }
    freeCount := p.freeCount + 1 }

/-- Cache maintenance: nothing to do where the port is coherent (R80); in an owned region it is a host access like any
other (R75).  DESIGN CHOICE, log entry 22. -/
def maintain (f : Port → Port) (addr n : Nat) (s : State) : Host.Outcome State Fault Refusal :=
  if s.port.coherent then .next s
  else
    match hostAccessRefused s addr n with
    | some r => .refused r
    | none => .next { s with port := f s.port }

/-- The host writes a range back: the work R80 asks of it before the CMD write. -/
def cacheWriteBack (addr n : Nat) (s : State) : Host.Outcome State Fault Refusal :=
  maintain (Port.writeBack addr n) addr n s

/-- The host invalidates a range: the work R80 asks of it after it observes completion. -/
def cacheInvalidate (addr n : Nat) (s : State) : Host.Outcome State Fault Refusal :=
  maintain (Port.invalidate addr n) addr n s

end Sys2Proof.Machine
end

