-- ==== Sys2Proof/Machine/BlockRound.lean ====
section
/-! DEFINITION. ROUND and KEYEXP (40_block_round.md rules R121 and R122). -/

namespace Sys2Proof.Machine

/-- ROUND: `ROUT <- AESRound(RIN, RKEY)` (R121). -/
def execRound (s : State) : Host.Outcome State Fault Refusal :=
  .next (complete { s with rout := aesRound s.rin s.rkey })

/-- KEYEXP K: `RK <- KeyExp10(ST[32·K .. 32·K + 31])` (R122). -/
def execKeyexp (k : BitVec 1) (s : State) : Host.Outcome State Fault Refusal :=
  let ks := keyExp10 (keySlice s.st k)
  .next (complete { s with rk := ks, eng := { s.eng with ks := ks } })

end Sys2Proof.Machine
end

