-- ==== Sys2Proof/Machine/Expander.lean ====
section
/-! DEFINITION. EXPAND (41_expander.md rule R141). -/

namespace Sys2Proof.Machine

/-- Block j of chunk I: ten rounds on TEXT[j], then its write (R141). -/
def expandBlock (base I j : Nat) (w : Work) : Run Unit :=
  let t := pseudo10 (w.textAt j) w.eng.ks
  portWrite (base + blockOffset I j) t (w.setText j t)

/-- Chunk I: its eight blocks in order (R141, R144). -/
def expandChunk (base I : Nat) (w : Work) : Run Unit :=
  loop (expandBlock base I) 8 0 (w.setI I)

/-- KS and TEXT at the start of the expansion (R141). -/
def expandStart (st : Bytes 200) (w : Work) : Work :=
  w.setKeysText (keyExp10 (slice st 0 32)) (textOf st)

/-- The expansion: N_CHUNKS chunks in order (R141), as EXPAND and RUN share it. -/
def expandPhase (st : Bytes 200) (base : Nat) (w : Work) : Run Unit :=
  loop (expandChunk base) Config.nChunks 0 (expandStart st w)

/-- EXPAND's pseudocode up to its commit (R141). -/
def expandRun (s : State) : Run Unit := checked s (expandPhase s.st s.spBase)

/-- EXPAND (R141): fill the scratchpad, and commit RK. -/
def execExpand (s : State) : Host.Outcome State Fault Refusal :=
  finish s (fun e t => { t with rk := e.ks }) (expandRun s)

end Sys2Proof.Machine
end

