-- ==== Sys2Proof/Machine/Mixer.lean ====
section
/-! DEFINITION. CHECK and MIX (42_mixer.md rules R154, R158 and R159). -/

namespace Sys2Proof.Machine

/-- CHECK: the descriptor check and nothing else (R154). -/
def execCheck (s : State) : Host.Outcome State Fault Refusal :=
  match checkDescriptor s with
  | some c => .next (faultEntry c s)
  | none => .next (complete s)

/-- The first half of an iteration, (a) to (d) of R158: read the block A selects, one round under A, write it
back XORed with B. -/
def mixFirst (base : Nat) (w : Work) : Run Unit :=
  let j1 := spIndex w.eng.a
  (portRead (base + j1) w).andThen fun x w =>
    let c1 := aesRound x w.eng.a
    portWrite (base + j1) (bxor c1 w.eng.b) (w.setC1 c1)

/-- The second half, (e) of R158: read the block C1 selects, multiply and add, write the sum, and update A and B. -/
def mixSecond (base : Nat) (w : Work) : Run Unit :=
  let j2 := spIndex w.eng.c1
  (portRead (base + j2) w).andThen fun y w =>
    let S := mulAdd w.eng.a w.eng.c1 y
    (portWrite (base + j2) S w).andThen fun _ w =>
      .ok () (w.setAB (bxor S y) w.eng.c1)

/-- MixStep of R158. -/
def mixStep (base : Nat) (w : Work) : Run Unit :=
  (mixFirst base w).andThen fun _ w => mixSecond base w

/-- Iteration I of MIX's loop. -/
def mixIteration (base I : Nat) (w : Work) : Run Unit :=
  mixStep base (w.setI I)

/-- A and B at the start of the mixing (R159). -/
def mixStart (st : Bytes 200) (w : Work) : Work :=
  w.setAB (startA st) (startB st)

/-- The mixing: MIX_ITER iterations, with no early exit (R159), as MIX and RUN share it. -/
def mixPhase (st : Bytes 200) (base : Nat) (w : Work) : Run Unit :=
  loop (mixIteration base) Config.mixIter 0 (mixStart st w)

/-- MIX's pseudocode up to its commit (R159). -/
def mixRun (s : State) : Run Unit := checked s (mixPhase s.st s.spBase)

/-- MIX (R159): no register result. -/
def execMix (s : State) : Host.Outcome State Fault Refusal := finish s (fun _ t => t) (mixRun s)

end Sys2Proof.Machine
end

