-- ==== Sys2Proof/Machine/Finalizer.lean ====
section
/-! DEFINITION. ABSORB, PERMUTE, SELECT, RUN and NOP (43_finalizer.md rules R184, R188, R192, R196 and R198). -/

namespace Sys2Proof.Machine

/-- Block j of chunk I: read it, XOR it into TEXT[j], then ten rounds (R184). -/
def absorbBlock (base I j : Nat) (w : Work) : Run Unit :=
  (portRead (base + blockOffset I j) w).andThen fun x w =>
    .ok () (w.setText j (pseudo10 (bxor (w.textAt j) x) w.eng.ks))

/-- Chunk I: its eight blocks in order (R184). -/
def absorbChunk (base I : Nat) (w : Work) : Run Unit :=
  loop (absorbBlock base I) 8 0 (w.setI I)

/-- KS and TEXT at the start of the absorption (R180, R184). -/
def absorbStart (st : Bytes 200) (w : Work) : Work :=
  w.setKeysText (keyExp10 (slice st 32 32)) (textOf st)

/-- The absorption: N_CHUNKS chunks in order, then FW (R184), as ABSORB and RUN share it. -/
def absorbPhase (st : Bytes 200) (base : Nat) (w : Work) : Run Unit :=
  (loop (absorbChunk base) Config.nChunks 0 (absorbStart st w)).andThen fun _ w =>
    .ok () (w.setFW (absorbedState st w.eng.text))

/-- ABSORB's pseudocode up to its commit (R184). -/
def absorbRun (s : State) : Run Unit := checked s (absorbPhase s.st s.spBase)

/-- ABSORB (R184): commits FST and RK. -/
def execAbsorb (s : State) : Host.Outcome State Fault Refusal :=
  finish s (fun e t => { t with fst := e.fw, rk := e.ks }) (absorbRun s)

/-- `FW := KeccakF(f)`, one call of the permutation port (R186, R188). -/
def permuteWork (u : PermUnit) (f : Bytes 200) (w : Work) : Work :=
  (w.setFW (permPort u f)).note .permute

/-- `DW := H(sel)(f)` with sel = f[0] AND 3, one call of the selected hash port (R186, R192). -/
def selectWork (f : Bytes 200) (w : Work) : Work :=
  (w.setDW (Config.hashPort (hashOf (selector f)) f)).note (.hash (hashOf (selector f)))

/-- PERMUTE (R188): `FST <- KeccakF(FST)`. -/
def execPermute (s : State) : Host.Outcome State Fault Refusal :=
  let w := permuteWork s.permUnit s.fst s.work
  .next (complete { s.withWork w with fst := w.eng.fw })

/-- SELECT (R192): `DIGEST <- H(sel)(FST)`, with SEL and SELV. -/
def execSelect (s : State) : Host.Outcome State Fault Refusal :=
  let w := selectWork s.fst s.work
  .next (complete { s.withWork w with digest := w.eng.dw, sel := selector s.fst, selv := true })

/-- RUN's pseudocode after the check: expansion, mixing, absorption, permutation, selection (R196). -/
def runPhase (u : PermUnit) (st : Bytes 200) (base : Nat) (w : Work) : Run Unit :=
  (expandPhase st base w).andThen fun _ w =>
  (mixPhase st base w).andThen fun _ w =>
  (absorbPhase st base w).andThen fun _ w =>
    let w := permuteWork u w.eng.fw w
    .ok () (selectWork w.eng.fw w)

/-- RUN's pseudocode up to its commit (R196). -/
def runRun (s : State) : Run Unit := checked s (runPhase s.permUnit s.st s.spBase)

/-- RUN (R196): commits RK, FST, DIGEST, SEL and SELV together. -/
def execRun (s : State) : Host.Outcome State Fault Refusal :=
  finish s
    (fun e t => { t with rk := e.ks, fst := e.fw, digest := e.dw, sel := selector e.fw, selv := true })
    (runRun s)

/-- NOP (R198): nothing but STATUS. -/
def execNop (s : State) : Host.Outcome State Fault Refusal := .next (complete s)

end Sys2Proof.Machine
end

