-- ==== Sys2Proof/Machine/Dispatch.lean ====
section
/-! DEFINITION. One arm per command (30_encoding.md rule R96). -/

namespace Sys2Proof.Machine

def exec (i : Instr) (s : State) : Host.Outcome State Fault Refusal :=
  match i with
  | .nop => Sys2Proof.Machine.execNop s
  | .check => Sys2Proof.Machine.execCheck s
  | .round => Sys2Proof.Machine.execRound s
  | .keyexp k => Sys2Proof.Machine.execKeyexp k s
  | .expand => Sys2Proof.Machine.execExpand s
  | .mix => Sys2Proof.Machine.execMix s
  | .absorb => Sys2Proof.Machine.execAbsorb s
  | .permute => Sys2Proof.Machine.execPermute s
  | .select => Sys2Proof.Machine.execSelect s
  | .run => Sys2Proof.Machine.execRun s

end Sys2Proof.Machine
end

