-- ==== Sys2Proof/Machine/Reset.lean ====
section
/-! DEFINITION. Hardware reset (70_reset_and_hazards.md rule R240), which may arrive while a command executes. -/

namespace Sys2Proof.Machine

/-- The run of a command's pseudocode, as far as it concerns the ports: what a hardware reset can cut short. -/
def commandRun (i : Instr) (s : State) : Run Unit :=
  match i with
  | .nop => .ok () s.work
  | .check => .ok () s.work
  | .round => .ok () s.work
  | .keyexp _ => .ok () s.work
  | .expand => expandRun s
  | .mix => mixRun s
  | .absorb => absorbRun s
  | .permute => .ok () (permuteWork s.permUnit s.fst s.work)
  | .select => .ok () (selectWork s.fst s.work)
  | .run => runRun s

/-- The port events the executing command would perform, oldest first. -/
def pendingEvents (s : State) : List PortEvent :=
  match decode s.eng.cw with
  | .error _ => []
  | .ok i => (commandRun i { s with port := { s.port with trace := [] } }).work.port.trace.reverse

/-- The port after one event it has performed: a write has stored its block, and each is recorded.  A read and a write
advance the counter of free values as they do in the run (`portRead_did`, `portWrite_did`), so what a performed write
leaves of a byte the host held back is the value the run drew for that write, and none that it has read.  R240 does not
say how the bytes left open are related.  DESIGN CHOICE, log entry 8. -/
def Port.did (e : PortEvent) (p : Port) : Port :=
  match e with
  | .write a v => (p.put a v).note e
  | .read _ => p.drawn.note e
  | .permute | .hash _ => p.note e

/-- The port after events it has performed, oldest first. -/
def Port.replay (p : Port) : List PortEvent → Port
  | [] => p
  | e :: es => (p.did e).replay es

/-- The number of the next free value once the executing command has drawn all of its own. -/
def drawnByCommand (s : State) : Nat :=
  match decode s.eng.cw with
  | .error _ => s.port.freeCount
  | .ok i => (commandRun i s).work.port.freeCount

/-- The port after the executing command has performed `done` events and, if `midAccess`, is in the midst of the
next.  Writes performed remain; the 16 bytes of a write in progress are any value (R240).  DEDUCED, log entry 13. -/
def abandonedPort (done : Nat) (midAccess : Bool) (s : State) : Port :=
  let es := pendingEvents s
  let n := drawnByCommand s
  let p := { s.port with trace := [] }.replay (es.take done)
  match midAccess, es[done]? with
  | true, some (.write a _) => { p.did (.write a (freeBlock n a)) with freeCount := n + 1 }
  | _, _ => { p with freeCount := n + 1 }

/-- The port a hardware reset leaves: memory is not touched, but for what an abandoned command had done (R240). -/
def portAtReset (done : Nat) (midAccess : Bool) (s : State) : Port :=
  match s.ph with
  | .idle => s.port
  | .exec => abandonedPort done midAccess s

/-- Hardware reset (R240): the executing command is abandoned with nothing committed, HW_CAP is sampled, every
register takes its "after hardware reset" value of R52, and PH is IDLE.  The platform's own state, the memory and
the moves to come are not the CNE's to reset. -/
def hardReset (done : Nat) (midAccess : Bool) (s : State) : State :=
  { State.reset with
    regBase := s.regBase
    accelBuild := s.accelBuild
    hwCapPin := s.hwCapPin
    permUnit := s.permUnit
    hwCap := s.hwCapPin
    port := portAtReset done midAccess s
    moves := s.moves
    readback := s.readback }

end Sys2Proof.Machine
end

