-- ==== Sys2Proof/Machine/Window.lean ====
section
/-! DEFINITION. The register window (10_state.md rules R20 to R49, 20_memory.md rules R61 to R63): which register
an offset names, what a read returns, what a write does. -/

namespace Sys2Proof.Machine

/-- The registers of R20.  A byte-array register is named with the number of its 32-bit word. -/
inductive Reg where
  | id
  | cap
  | ctrl
  | status
  | fault
  | cmd
  | spBaseLo
  | spBaseHi
  | spLen
  | spsz
  | iter
  | align
  | st (w : Nat)
  | digest (w : Nat)
  | rin (w : Nat)
  | rkey (w : Nat)
  | rout (w : Nat)
  | rk (w : Nat)
  | fst (w : Nat)
  | reserved
  deriving DecidableEq, Repr

/-- One row of the map of R20 for a byte array: its first offset, its number of words, and its name. -/
structure ArrayRow where
  first : Nat
  words : Nat
  reg   : Nat → Reg

/-- The byte-array rows of R20. -/
def arrayRows : List ArrayRow :=
  [⟨0x100, 50, .st⟩, ⟨0x200, 8, .digest⟩, ⟨0x240, 4, .rin⟩, ⟨0x250, 4, .rkey⟩, ⟨0x260, 4, .rout⟩,
   ⟨0x280, 40, .rk⟩, ⟨0x400, 50, .fst⟩]

/-- The byte-array register at an offset, if one is there. -/
def arrayAt (off : Nat) : List ArrayRow → Option Reg
  | [] => none
  | r :: rs =>
    if r.first ≤ off ∧ off < r.first + 4 * r.words then some (r.reg ((off - r.first) / 4)) else arrayAt off rs

/-- The register at an offset of the window (R20). -/
def regAt (off : Nat) : Reg :=
  match off with
  | 0x000 => .id
  | 0x004 => .cap
  | 0x008 => .ctrl
  | 0x00C => .status
  | 0x010 => .fault
  | 0x014 => .cmd
  | 0x018 => .spBaseLo
  | 0x01C => .spBaseHi
  | 0x020 => .spLen
  | 0x024 => .spsz
  | 0x028 => .iter
  | 0x02C => .align
  | _ => (arrayAt off arrayRows).getD .reserved

/-- What a read of a register returns.  CTRL, CMD and reserved offsets read 0 (R21(c), R21(d), R24). -/
def readReg (s : State) : Reg → Word
  | .id => Config.idWord
  | .cap => capWord s
  | .ctrl => 0
  | .status => statusWord s
  | .fault => faultWord s
  | .cmd => 0
  | .spBaseLo => s.spBaseLo
  | .spBaseHi => s.spBaseHi
  | .spLen => s.spLen
  | .spsz => BitVec.ofNat 32 Config.spSize
  | .iter => BitVec.ofNat 32 Config.mixIter
  | .align => alignWord s
  | .st w => wordAt s.st w
  | .digest w => wordAt s.digest w
  | .rin w => wordAt s.rin w
  | .rkey w => wordAt s.rkey w
  | .rout w => wordAt s.rout w
  | .rk w => wordAt (keyBytes s.rk) w
  | .fst w => wordAt s.fst w
  | .reserved => 0

/-- A dropped write: no effect but OVR (R29, R48). -/
def dropWrite (s : State) : State := { s with ovr := true }

/-- Soft reset (70_reset_and_hazards.md rule R242): the "after soft reset" column of R52.  CAP, the constants and
memory are unchanged. -/
def softReset (s : State) : State :=
  { s with
    ph := .idle
    done := false
    faulted := false
    ovr := false
    sel := 0
    selv := false
    lastop := 0
    code := .noFault
    fop := 0
    spBaseLo := 0
    spBaseHi := 0
    spLen := 0
    st := Vector.replicate 200 0
    digest := Vector.replicate 32 0
    rin := Vector.replicate 16 0
    rkey := Vector.replicate 16 0
    rout := Vector.replicate 16 0
    rk := Vector.replicate 10 (Vector.replicate 16 0)
    fst := Vector.replicate 200 0 }

/-- A write to CTRL while idle: bit 0 = 1 performs a soft reset, bit 0 = 0 nothing (R24). -/
def writeCtrl (val : Word) (s : State) : State := if val.getLsbD 0 then softReset s else s

/-- A write to CMD: dropped while a command executes or a fault is latched, else accepted (R33). -/
def writeCmd (val : Word) (s : State) : State :=
  if s.busy || s.faulted then dropWrite s else latchCommand val s

/-- A write to an RW register: dropped while a command executes (R48). -/
def writeRW (f : State → State) (s : State) : State := if s.busy then dropWrite s else f s

/-- What a write of a register does.  A write to an RO register or a reserved offset is ignored and never sets OVR
(R21(c) to R21(e)). -/
def writeReg (r : Reg) (val : Word) (s : State) : State :=
  match r with
  | .ctrl => writeRW (writeCtrl val) s
  | .cmd => writeCmd val s
  | .spBaseLo => writeRW (fun t => { t with spBaseLo := val }) s
  | .spBaseHi => writeRW (fun t => { t with spBaseHi := val }) s
  | .spLen => writeRW (fun t => { t with spLen := val }) s
  | .st w => writeRW (fun t => { t with st := setWordAt t.st w val }) s
  | .rin w => writeRW (fun t => { t with rin := setWordAt t.rin w val }) s
  | .rkey w => writeRW (fun t => { t with rkey := setWordAt t.rkey w val }) s
  | .fst w => writeRW (fun t => { t with fst := setWordAt t.fst w val }) s
  | .id | .cap | .status | .fault | .spsz | .iter | .align | .digest _ | .rout _ | .rk _ | .reserved => s

/-- Where a bus access of `width` bits at `addr` goes. -/
inductive Target where
  /-- Not one byte of it is in this CNE's window: the CNE does not see it (R60).  DESIGN CHOICE, log
  entry 15. -/
  | elsewhere
  /-- A defined access (R62) at this offset. -/
  | offset (off : Nat)
  /-- An access to the window that R62 leaves unspecified. -/
  | undefined
  deriving DecidableEq, Repr

/-- Only 32-bit accesses at offsets that are multiples of 4 are defined (R21(a), R62). -/
def targetOf (base addr width : Nat) : Target :=
  if addr + (width + 7) / 8 ≤ base ∨ base + Config.regWindow ≤ addr then .elsewhere
  else if width = 32 ∧ base ≤ addr ∧ (addr - base) % 4 = 0 then .offset (addr - base)
  else .undefined

/-- A host read.  It changes nothing but what the host holds (R63). -/
def busRead (addr width : Nat) (s : State) : Host.Outcome State Fault Refusal :=
  match targetOf s.regBase addr width with
  | .elsewhere => .next s
  | .offset off => .next { s with readback := .word (readReg s (regAt off)) }
  | .undefined => .refused .undefinedAccess

/-- A host write. -/
def busWrite (addr width : Nat) (val : Word) (s : State) : Host.Outcome State Fault Refusal :=
  match targetOf s.regBase addr width with
  | .elsewhere => .next s
  | .offset off => .next (writeReg (regAt off) val s)
  | .undefined => .refused .undefinedAccess

end Sys2Proof.Machine
end

