-- ==== Sys2Proof/Machine/Sequencer.lean ====
section
/-! DEFINITION. Who moves: the engine's turn, in which the latched command word is decoded and its command runs to
its end (10_state.md rules R33 and R47), and one move of the host or the platform. -/

namespace Sys2Proof.Machine

/-- Decode the latched word and execute: an illegal word raises BAD_CMD before anything else (R95, R213). -/
def runCommand (s : State) : Host.Outcome State Fault Refusal :=
  match decode s.eng.cw with
  | .ok i => exec i s
  | .error _ => .next (faultEntry .badCmd s)

/-- The engine's turn: nothing happens while it is idle (R232). -/
def engineTurn (s : State) : Host.Outcome State Fault Refusal :=
  match s.ph with
  | .idle => .next s
  | .exec => runCommand s

/-- One move. -/
def perform (m : Move) (s : State) : Host.Outcome State Fault Refusal :=
  match m with
  | .engine => engineTurn s
  | .busRead addr width => busRead addr width s
  | .busWrite addr width val => busWrite addr width val s
  | .memStore addr bytes => memStore addr bytes s
  | .memLoad addr n => memLoad addr n s
  | .cacheWriteBack addr n => cacheWriteBack addr n s
  | .cacheInvalidate addr n => cacheInvalidate addr n s
  | .hwCapInput level => .next { s with hwCapPin := level }
  | .hardReset done midAccess => .next (hardReset done midAccess s)

/-- The next step: the first move of the schedule, or the engine's turn when the schedule is empty. -/
def nextMove (s : State) : Host.Outcome State Fault Refusal :=
  match s.moves with
  | [] => engineTurn s
  | m :: ms => perform m { s with moves := ms }

/-- The command word `w` latched for the very next engine turn, no fault latched. -/
def latchNext (w : Word) (s : State) : State :=
  { latchCommand w s with
    faulted := false
    code := .noFault
    fop := 0
    moves := .engine :: s.moves }

end Sys2Proof.Machine
end

