-- ==== Sys2Proof/Machine/Step.lean ====
section
/-! DEFINITION. One step, and how a word comes to be the next command. -/

namespace Sys2Proof.Machine

/-- One step: one move of the host, the platform or the engine. -/
def step (s : State) : Host.Outcome State Fault Refusal := nextMove s

/-- The CNE fetches no instructions (R45): a command word comes through CMD.  This is the state in which the word
has just been accepted and the next step is the engine's turn.  DESIGN CHOICE, log entry 11. -/
def State.withFetchWord (s : State) (nbits w : Nat) : State := latchNext (BitVec.ofNat 32 (w % 2 ^ nbits)) s

end Sys2Proof.Machine
end

