-- ==== Sys2Proof/Machine/HostProgram.lean ====
section
/-! DEFINITION. Host programs as schedules of moves: the notation of 30_encoding.md rule R101 and the
pseudo-instructions of R102, and the host's derivation of the Initial State (43_finalizer.md rule R199). -/

namespace Sys2Proof.Machine

/-- `wr32 OFF, VAL` (R101). -/
def wr32 (base off : Nat) (val : Word) : Move := .busWrite (base + off) 32 val

/-- `rd32 OFF` (R101). -/
def rd32 (base off : Nat) : Move := .busRead (base + off) 32

/-- `wrbytes REG, HEX` (R101): consecutive words, little-endian, from the register's first offset. -/
def wrbytes (base off : Nat) {n : Nat} (v : Bytes n) : List Move :=
  (List.range (n / 4)).map fun w => wr32 base (off + 4 * w) (wordAt v w)

/-- `cmd SYNTAX` (R101). -/
def cmd (base : Nat) (i : Instr) : Move := wr32 base 0x014 (encode i)

/-- `wait` (R101): STATUS is read until BUSY is 0.  The engine's turn comes first, so one read suffices. -/
def wait (base : Nat) : List Move := [.engine, rd32 base 0x00C]

/-- The host's padding of R199: 0x01, zero bytes up to a multiple of 136, and 0x80 into the last byte. -/
def spongePad (input : List Byte) : List Byte :=
  let z := 135 - input.length % 136
  if z = 0 then input ++ [0x81] else input ++ [0x01] ++ List.replicate (z - 1) 0 ++ [0x80]

/-- One 136-byte block of the host's sponge: it is XORed into state bytes 0..135, and KeccakF follows (R199). -/
def spongeAbsorb (S : Bytes 200) (blk : List Byte) : Bytes 200 :=
  keccakF1600 (Vector.ofFn fun i => if i.val < 136 then S[i.val] ^^^ blk.getD i.val 0 else S[i.val])

/-- The blocks of a padded input, in order, as many as `n` says. -/
def spongeBlocks : (n : Nat) → List Byte → Bytes 200 → Bytes 200
  | 0, _, S => S
  | n + 1, bs, S => spongeBlocks n (bs.drop 136) (spongeAbsorb S (bs.take 136))

/-- The Initial State the host derives from an input (R199).  Informative: the CNE takes any 200 bytes in ST.
Log entry 23. -/
def hostState (input : List Byte) : Bytes 200 :=
  spongeBlocks ((spongePad input).length / 136) (spongePad input) (Vector.replicate 200 0)

/-- The pseudo-instructions of R102. -/
inductive Pseudo where
  | hash
  | keyexpFill
  | keyexpFinal
  | srst
  | stepwise
  | setsp (base : BitVec 64)
  deriving DecidableEq, Repr

/-- The expansions of R102, on a CNE whose window is at `base`. -/
def Pseudo.expand (base : Nat) : Pseudo → List Move
  | .hash => [cmd base .run]
  | .keyexpFill => [cmd base (.keyexp 0)]
  | .keyexpFinal => [cmd base (.keyexp 1)]
  | .srst => [wr32 base 0x008 1]
  | .stepwise =>
    ([Instr.check, .expand, .mix, .absorb, .permute, .select].map fun i => cmd base i :: wait base).flatten
  | .setsp a =>
    [wr32 base 0x018 (a.extractLsb' 0 32), wr32 base 0x01C (a.extractLsb' 32 32), wr32 base 0x020 0x00200000]

end Sys2Proof.Machine
end

