-- ==== Sys2Proof/Machine/Algorithm.lean ====
section
/-! DEFINITION. The functions the rules name beside the commands, on a scratchpad seen as its 131,072 blocks: the
closed form of the expansion (41_expander.md rule R142), the mixing step (42_mixer.md rule R158), the absorption
(43_finalizer.md rule R181) and their composition in RUN (R196).  No command calls them; claims compare the
commands with them. -/

namespace Sys2Proof.Machine

/-- Block n of the scratchpad at `base`: the block at offset 16n (R64, R155). -/
def spBlock (m : Memory) (base n : Nat) : Block := m.readBlock (base + 16 * n)

/-- `Pseudo10^n(x, KS)` of R142. -/
def pseudo10Pow : Nat → Block → KeySchedule → Block
  | 0, x, _ => x
  | n + 1, x, ks => pseudo10 (pseudo10Pow n x ks) ks

/-- Block n of the scratchpad after EXPAND: block j = n mod 8 of chunk I = n div 8 (R142). -/
def expandedBlock (st : Bytes 200) (n : Nat) : Block :=
  pseudo10Pow (n / 8 + 1) ((textOf st)[n % 8]) (keyExp10 (slice st 0 32))

/-- The mixer's working registers with the scratchpad's blocks. -/
structure MixView where
  a  : Block
  b  : Block
  sp : Nat → Block

/-- The blocks with block n replaced. -/
def putBlock (sp : Nat → Block) (n : Nat) (v : Block) : Nat → Block := fun m => if m = n then v else sp m

/-- C1 of R158: one round of the block A selects, A as the key. -/
def MixView.c1 (v : MixView) : Block := aesRound (v.sp (spIndex v.a / 16)) v.a

/-- The blocks after the first write of R158: C1 ⊕ B where A points. -/
def MixView.mid (v : MixView) : Nat → Block := putBlock v.sp (spIndex v.a / 16) (bxor v.c1 v.b)

/-- Y of R158: the block C1 selects, after the first write. -/
def MixView.y (v : MixView) : Block := v.mid (spIndex v.c1 / 16)

/-- S of R158. -/
def MixView.sum (v : MixView) : Block := mulAdd v.a v.c1 v.y

/-- MixStep of R158 on blocks. -/
def MixView.step (v : MixView) : MixView :=
  { a := bxor v.sum v.y, b := v.c1, sp := putBlock v.mid (spIndex v.c1 / 16) v.sum }

/-- The four accesses of an iteration, in R70's order. -/
def MixView.accesses (base : Nat) (v : MixView) : List PortEvent :=
  [.read (base + spIndex v.a), .write (base + spIndex v.a) (bxor v.c1 v.b),
   .read (base + spIndex v.c1), .write (base + spIndex v.c1) v.sum]

/-- n iterations of the mixer. -/
def MixView.steps : Nat → MixView → MixView
  | 0, v => v
  | n + 1, v => (MixView.steps n v).step

/-- The mixer at the start of MIX: `A = ST[0..15] ⊕ ST[32..47]` and `B = ST[16..31] ⊕ ST[48..63]` (R159). -/
def mixViewStart (st : Bytes 200) (sp : Nat → Block) : MixView :=
  { a := Vector.ofFn fun k => st[k.val] ^^^ st[32 + k.val]
    b := Vector.ofFn fun k => st[16 + k.val] ^^^ st[48 + k.val]
    sp := sp }

/-- The scratchpad's blocks after n iterations of the mixer from A = `a` and B = `b`. -/
def mixedBlocks (n : Nat) (a b : Block) (sp : Nat → Block) : Nat → Block :=
  (MixView.steps n { a := a, b := b, sp := sp }).sp

/-- The scratchpad's blocks after MIX (R159). -/
@[irreducible] def mixedBlock (st : Bytes 200) (sp : Nat → Block) : Nat → Block :=
  mixedBlocks Config.mixIter (mixViewStart st sp).a (mixViewStart st sp).b sp

/-- Text block j, from `x`, after the first `I` chunks have been absorbed (R181). -/
def absorbLane (ks : KeySchedule) (sp : Nat → Block) (j : Nat) (x : Block) : Nat → Block
  | 0 => x
  | I + 1 => pseudo10 (bxor (absorbLane ks sp j x I) (sp (8 * I + j))) ks

/-- The eight text blocks after the absorption (R181). -/
@[irreducible] def absorbedText (st : Bytes 200) (sp : Nat → Block) : Text :=
  Vector.ofFn fun j => absorbLane (keyExp10 (slice st 32 32)) sp j.val (textOf st)[j] Config.nChunks

/-- `Absorb(ST, SPC)` of R181. -/
def absorbed (st : Bytes 200) (sp : Nat → Block) : Bytes 200 := absorbedState st (absorbedText st sp)

/-- The final state RUN commits: a function of ST alone (R85, R196). -/
def finalState (u : PermUnit) (st : Bytes 200) : Bytes 200 :=
  permPort u (absorbed st (mixedBlock st (expandedBlock st)))

/-- The affine map of the S-box (R112). -/
def sboxAffine (b : Byte) : Byte :=
  b ^^^ b.rotateLeft 1 ^^^ b.rotateLeft 2 ^^^ b.rotateLeft 3 ^^^ b.rotateLeft 4 ^^^ 0x63

end Sys2Proof.Machine
end

