-- ==== Sys2Proof/Safety.lean ====
section
/-! DEFINITION. The terms claims are made in: what a legal state is, which scratchpad accesses a state's memory
system serves, and what the host sees of a state. -/

namespace Sys2Proof.Machine

/-- What every state of a CNE keeps (10_state.md rules R25, R30, R31, R32, R45 and 20_memory.md rule R73). -/
structure State.Legal (s : State) : Prop where
  /-- The memory keeps its canonical form. -/
  memWf : s.port.mem.wf
  /-- No byte outside the 64-bit scratchpad space is ever written (R60, R73). -/
  memInSpace : ∀ c ∈ s.port.mem, c.1 < 2 ^ 64
  /-- What the host holds in its caches keeps the form too, and stays in the space. -/
  dirtyWf : s.port.cache.dirty.wf
  dirtyInSpace : ∀ c ∈ s.port.cache.dirty, c.1 < 2 ^ 64
  /-- A coherent port leaves the host's caches nothing to hold back (R80). -/
  coherentClean : s.port.coherent = true → s.port.cache = { dirty := [], stale := [] }
  /-- "At most one of BUSY, DONE and FAULT is 1 at any time" (R25). -/
  busyNotDone : s.ph = .exec → s.done = false
  busyNotFaulted : s.ph = .exec → s.faulted = false
  doneNotFaulted : s.done = true → s.faulted = false
  /-- "FAULT.CODE ≠ 0 exactly when STATUS.FAULT = 1" (R32). -/
  codeIffFault : s.code ≠ .noFault ↔ s.faulted = true
  /-- FOP is the faulting command's opcode byte, which LASTOP keeps (R220), and 0 when no fault is latched. -/
  fopOfFault : s.faulted = true → s.fop = s.lastop
  fopClear : s.faulted = false → s.fop = 0
  /-- SEL is 0 until a selector is held (R30). -/
  selClear : s.selv = false → s.sel = 0
  /-- LASTOP is the executing command's opcode byte (R31). -/
  lastopOfExec : s.ph = .exec → s.lastop = s.eng.cw.extractLsb' 0 8

/-- The descriptor passes CheckDescriptor (42_mixer.md rules R150 to R153). -/
def State.DescriptorOk (s : State) : Prop :=
  s.spLen = 0x00200000#32 ∧ (s.accel = true → s.spBase % 16 = 0) ∧ s.spBase + 2097152 ≤ 2 ^ 64

/-- The memory system serves the access to every block of the region (20_memory.md rule R66). -/
def State.RegionServed (s : State) : Prop :=
  ∀ n, n < Config.nBlocks → replyAt s.port.map (s.spBase + 16 * n) = .served

/-- The memory system answers the access to every block of the region, served or not (70_reset_and_hazards.md
rule R252). -/
def State.RegionAnswered (s : State) : Prop :=
  ∀ n, n < Config.nBlocks → replyAt s.port.map (s.spBase + 16 * n) ≠ .noAnswer

/-- The host has handed the region over (20_memory.md rules R76(a) and R80): the port is coherent, or no byte of the
region waits in the host's caches to be written back. -/
def State.HandedOver (s : State) : Prop :=
  ∀ x, s.spBase ≤ x → x < s.spBase + Config.spSize → s.port.unsure x = false

/-- The two steps by which the host issues a command to an idle CNE come to this: the word is accepted and the
command runs (10_state.md rule R33). -/
def issue (i : Instr) (s : State) : Host.Outcome State Fault Refusal := exec i (latchCommand (encode i) s)

/-- The registers of the window other than STATUS and FAULT (10_state.md rule R20), as the host reads them. -/
structure DataRegs where
  spBaseLo : Word
  spBaseHi : Word
  spLen    : Word
  st       : Bytes 200
  digest   : Bytes 32
  rin      : Block
  rkey     : Block
  rout     : Block
  rk       : KeySchedule
  fst      : Bytes 200
  deriving DecidableEq, Repr

/-- The data registers of a state. -/
def State.dataRegs (s : State) : DataRegs where
  spBaseLo := s.spBaseLo
  spBaseHi := s.spBaseHi
  spLen    := s.spLen
  st       := s.st
  digest   := s.digest
  rin      := s.rin
  rkey     := s.rkey
  rout     := s.rout
  rk       := s.rk
  fst      := s.fst

/-- Every data register at 0: both reset columns of 10_state.md rule R52. -/
def DataRegs.allZero : DataRegs where
  spBaseLo := 0
  spBaseHi := 0
  spLen    := 0
  st       := Vector.replicate 200 0
  digest   := Vector.replicate 32 0
  rin      := Vector.replicate 16 0
  rkey     := Vector.replicate 16 0
  rout     := Vector.replicate 16 0
  rk       := Vector.replicate 10 (Vector.replicate 16 0)
  fst      := Vector.replicate 200 0

/-- What no command changes: the platform, the CAP latch, OVR, LASTOP, the schedule, and what the host holds. -/
structure Surroundings where
  regBase    : Nat
  accelBuild : Bool
  hwCapPin   : Bool
  permUnit   : PermUnit
  coherent   : Bool
  hwCap      : Bool
  ovr        : Bool
  lastop     : BitVec 8
  map        : List PortRange
  moves      : List Move
  readback   : HostData
  deriving DecidableEq, Repr

/-- The surroundings of a state. -/
def State.surroundings (s : State) : Surroundings where
  regBase    := s.regBase
  accelBuild := s.accelBuild
  hwCapPin   := s.hwCapPin
  permUnit   := s.permUnit
  coherent   := s.port.coherent
  hwCap      := s.hwCap
  ovr        := s.ovr
  lastop     := s.lastop
  map        := s.port.map
  moves      := s.moves
  readback   := s.readback

/-- STATUS and FAULT without BUSY, DONE and the fault latch: what only SELECT and RUN change (R30). -/
def State.selection (s : State) : BitVec 2 × Bool := (s.sel, s.selv)

/-- The fault latch: STATUS.FAULT, FAULT.CODE and FAULT.FOP (R28, R32). -/
def State.latch (s : State) : Bool × FaultCode × BitVec 8 := (s.faulted, s.code, s.fop)

/-- The command has ended without fault (R27, R33). -/
def State.Completed (s : State) : Prop := s.ph = .idle ∧ s.done = true

/-- A scratchpad access, as against a call of an external unit (R47). -/
def PortEvent.isAccess : PortEvent → Bool
  | .read _ | .write _ _ => true
  | .permute | .hash _ => false

/-- The address of a scratchpad access. -/
def PortEvent.address? : PortEvent → Option Nat
  | .read a => some a
  | .write a _ => some a
  | .permute => none
  | .hash _ => none

end Sys2Proof.Machine
end

