-- ==== Sys2Proof/Certificates/Slice0/Obligations.lean ====
section
/-! DEFINITION. The statements for the provers.  Each docstring names the rule of spec/ it comes from.  A statement
about a free value (Config's opaque constants) holds for every value of it. -/

open Sys2Proof Sys2Proof.Machine

/-! ### Encoding and decoding -/

/-- Each of the eleven words, written out from the fields of R91 and the opcode map of R96, decodes to its command. -/
def Obligations.ElevenWordsDecode : Prop :=
  decode 0b00000000000000000000000000000000#32 = .ok .nop ∧
  decode 0b00000000000000000000000000000001#32 = .ok .check ∧
  decode 0b00000000000000000000000000000010#32 = .ok .round ∧
  decode 0b00000000000000000000000000000011#32 = .ok (.keyexp 0) ∧
  decode 0b00000000000000000000000100000011#32 = .ok (.keyexp 1) ∧
  decode 0b00000000000000000000000000000100#32 = .ok .expand ∧
  decode 0b00000000000000000000000000000101#32 = .ok .mix ∧
  decode 0b00000000000000000000000000000110#32 = .ok .absorb ∧
  decode 0b00000000000000000000000000000111#32 = .ok .permute ∧
  decode 0b00000000000000000000000000001000#32 = .ok .select ∧
  decode 0b00000000000000000000000000001001#32 = .ok .run

/-- R96: ten commands in eleven legal words, and no other word is one. -/
def Obligations.LegalWordsAreExactlyEleven : Prop :=
  ∀ (w : Word) (i : Instr), decode w = .ok i ↔
    (w, i) ∈ ([(0x00000000#32, .nop), (0x00000001#32, .check), (0x00000002#32, .round),
      (0x00000003#32, .keyexp 0), (0x00000103#32, .keyexp 1), (0x00000004#32, .expand), (0x00000005#32, .mix),
      (0x00000006#32, .absorb), (0x00000007#32, .permute), (0x00000008#32, .select),
      (0x00000009#32, .run)] : List (Word × Instr))

/-- R91, R95: the decoder and the encoder are inverse to each other on all 2^32 words and all commands. -/
def Obligations.DecodeAgreesWithEncode : Prop :=
  ∀ (w : Word) (i : Instr), decode w = .ok i ↔ encode i = w

/-- R213: every word R97 makes illegal raises BAD_CMD in the engine's turn, whatever the registers and the memory
hold, and nothing but the fault entry happens. -/
def Obligations.IllegalWordRaisesBadCmd : Prop :=
  ∀ (s : State) (ms : List Move), s.moves = [] ∨ s.moves = .engine :: ms → s.ph = .exec →
    (9 < (s.eng.cw.extractLsb' 0 8).toNat ∨ s.eng.cw.extractLsb' 9 23 ≠ 0 ∨
      (s.eng.cw.extractLsb' 8 1 = 1 ∧ s.eng.cw.extractLsb' 0 8 ≠ 3)) →
    step s = .next { s with
      moves := s.moves.tail, code := .badCmd, fop := s.eng.cw.extractLsb' 0 8, ph := .idle, done := false, faulted := true }

/-- R100: the assembler accepts exactly the well-formed lines, and each of R100's lines gives its word. -/
def Obligations.AssemblerAcceptsWellFormedLines : Prop :=
  (∀ l : AsmLine, (l.assemble).isSome = l.wellFormed) ∧
  (∀ p ∈ ([(⟨"cne.nop", none⟩, 0x00000000#32), (⟨"cne.check", none⟩, 0x00000001#32),
      (⟨"cne.round", none⟩, 0x00000002#32), (⟨"cne.keyexp", some 0⟩, 0x00000003#32),
      (⟨"cne.keyexp", some 1⟩, 0x00000103#32), (⟨"cne.expand", none⟩, 0x00000004#32),
      (⟨"cne.mix", none⟩, 0x00000005#32), (⟨"cne.absorb", none⟩, 0x00000006#32),
      (⟨"cne.permute", none⟩, 0x00000007#32), (⟨"cne.select", none⟩, 0x00000008#32),
      (⟨"cne.run", none⟩, 0x00000009#32)] : List (AsmLine × Word)), p.1.assemble = some p.2)

/-! ### The step, acceptance and dropped writes -/

/-- R33, R95: in the engine's turn the command the latched word decodes to runs, whether the turn comes from the
schedule or from an empty one, and `withFetchWord` makes the given word that command. -/
def Obligations.StepRunsTheDecodedCommand : Prop :=
  ∀ (s : State) (i : Instr),
    (s.moves = [] → s.ph = .exec → decode s.eng.cw = .ok i → step s = exec i s) ∧
    (∀ ms, s.moves = .engine :: ms → s.ph = .exec → decode s.eng.cw = .ok i →
      step s = exec i { s with moves := ms }) ∧
    (∀ w : Word, decode w = .ok i → ∃ t, step (s.withFetchWord 32 w.toNat) = exec i t ∧ t.eng.cw = w ∧
      t.ph = .exec ∧ t.faulted = false ∧ t.moves = s.moves ∧ t.dataRegs = s.dataRegs ∧ t.port.mem = s.port.mem)

/-- R33: a CMD write is dropped while a command executes or a fault is latched; otherwise it is accepted, and then
only BUSY, DONE, LASTOP, the latched word and the port record change, coherent port or not: acceptance makes no
scratchpad access. -/
def Obligations.CmdWriteIsAcceptedOrDropped : Prop :=
  ∀ (s : State) (ms : List Move) (W : Word), s.moves = wr32 s.regBase 0x014 W :: ms →
    ((s.ph = .exec ∨ s.faulted = true) → step s = .next { s with moves := ms, ovr := true }) ∧
    (s.ph = .idle → s.faulted = false →
      ∃ t, step s = .next t ∧ t.ph = .exec ∧ t.done = false ∧ t.lastop = W.extractLsb' 0 8 ∧ t.eng.cw = W ∧
        t.moves = ms ∧ t.dataRegs = s.dataRegs ∧ t.latch = s.latch ∧ t.selection = s.selection ∧ t.ovr = s.ovr ∧
        t.port = { s.port with trace := [] })

/-- R33: a CMD write and the engine's turn after it are the issue of the command, for an idle CNE with no fault
latched. -/
def Obligations.IssueIsTwoSteps : Prop :=
  ∀ (s : State) (ms : List Move) (i : Instr), s.ph = .idle → s.faulted = false →
    s.moves = cmd s.regBase i :: .engine :: ms →
    Sys2Proof.core.run 2 s = issue i { s with moves := ms }

/-- R48: while BUSY, a host write to an RW register is dropped and sets OVR; the RW registers are CTRL, SP_BASE_LO,
SP_BASE_HI, SP_LEN, ST, RIN, RKEY and FST, at their offsets of R20. -/
def Obligations.BusyRegisterWritesAreDropped : Prop :=
  ∀ (s : State) (ms : List Move) (off : Nat) (val : Word), s.ph = .exec →
    (off = 0x008 ∨ off = 0x018 ∨ off = 0x01C ∨ off = 0x020 ∨
      (off % 4 = 0 ∧ (0x100 ≤ off ∧ off ≤ 0x1C7 ∨ 0x240 ≤ off ∧ off ≤ 0x24F ∨ 0x250 ≤ off ∧ off ≤ 0x25F ∨
        0x400 ≤ off ∧ off ≤ 0x4C7))) →
    s.moves = wr32 s.regBase off val :: ms →
    step s = .next { s with moves := ms, ovr := true }

/-- R21(c) to (e): a write to a read-only register or a reserved offset changes nothing, busy or not, and does not
set OVR. -/
def Obligations.ReadOnlyAndReservedWritesAreIgnored : Prop :=
  ∀ (s : State) (ms : List Move) (off : Nat) (val : Word), off % 4 = 0 →
    (off = 0x000 ∨ off = 0x004 ∨ off = 0x00C ∨ off = 0x010 ∨ (0x024 ≤ off ∧ off ≤ 0x0FF) ∨
      (0x1C8 ≤ off ∧ off ≤ 0x23F) ∨ (0x260 ≤ off ∧ off ≤ 0x3FF) ∨ (0x4C8 ≤ off ∧ off ≤ 0xFFF)) →
    s.moves = wr32 s.regBase off val :: ms →
    step s = .next { s with moves := ms }

/-- R34, R35, R39, R41, R44, R21(b): while idle (a latched fault makes no difference, R223) a word written to a data
register is read back, and no other word of any register changes by it. -/
def Obligations.IdleWriteThenReadReturnsTheWord : Prop :=
  ∀ (s : State) (ms : List Move) (off : Nat) (val : Word), s.ph = .idle → off % 4 = 0 →
    ((0x018 ≤ off ∧ off ≤ 0x020) ∨ (0x100 ≤ off ∧ off ≤ 0x1C7) ∨ (0x240 ≤ off ∧ off ≤ 0x25F) ∨
      (0x400 ≤ off ∧ off ≤ 0x4C7)) →
    s.moves = wr32 s.regBase off val :: ms →
    ∃ t, step s = .next t ∧ t.moves = ms ∧ t.port = s.port ∧ t.latch = s.latch ∧
      t.selection = s.selection ∧ t.surroundings = { s.surroundings with moves := ms } ∧
      readReg t (regAt off) = val ∧
      ∀ off', off' % 4 = 0 → off' < 4096 → off' ≠ off → readReg t (regAt off') = readReg s (regAt off')

/-- R61: a 32-bit read of a byte-array register returns four consecutive array bytes, the lowest-indexed in bits
7:0; the arrays are those of R20. -/
def Obligations.ByteArraysReadLittleEndian : Prop :=
  ∀ (s : State) (w k : Nat) (_ : k < 4),
    (∀ h : 4 * w + k < 200, (readReg s (regAt (0x100 + 4 * w))).extractLsb' (8 * k) 8 = s.st[4 * w + k]) ∧
    (∀ h : 4 * w + k < 32, (readReg s (regAt (0x200 + 4 * w))).extractLsb' (8 * k) 8 = s.digest[4 * w + k]) ∧
    (∀ h : 4 * w + k < 16, (readReg s (regAt (0x240 + 4 * w))).extractLsb' (8 * k) 8 = s.rin[4 * w + k]) ∧
    (∀ h : 4 * w + k < 16, (readReg s (regAt (0x250 + 4 * w))).extractLsb' (8 * k) 8 = s.rkey[4 * w + k]) ∧
    (∀ h : 4 * w + k < 16, (readReg s (regAt (0x260 + 4 * w))).extractLsb' (8 * k) 8 = s.rout[4 * w + k]) ∧
    (∀ h : 4 * w + k < 160, (readReg s (regAt (0x280 + 4 * w))).extractLsb' (8 * k) 8 =
      s.rk[(4 * w + k) / 16][(4 * w + k) % 16]) ∧
    (∀ h : 4 * w + k < 200, (readReg s (regAt (0x400 + 4 * w))).extractLsb' (8 * k) 8 = s.fst[4 * w + k])

/-- R63, R21(c), R21(d): a defined read changes nothing but what the host holds; CTRL, CMD and the reserved offsets
read 0. -/
def Obligations.RegisterReadsHaveNoSideEffect : Prop :=
  ∀ (s : State) (ms : List Move) (off : Nat), off % 4 = 0 → off < 4096 → s.moves = rd32 s.regBase off :: ms →
    step s = .next { s with moves := ms, readback := .word (readReg s (regAt off)) } ∧
    ((off = 0x008 ∨ off = 0x014 ∨ (0x030 ≤ off ∧ off ≤ 0x0FF) ∨ (0x1C8 ≤ off ∧ off ≤ 0x1FF) ∨
      (0x220 ≤ off ∧ off ≤ 0x23F) ∨ (0x270 ≤ off ∧ off ≤ 0x27F) ∨ (0x320 ≤ off ∧ off ≤ 0x3FF) ∨
      (0x4C8 ≤ off ∧ off ≤ 0xFFF)) → readReg s (regAt off) = 0)

/-- R62: an access to the window that is not 32 bits wide, or is at an offset that is not a multiple of 4, is
refused, read or write. -/
def Obligations.UndefinedAccessesAreRefused : Prop :=
  ∀ (s : State) (ms : List Move) (off width : Nat) (val : Word), off < 4096 → 0 < width →
    (width ≠ 32 ∨ off % 4 ≠ 0) →
    (s.moves = .busRead (s.regBase + off) width :: ms → step s = .refused .undefinedAccess) ∧
    (s.moves = .busWrite (s.regBase + off) width val :: ms → step s = .refused .undefinedAccess)

/-- R22, R36: ID and SPSZ read their constants in every state, and ITER its own (R37). -/
def Obligations.ConstantRegistersRead : Prop :=
  ∀ s : State, readReg s (regAt 0x000) = 0x434E4501#32 ∧ readReg s (regAt 0x024) = 0x00200000#32 ∧
    readReg s (regAt 0x028) = 0x00080000#32

/-- R25, R32, R23, R211: the fields of STATUS, FAULT and CAP stand at their bits, CODE reads R211's numbers, and the
reserved bits read 0. -/
def Obligations.StatusFaultCapFields : Prop :=
  ∀ s : State,
    ((readReg s (regAt 0x00C)).getLsbD 0 = true ↔ s.ph = .exec) ∧
    (readReg s (regAt 0x00C)).getLsbD 1 = s.done ∧
    (readReg s (regAt 0x00C)).getLsbD 2 = s.faulted ∧
    (readReg s (regAt 0x00C)).getLsbD 3 = s.ovr ∧
    (readReg s (regAt 0x00C)).extractLsb' 4 2 = s.sel ∧
    (readReg s (regAt 0x00C)).getLsbD 6 = s.selv ∧
    (readReg s (regAt 0x00C)).getLsbD 7 = false ∧
    (readReg s (regAt 0x00C)).extractLsb' 8 8 = s.lastop ∧
    (readReg s (regAt 0x00C)).extractLsb' 16 16 = 0 ∧
    (s.code = .noFault → (readReg s (regAt 0x010)).extractLsb' 0 8 = 0x00#8) ∧
    (s.code = .badCmd → (readReg s (regAt 0x010)).extractLsb' 0 8 = 0x01#8) ∧
    (s.code = .spSize → (readReg s (regAt 0x010)).extractLsb' 0 8 = 0x02#8) ∧
    (s.code = .spAlign → (readReg s (regAt 0x010)).extractLsb' 0 8 = 0x03#8) ∧
    (s.code = .spRange → (readReg s (regAt 0x010)).extractLsb' 0 8 = 0x04#8) ∧
    (s.code = .busErr → (readReg s (regAt 0x010)).extractLsb' 0 8 = 0x05#8) ∧
    (readReg s (regAt 0x010)).extractLsb' 8 8 = s.fop ∧
    (readReg s (regAt 0x010)).extractLsb' 16 16 = 0 ∧
    (readReg s (regAt 0x004)).getLsbD 0 = s.accelBuild ∧
    (readReg s (regAt 0x004)).getLsbD 1 = s.hwCap ∧
    (readReg s (regAt 0x004)).getLsbD 2 = (s.accelBuild && s.hwCap) ∧
    (readReg s (regAt 0x004)).extractLsb' 3 29 = 0

/-- R38: ALIGN reads 16 when CAP.ACCEL = 1 and 1 otherwise, and it is the alignment CHECK requires of SP_BASE. -/
def Obligations.AlignIsWhatCheckRequires : Prop :=
  ∀ s : State,
    ((readReg s (regAt 0x004)).getLsbD 2 = true → readReg s (regAt 0x02C) = 16#32) ∧
    ((readReg s (regAt 0x004)).getLsbD 2 = false → readReg s (regAt 0x02C) = 1#32) ∧
    (s.spLen = 0x00200000#32 → s.spBase + 2097152 ≤ 2 ^ 64 →
      ((∃ t, exec .check s = .next t ∧ t.Completed) ↔ s.spBase % (readReg s (regAt 0x02C)).toNat = 0))

/-! ### The descriptor check and fault entry -/

/-- R150 to R153: CHECK and the four scratchpad commands first check size, alignment and range, in this order; the
first that fails is the fault reported, and nothing but the fault entry happens: no port access, no register.  When
all three pass, the command completes or its fault is BUS_ERR. -/
def Obligations.DescriptorCheckComesFirst : Prop :=
  ∀ (i : Instr) (s : State), i ∈ [Instr.check, .expand, .mix, .absorb, .run] →
    let fault := fun c : FaultCode => (Host.Outcome.next { s with
      code := c, fop := s.eng.cw.extractLsb' 0 8, ph := .idle, done := false, faulted := true } :
        Host.Outcome State Machine.Fault Refusal)
    (s.spLen ≠ 0x00200000#32 → exec i s = fault .spSize) ∧
    (s.spLen = 0x00200000#32 → s.accelBuild = true → s.hwCap = true → s.spBaseLo.toNat % 16 ≠ 0 →
      exec i s = fault .spAlign) ∧
    (s.spLen = 0x00200000#32 → (s.accelBuild = true → s.hwCap = true → s.spBaseLo.toNat % 16 = 0) →
      2 ^ 64 < s.spBaseHi.toNat * 2 ^ 32 + s.spBaseLo.toNat + 2097152 → exec i s = fault .spRange) ∧
    (s.spLen = 0x00200000#32 → (s.accelBuild = true → s.hwCap = true → s.spBaseLo.toNat % 16 = 0) →
      s.spBaseHi.toNat * 2 ^ 32 + s.spBaseLo.toNat + 2097152 ≤ 2 ^ 64 →
      ∀ t, exec i s = .next t → t.Completed ∨ t.code = .busErr)

/-- R220: a command that raises a fault latches the code and the opcode byte, clears BUSY and DONE, sets FAULT and
leaves PH idle; no other register changes, and FAULT names a defined code. -/
def Obligations.FaultEntryCommitsNothing : Prop :=
  ∀ (i : Instr) (s t : State), s.faulted = false → exec i s = .next t → t.faulted = true →
    t.code ≠ .noFault ∧ t.fop = s.eng.cw.extractLsb' 0 8 ∧ t.ph = .idle ∧ t.done = false ∧
    t.dataRegs = s.dataRegs ∧ t.selection = s.selection ∧ t.surroundings = s.surroundings

/-- R253: a command that ends has ended in completion or in a fault, and it ends when the memory system answers every
access to its region. -/
def Obligations.CommandsEnd : Prop :=
  ∀ (i : Instr) (s : State),
    (∀ t, exec i s = .next t → t.ph = .idle ∧ (t.done = true ∨ (t.done = false ∧ t.faulted = true))) ∧
    (s.RegionAnswered → ∃ t, exec i s = .next t)

/-- R252; 93_implementation_defined.md item 8: a scratchpad command whose access is never answered never ends; the
model stops.  EXPAND and RUN access block 0 first, ABSORB too, and MIX the block A selects. -/
def Obligations.UnansweredAccessIsStuck : Prop :=
  ∀ s : State, s.DescriptorOk →
    (replyAt s.port.map s.spBase = .noAnswer →
      exec .expand s = .fault .scratchpadNeverAnswers ∧ exec .absorb s = .fault .scratchpadNeverAnswers ∧
      exec .run s = .fault .scratchpadNeverAnswers) ∧
    (replyAt s.port.map (s.spBase + spIndex (startA s.st)) = .noAnswer →
      exec .mix s = .fault .scratchpadNeverAnswers)

/-! ### Commands without scratchpad accesses -/

/-- R198: NOP completes in every state and changes nothing but BUSY and DONE. -/
def Obligations.NopCompletes : Prop :=
  ∀ s : State, exec .nop s = .next { s with ph := .idle, done := true }

/-- R154: CHECK completes exactly when the descriptor is valid, and then changes nothing but BUSY and DONE. -/
def Obligations.CheckCompletesOnValidDescriptor : Prop :=
  ∀ s : State, (s.DescriptorOk → exec .check s = .next { s with ph := .idle, done := true }) ∧
    (¬ s.DescriptorOk → ∃ t, exec .check s = .next t ∧ t.faulted = true ∧ t.done = false)

/-- R121: ROUND completes in every state with ROUT = AESRound(RIN, RKEY), and changes nothing else but BUSY and
DONE. -/
def Obligations.RoundResult : Prop :=
  ∀ s : State, exec .round s = .next { s with rout := aesRound s.rin s.rkey, ph := .idle, done := true }

/-- R122: KEYEXP K completes in every state with RK = KeyExp10(ST[32K..32K+31]), for both values of K, and changes no
other register, no memory and nothing on the ports. -/
def Obligations.KeyexpResult : Prop :=
  ∀ (s : State) (k : BitVec 1), ∃ t, exec (.keyexp k) s = .next t ∧ t.Completed ∧
    (k = 0 → t.dataRegs = { s.dataRegs with rk := keyExp10 (Vector.ofFn fun n : Fin 32 => s.st[n.val]) }) ∧
    (k = 1 → t.dataRegs = { s.dataRegs with rk := keyExp10 (Vector.ofFn fun n : Fin 32 => s.st[32 + n.val]) }) ∧
    t.port = s.port ∧ t.surroundings = s.surroundings ∧ t.latch = s.latch ∧ t.selection = s.selection

/-- R188, R186, R187: PERMUTE completes in every state with FST = KeccakF(FST), calls the permutation port once and
nothing else, and changes no other register and no memory.  With the expected unit KeccakF is R187's: the lanes
`A r x y` before round r, its theta, rho and pi (`Bm`), chi and iota, and the bytes of the lanes after round 23, with
R187's tables ROT and RC written out (RC in the rule's rows of four).  With another unit it is the platform's function
(log entry 5). -/
def Obligations.PermuteResult : Prop :=
  (∀ s : State, ∃ t, exec .permute s = .next t ∧ t.Completed ∧
    (s.permUnit = .keccakF1600 → t.dataRegs = { s.dataRegs with fst := keccakF1600 s.fst }) ∧
    (s.permUnit = .other → t.dataRegs = { s.dataRegs with fst := Config.keccakPort s.fst }) ∧
    t.port = { s.port with trace := .permute :: s.port.trace } ∧
    t.surroundings = s.surroundings ∧ t.latch = s.latch ∧ t.selection = s.selection) ∧
  (∀ S : Bytes 200, ∃ A Bm : Nat → Nat → Nat → BitVec 64,
    let ROT : List (List Nat) :=
      [[0, 36, 3, 41, 18], [1, 44, 10, 45, 2], [62, 6, 43, 15, 61], [28, 55, 25, 21, 56], [27, 20, 39, 8, 14]]
    let RC : List (List (BitVec 64)) :=
      [[0x0000000000000001, 0x0000000000008082, 0x800000000000808A, 0x8000000080008000],
       [0x000000000000808B, 0x0000000080000001, 0x8000000080008081, 0x8000000000008009],
       [0x000000000000008A, 0x0000000000000088, 0x0000000080008009, 0x000000008000000A],
       [0x000000008000808B, 0x800000000000008B, 0x8000000000008089, 0x8000000000008003],
       [0x8000000000008002, 0x8000000000000080, 0x000000000000800A, 0x800000008000000A],
       [0x8000000080008081, 0x8000000000008080, 0x0000000080000001, 0x8000000080008008]]
    let C := fun r x => A r x 0 ^^^ A r x 1 ^^^ A r x 2 ^^^ A r x 3 ^^^ A r x 4
    let D := fun r x => C r ((x + 4) % 5) ^^^ (C r ((x + 1) % 5)).rotateLeft 1
    (∀ x y k (_ : x < 5) (_ : y < 5) (_ : k < 8), (A 0 x y).extractLsb' (8 * k) 8 = S[8 * (x + 5 * y) + k]) ∧
    (∀ r x y, r < 24 → x < 5 → y < 5 →
      Bm r y ((2 * x + 3 * y) % 5) = (A r x y ^^^ D r x).rotateLeft ((ROT.getD x []).getD y 0) ∧
      A (r + 1) x y = Bm r x y ^^^ (~~~ Bm r ((x + 1) % 5) y &&& Bm r ((x + 2) % 5) y) ^^^
        (if x = 0 ∧ y = 0 then (RC.getD (r / 4) []).getD (r % 4) 0 else 0)) ∧
    (∀ x y k (_ : x < 5) (_ : y < 5) (_ : k < 8),
      (keccakF1600 S)[8 * (x + 5 * y) + k] = (A 24 x y).extractLsb' (8 * k) 8))

/-- R192, R189, R190: SELECT completes in every state with DIGEST = H(FST[0] AND 3)(FST), SEL and SELV, calls that one
hash port once, and changes no other register and no memory. -/
def Obligations.SelectResult : Prop :=
  ∀ s : State, ∃ t, exec .select s = .next t ∧ t.Completed ∧
    t.sel.toNat = s.fst[0].toNat % 4 ∧ t.selv = true ∧
    (∀ alg : HashAlg,
      (s.fst[0].toNat % 4 = 0 → alg = .blake256) → (s.fst[0].toNat % 4 = 1 → alg = .groestl256) →
      (s.fst[0].toNat % 4 = 2 → alg = .jh256) → (s.fst[0].toNat % 4 = 3 → alg = .skein512_256) →
      t.dataRegs = { s.dataRegs with digest := Config.hashPort alg s.fst } ∧
      t.port = { s.port with trace := .hash alg :: s.port.trace }) ∧
    t.surroundings = s.surroundings ∧ t.latch = s.latch

/-- R72: NOP, CHECK, ROUND, KEYEXP, PERMUTE and SELECT make no scratchpad access, nor does a command that faults at
decode or at the descriptor check: memory is unchanged and no access is recorded. -/
def Obligations.NoScratchpadAccess : Prop :=
  (∀ (i : Instr) (s t : State), i.usesScratchpad = false → exec i s = .next t →
    t.port.mem = s.port.mem ∧
    ∃ es, t.port.trace = es ++ s.port.trace ∧ ∀ e ∈ es, e.isAccess = false) ∧
  (∀ (i : Instr) (s t : State), ¬ s.DescriptorOk → exec i s = .next t → i.usesScratchpad = true →
    t.port = s.port) ∧
  (∀ (s t : State) (r : Reject), decode s.eng.cw = .error r → engineTurn s = .next t → t.port = s.port)

/-! ### The block-round engine -/

/-- R114 to R116: every output byte of AESRound, from the S-box, the rows' rotation, the matrix (02 03 01 01) and the
round key. -/
def Obligations.AesRoundBytes : Prop :=
  ∀ (x k : Block) (c : Nat) (_ : c < 4),
    let a := fun r : Fin 4 => sbox (x[4 * ((c + r.val) % 4) + r.val])
    (aesRound x k)[4 * c] = gmul 2 (a 0) ^^^ gmul 3 (a 1) ^^^ a 2 ^^^ a 3 ^^^ k[4 * c] ∧
    (aesRound x k)[4 * c + 1] = a 0 ^^^ gmul 2 (a 1) ^^^ gmul 3 (a 2) ^^^ a 3 ^^^ k[4 * c + 1] ∧
    (aesRound x k)[4 * c + 2] = a 0 ^^^ a 1 ^^^ gmul 2 (a 2) ^^^ gmul 3 (a 3) ^^^ k[4 * c + 2] ∧
    (aesRound x k)[4 * c + 3] = gmul 3 (a 0) ^^^ a 1 ^^^ a 2 ^^^ gmul 2 (a 3) ^^^ k[4 * c + 3]

/-- R116: AESRound is injective in x for every fixed k. -/
def Obligations.AesRoundIsInjective : Prop :=
  ∀ (k x y : Block), aesRound x k = aesRound y k → x = y

/-- R111, R112: the S-box table is the affine map of the field inverse, with inv(0) = 0. -/
def Obligations.SboxIsAffineOfInverse : Prop :=
  sbox 0 = sboxAffine 0 ∧ ∀ a : Byte, a ≠ 0 → ∃ b : Byte, gmul a b = 1 ∧ sbox a = sboxAffine b

/-- R118: the ten round keys, as the forty words the key expansion's recurrence defines. -/
def Obligations.KeyScheduleRecurrence : Prop :=
  ∀ (K : Bytes 32) (i : Nat) (hi : i < 40),
    let w := fun (n : Nat) (h : n < 40) => (Vector.ofFn fun r : Fin 4 =>
      (keyExp10 K)[n / 4][4 * (n % 4) + r.val] : Bytes 4)
    (∀ h : i < 8, w i hi = Vector.ofFn fun r : Fin 4 => K[4 * i + r.val]) ∧
    (∀ h : 8 ≤ i,
      (i % 8 = 0 → w i hi = bxor (w (i - 8) (by omega)) (bxor (Vector.ofFn fun r : Fin 4 =>
        sbox ((w (i - 1) (by omega))[(r.val + 1) % 4])) #v[BitVec.ofNat 8 (2 ^ (i / 8 - 1)), 0, 0, 0])) ∧
      (i % 8 = 4 → w i hi = bxor (w (i - 8) (by omega)) (Vector.ofFn fun r : Fin 4 =>
        sbox ((w (i - 1) (by omega))[r.val]))) ∧
      (i % 8 ≠ 0 → i % 8 ≠ 4 → w i hi = bxor (w (i - 8) (by omega)) (w (i - 1) (by omega))))

/-! ### The expander -/

/-- R142: after EXPAND completes, block j of chunk I is Pseudo10 applied I + 1 times to ST[64+16j .. 79+16j] under
KeyExp10(ST[0..31]); EXPAND completes on a valid descriptor when every access is served; RK holds the schedule; every
other register and every byte outside the region is unchanged.  R119: Pseudo10 is ten AESRounds, under KS[0] to KS[9]
in order. -/
def Obligations.ExpandClosedForm : Prop :=
  (∀ s : State, s.DescriptorOk → s.RegionServed →
    ∃ t, exec .expand s = .next t ∧ t.Completed ∧
      (∀ I j, I < 16384 → j < 8 → (hj : 64 + 16 * j + 16 ≤ 200) →
        t.port.mem.readBlock (s.spBase + 128 * I + 16 * j) =
          pseudo10Pow (I + 1) (slice s.st (64 + 16 * j) 16 hj) (keyExp10 (slice s.st 0 32))) ∧
      t.dataRegs = { s.dataRegs with rk := keyExp10 (slice s.st 0 32) } ∧
      t.surroundings = s.surroundings ∧ t.latch = s.latch ∧ t.selection = s.selection ∧
      (∀ x, x < s.spBase ∨ s.spBase + 2097152 ≤ x → t.port.mem.byte x = s.port.mem.byte x)) ∧
  (∀ (x : Block) (ks : KeySchedule), pseudo10 x ks =
    aesRound (aesRound (aesRound (aesRound (aesRound (aesRound (aesRound (aesRound (aesRound (aesRound x
      ks[0]) ks[1]) ks[2]) ks[3]) ks[4]) ks[5]) ks[6]) ks[7]) ks[8]) ks[9])

/-- R69: EXPAND makes exactly one write of each block offset, in increasing order, and no read; so does the expansion
part of RUN. -/
def Obligations.ExpandWritesEachBlockOnce : Prop :=
  (∀ s : State, s.DescriptorOk → s.RegionServed → ∃ t, exec .expand s = .next t ∧
    ∃ data : Nat → Block, t.port.trace =
      ((List.range 131072).map fun n => PortEvent.write (s.spBase + 16 * n) (data n)).reverse ++ s.port.trace) ∧
  (∀ (st : Bytes 200) (base : Nat) (w : Work),
    (∀ n, n < 131072 → replyAt w.port.map (base + 16 * n) = .served) →
    ∃ (w' : Work) (data : Nat → Block), expandPhase st base w = .ok () w' ∧ w'.port.trace =
      ((List.range 131072).map fun n => PortEvent.write (base + 16 * n) (data n)).reverse ++ w.port.trace)

/-- R143: EXPAND completes, and the region after it and every register, SEL and SELV are the same, for every
prefill. -/
def Obligations.ExpandIgnoresThePrefill : Prop :=
  ∀ (s : State) (m : Memory), s.DescriptorOk → s.RegionServed →
    ∃ t t', exec .expand s = .next t ∧ exec .expand { s with port := { s.port with mem := m } } = .next t' ∧
      (∀ x, s.spBase ≤ x → x < s.spBase + 2097152 → t'.port.mem.byte x = t.port.mem.byte x) ∧
      t.Completed ∧ t'.Completed ∧
      t'.dataRegs = t.dataRegs ∧ t'.surroundings = t.surroundings ∧ t'.latch = t.latch ∧ t'.selection = t.selection

/-- R144, R216: when the write of block n is the first access of EXPAND or RUN that is not served, the blocks below it
hold the expansion, no byte from the next block on (and none outside the region) has changed, and no later access is
performed.  The sixteen bytes of block n are any value.  (RUN accesses no address before its expansion has written it,
so a bus error in RUN is one in its expansion.)  R159: when an access of MIX's iteration K is the first that is not
served, it is a read, and the region holds what the iterations before it, and the first half of its own where it is the second
read, make of the blocks it held.  In both no register is committed, and FAULT says BUS_ERR. -/
def Obligations.ExpandBusErrorKeepsEarlierWrites : Prop :=
  let ended := fun s t : State => t.latch = (true, .busErr, s.eng.cw.extractLsb' 0 8) ∧ t.ph = .idle ∧
    t.done = false ∧ t.dataRegs = s.dataRegs ∧ t.selection = s.selection ∧ t.surroundings = s.surroundings
  (∀ (i : Instr) (s : State) (n : Nat), i ∈ [Instr.expand, .run] → s.DescriptorOk → n < 131072 →
    (∀ m, m < n → replyAt s.port.map (s.spBase + 16 * m) = .served) →
    replyAt s.port.map (s.spBase + 16 * n) = .busError →
    ∃ t, exec i s = .next t ∧ ended s t ∧
      (∀ m, m < n → t.port.mem.readBlock (s.spBase + 16 * m) = expandedBlock s.st m) ∧
      (∀ x, x < s.spBase ∨ s.spBase + 16 * n + 16 ≤ x → t.port.mem.byte x = s.port.mem.byte x) ∧
      t.port.trace.length = s.port.trace.length + n + 1) ∧
  (∀ (s : State) (K : Nat), s.DescriptorOk → s.HandedOver → K < 524288 →
    let v := fun k => MixView.steps k
      { a := Vector.ofFn fun m : Fin 16 => s.st[m.val] ^^^ s.st[32 + m.val]
        b := Vector.ofFn fun m : Fin 16 => s.st[16 + m.val] ^^^ s.st[48 + m.val]
        sp := fun m => s.port.mem.readBlock (s.spBase + 16 * m) }
    (∀ k, k < K → replyAt s.port.map (s.spBase + spIndex (v k).a) = .served ∧
      replyAt s.port.map (s.spBase + spIndex (v k).c1) = .served) →
    (replyAt s.port.map (s.spBase + spIndex (v K).a) = .busError →
      ∃ t, exec .mix s = .next t ∧ ended s t ∧
        (∀ n, n < 131072 → t.port.mem.readBlock (s.spBase + 16 * n) = (v K).sp n) ∧
        (∀ x, x < s.spBase ∨ s.spBase + 2097152 ≤ x → t.port.mem.byte x = s.port.mem.byte x) ∧
        t.port.trace.length = s.port.trace.length + 4 * K + 1) ∧
    (replyAt s.port.map (s.spBase + spIndex (v K).a) = .served →
      replyAt s.port.map (s.spBase + spIndex (v K).c1) = .busError →
      ∃ t, exec .mix s = .next t ∧ ended s t ∧
        (∀ n, n < 131072 → t.port.mem.readBlock (s.spBase + 16 * n) = (v K).mid n) ∧
        (∀ x, x < s.spBase ∨ s.spBase + 2097152 ≤ x → t.port.mem.byte x = s.port.mem.byte x) ∧
        t.port.trace.length = s.port.trace.length + 4 * K + 3))

/-! ### The mixer -/

/-- R155: SpIndex selects bits 20:4 of the little-endian word of bytes 0..3: a multiple of 16 in 0..0x1FFFF0. -/
def Obligations.SpIndexSelectsABlock : Prop :=
  ∀ v : Block,
    spIndex v = 16 * ((v[0].toNat + 256 * v[1].toNat + 65536 * v[2].toNat + 16777216 * v[3].toNat) / 16 % 131072) ∧
    spIndex v % 16 = 0 ∧ spIndex v ≤ 0x1FFFF0

/-- R157, R158: the sum S adds the high half of the 128-bit product to A's low eight bytes and the low half to its
high eight bytes, each modulo 2^64, and no carry passes between the lanes. -/
def Obligations.MixSumLanes : Prop :=
  ∀ a c1 y : Block,
    le64 (mulAdd a c1 y) 0 = (le64 a 0 + le64 c1 0 * le64 y 0 / 2 ^ 64) % 2 ^ 64 ∧
    le64 (mulAdd a c1 y) 8 = (le64 a 8 + le64 c1 0 * le64 y 0 % 2 ^ 64) % 2 ^ 64

/-- R158, R70, R74: one iteration with its accesses served: read at j1, write C1 ⊕ B there, read at j2 (which sees that
write when j2 = j1), write S there, then A = S ⊕ Y and B = C1; no other byte changes.  The host has handed the region
over (R80). -/
def Obligations.MixStepEffect : Prop :=
  ∀ (base : Nat) (w : Work), (∀ n, n < 131072 → replyAt w.port.map (base + 16 * n) = .served) →
    (∀ x, base ≤ x → x < base + 2097152 → w.port.unsure x = false) →
    let j1 := spIndex w.eng.a
    let x := w.port.mem.readBlock (base + j1)
    let c1 := aesRound x w.eng.a
    let j2 := spIndex c1
    let y := if j2 = j1 then bxor c1 w.eng.b else w.port.mem.readBlock (base + j2)
    let S := mulAdd w.eng.a c1 y
    ∃ w', mixStep base w = .ok () w' ∧ w'.eng.a = bxor S y ∧ w'.eng.b = c1 ∧
      w'.port.mem.readBlock (base + j2) = S ∧
      (j1 ≠ j2 → w'.port.mem.readBlock (base + j1) = bxor c1 w.eng.b) ∧
      (∀ z, (z < base + j1 ∨ base + j1 + 16 ≤ z) → (z < base + j2 ∨ base + j2 + 16 ≤ z) →
        w'.port.mem.byte z = w.port.mem.byte z) ∧
      w'.port.trace = .write (base + j2) S :: .read (base + j2) :: .write (base + j1) (bxor c1 w.eng.b) ::
        .read (base + j1) :: w.port.trace

/-- R159: MIX completes on a valid descriptor when every access is served and the host has handed the region over (R80);
the region then holds what 524,288 iterations of the mixing step make of the blocks it held, starting from
A = ST[0..15] ⊕ ST[32..47] and B = ST[16..31] ⊕ ST[48..63]; no register changes, nor any byte outside the region; and
2,097,152 accesses were made (R70). -/
def Obligations.MixRefinesTheMixingStep : Prop :=
  ∀ s : State, s.DescriptorOk → s.HandedOver → s.RegionServed →
    ∃ t, exec .mix s = .next t ∧ t.Completed ∧
      (∀ n, n < 131072 → t.port.mem.readBlock (s.spBase + 16 * n) =
        mixedBlocks 524288 (Vector.ofFn fun k : Fin 16 => s.st[k.val] ^^^ s.st[32 + k.val])
          (Vector.ofFn fun k : Fin 16 => s.st[16 + k.val] ^^^ s.st[48 + k.val])
          (fun m => s.port.mem.readBlock (s.spBase + 16 * m)) n) ∧
      t.dataRegs = s.dataRegs ∧ t.surroundings = s.surroundings ∧ t.latch = s.latch ∧ t.selection = s.selection ∧
      (∀ x, x < s.spBase ∨ s.spBase + 2097152 ≤ x → t.port.mem.byte x = s.port.mem.byte x) ∧
      t.port.trace.length = s.port.trace.length + 2097152

/-! ### The finalizer -/

/-- R184, R181, R182: ABSORB completes on a valid descriptor when every access is served and the host has handed the
region over (R80), with FST = ST[0..63], the absorbed text, ST[192..199], and RK = KeyExp10(ST[32..63]); it writes no
memory (R183) and changes no other register. -/
def Obligations.AbsorbResult : Prop :=
  ∀ s : State, s.DescriptorOk → s.HandedOver → s.RegionServed →
    ∃ t, exec .absorb s = .next t ∧ t.Completed ∧
      (∀ i (h : i < 64), t.fst[i] = s.st[i]) ∧
      (∀ j k (_ : j < 8) (_ : k < 16), t.fst[64 + 16 * j + k] =
        (absorbLane (keyExp10 (slice s.st 32 32)) (fun n => s.port.mem.readBlock (s.spBase + 16 * n)) j
          (slice s.st (64 + 16 * j) 16) 16384)[k]) ∧
      (∀ i (h : i < 8), t.fst[192 + i] = s.st[192 + i]) ∧
      t.dataRegs = { s.dataRegs with fst := t.fst, rk := keyExp10 (slice s.st 32 32) } ∧
      t.surroundings = s.surroundings ∧ t.latch = s.latch ∧ t.selection = s.selection ∧
      t.port.mem = s.port.mem

/-- R71, R183: ABSORB writes no memory however it ends, and when it completes it has made exactly one read of each
block offset in increasing order, and no write; so has the absorption part of RUN. -/
def Obligations.AbsorbReadsEachBlockOnce : Prop :=
  (∀ s t : State, exec .absorb s = .next t → t.port.mem = s.port.mem ∧ t.port.cache = s.port.cache) ∧
  (∀ s : State, s.DescriptorOk → s.RegionServed → ∃ t, exec .absorb s = .next t ∧ t.port.trace =
    ((List.range 131072).map fun n => PortEvent.read (s.spBase + 16 * n)).reverse ++ s.port.trace) ∧
  (∀ (st : Bytes 200) (base : Nat) (w : Work),
    (∀ n, n < 131072 → replyAt w.port.map (base + 16 * n) = .served) →
    ∃ w' : Work, absorbPhase st base w = .ok () w' ∧ w'.port.mem = w.port.mem ∧ w'.port.trace =
      ((List.range 131072).map fun n => PortEvent.read (base + 16 * n)).reverse ++ w.port.trace)

/-- R196, R85: RUN completes on a valid descriptor when every access is served and the host has handed the region over
(R80), and what it commits is the function of ST the rules define (expansion, mixing, absorption, permutation,
selection), whatever the region held; no other register changes, nor any byte outside the region. -/
def Obligations.RunComputesTheDigest : Prop :=
  ∀ s : State, s.DescriptorOk → s.HandedOver → s.RegionServed →
    ∃ t, exec .run s = .next t ∧ t.Completed ∧
      t.dataRegs = { s.dataRegs with
        rk := keyExp10 (slice s.st 32 32)
        fst := finalState s.permUnit s.st
        digest := Config.hashPort (hashOf (selector (finalState s.permUnit s.st))) (finalState s.permUnit s.st) } ∧
      t.selection = (selector (finalState s.permUnit s.st), true) ∧
      (∀ n, n < 131072 → t.port.mem.readBlock (s.spBase + 16 * n) = mixedBlock s.st (expandedBlock s.st) n) ∧
      t.surroundings = s.surroundings ∧ t.latch = s.latch ∧
      (∀ x, x < s.spBase ∨ s.spBase + 2097152 ≤ x → t.port.mem.byte x = s.port.mem.byte x)

/-- R186: RUN calls the permutation port exactly once and then the selected hash port exactly once, after its last
scratchpad access. -/
def Obligations.RunCallsEachPortOnce : Prop :=
  ∀ s : State, s.DescriptorOk → s.RegionServed →
    ∃ t es, exec .run s = .next t ∧ (∀ e ∈ es, e.isAccess = true) ∧
      t.port.trace = .hash (hashOf t.sel) :: .permute :: es ++ s.port.trace

/-- R85: RUN's registers and the region after it do not depend on what the memory held, where the host has handed the
region over (R80). -/
def Obligations.RunIgnoresPriorContents : Prop :=
  ∀ (s : State) (m : Memory), s.DescriptorOk → s.HandedOver → s.RegionServed →
    ∃ t t', exec .run s = .next t ∧ exec .run { s with port := { s.port with mem := m } } = .next t' ∧
      t.Completed ∧ t'.Completed ∧
      t'.dataRegs = t.dataRegs ∧ t'.selection = t.selection ∧ t'.latch = t.latch ∧ t'.surroundings = t.surroundings ∧
      (∀ x, s.spBase ≤ x → x < s.spBase + 2097152 → t'.port.mem.byte x = t.port.mem.byte x)

/-- R197: CHECK, EXPAND, MIX, ABSORB, PERMUTE and SELECT, each issued when the one before has completed, end as RUN
does, in every data register, SEL, SELV, DONE and every byte of memory; only LASTOP differs.  The host has handed the
region over (R80) and leaves it alone between the commands. -/
def Obligations.StepwiseEqualsRun : Prop :=
  ∀ s : State, s.faulted = false → s.DescriptorOk → s.HandedOver → s.RegionServed →
    ∃ s1 s2 s3 s4 s5 s6 r,
      issue .check s = .next s1 ∧ issue .expand s1 = .next s2 ∧ issue .mix s2 = .next s3 ∧
      issue .absorb s3 = .next s4 ∧ issue .permute s4 = .next s5 ∧ issue .select s5 = .next s6 ∧
      issue .run s = .next r ∧
      s6.Completed ∧ r.Completed ∧ s6.dataRegs = r.dataRegs ∧ s6.selection = r.selection ∧ s6.latch = r.latch ∧
      (∀ x, s6.port.mem.byte x = r.port.mem.byte x) ∧
      s6.lastop = 0x08#8 ∧ r.lastop = 0x09#8

/-- R184, R216: when one of ABSORB's reads is not served, memory and every data register are as before, and no later
read is performed. -/
def Obligations.AbsorbBusErrorChangesNothing : Prop :=
  ∀ (s : State) (n : Nat), s.DescriptorOk → n < 131072 →
    (∀ m, m < n → replyAt s.port.map (s.spBase + 16 * m) = .served) →
    replyAt s.port.map (s.spBase + 16 * n) = .busError →
    ∃ t, exec .absorb s = .next t ∧ t.latch = (true, .busErr, s.eng.cw.extractLsb' 0 8) ∧
      t.ph = .idle ∧ t.done = false ∧ t.dataRegs = s.dataRegs ∧ t.selection = s.selection ∧
      t.surroundings = s.surroundings ∧ t.port.mem = s.port.mem ∧
      t.port.trace.length = s.port.trace.length + n + 1

/-! ### What holds of every command -/

/-- R34, R35, R39, R41, R53: no command changes the descriptor, ST, RIN, RKEY, the CAP latch, OVR, LASTOP or anything of
the platform; ROUT, RK, FST, DIGEST and SEL change only by the commands that write them; and no byte of memory outside
the region changes (R73).  What the host's caches hold back (log entry 9) changes only by EXPAND, MIX and RUN, only
without coherence, and not for bytes outside the region. -/
def Obligations.CommandFrame : Prop :=
  ∀ (i : Instr) (s t : State), exec i s = .next t →
    t.surroundings = s.surroundings ∧ t.spBaseLo = s.spBaseLo ∧ t.spBaseHi = s.spBaseHi ∧ t.spLen = s.spLen ∧
    t.st = s.st ∧ t.rin = s.rin ∧ t.rkey = s.rkey ∧
    (i ≠ .round → t.rout = s.rout) ∧
    ((∀ k, i ≠ .keyexp k) → i ≠ .expand → i ≠ .absorb → i ≠ .run → t.rk = s.rk) ∧
    (i ≠ .absorb → i ≠ .permute → i ≠ .run → t.fst = s.fst) ∧
    (i ≠ .select → i ≠ .run → t.digest = s.digest ∧ t.selection = s.selection) ∧
    (∀ x, x < s.spBase ∨ s.spBase + 2097152 ≤ x → t.port.mem.byte x = s.port.mem.byte x) ∧
    (s.port.coherent = true → t.port.cache = s.port.cache) ∧
    (i ≠ .expand → i ≠ .mix → i ≠ .run → t.port.cache = s.port.cache) ∧
    (∀ x, x < s.spBase ∨ s.spBase + 2097152 ≤ x → t.port.cache.dirty.find x = s.port.cache.dirty.find x)

/-- R73: every scratchpad access of a command is a whole block of `[SP_BASE, SP_BASE + SP_SIZE)`, and no address
wraps around. -/
def Obligations.AccessesStayInTheRegion : Prop :=
  ∀ (i : Instr) (s t : State), exec i s = .next t →
    ∃ es, t.port.trace = es ++ s.port.trace ∧
      ∀ e ∈ es, ∀ a, e.address? = some a →
        ∃ off, a = s.spBase + off ∧ off % 16 = 0 ∧ off ≤ 2097152 - 16 ∧ s.spBase + off + 16 ≤ 2 ^ 64

/-- R120: the variant changes no value any command computes: with a descriptor valid for both, a command ends alike
under either HW_CAP. -/
def Obligations.VariantChangesNoValue : Prop :=
  ∀ (i : Instr) (s t : State) (b : Bool), s.DescriptorOk → State.DescriptorOk { s with hwCap := b } →
    exec i s = .next t → exec i { s with hwCap := b } = .next { t with hwCap := b }

/-! ### Resets, latches and the host -/

/-- R52: the "after hardware reset" column, and R45. -/
def Obligations.ResetRegisters : Prop :=
  readReg State.reset (regAt 0x00C) = 0 ∧ readReg State.reset (regAt 0x010) = 0 ∧ State.reset.ph = .idle ∧
  State.reset.dataRegs = DataRegs.allZero ∧
  State.reset.port.mem = []

/-- R242: a write of a word with bit 0 = 1 to CTRL resets every register while BUSY = 0, a latched fault too, and leaves
CAP, ID, SPSZ, ITER, ALIGN and the memory unchanged.  R24: a write of a word with bit 0 = 0 has no effect then; while
BUSY = 1 every write to CTRL is a dropped write; and CTRL reads 0. -/
def Obligations.SoftReset : Prop :=
  ∀ (s : State) (ms : List Move) (val : Word), s.moves = wr32 s.regBase 0x008 val :: ms →
    (s.ph = .idle → val.getLsbD 0 = true → ∃ t, step s = .next t ∧ t.ph = .idle ∧ t.dataRegs = DataRegs.allZero ∧
      readReg t (regAt 0x00C) = 0 ∧ readReg t (regAt 0x010) = 0 ∧
      (∀ off ∈ [0x000, 0x004, 0x024, 0x028, 0x02C], readReg t (regAt off) = readReg s (regAt off)) ∧
      t.port = s.port ∧ t.moves = ms) ∧
    (s.ph = .idle → val.getLsbD 0 = false → step s = .next { s with moves := ms }) ∧
    (s.ph = .exec → step s = .next { s with moves := ms, ovr := true }) ∧
    readReg s (regAt 0x008) = 0

/-- R240: a hardware reset gives every register its reset value and samples HW_CAP; memory is not touched, except
that a command that was executing may have changed bytes of its own region. -/
def Obligations.HardReset : Prop :=
  ∀ (s : State) (ms : List Move) (k : Nat) (b : Bool), s.moves = .hardReset k b :: ms →
    ∃ t, step s = .next t ∧ t.ph = .idle ∧ t.dataRegs = DataRegs.allZero ∧
      readReg t (regAt 0x00C) = 0 ∧ readReg t (regAt 0x010) = 0 ∧
      t.hwCap = s.hwCapPin ∧ t.accelBuild = s.accelBuild ∧ t.moves = ms ∧ t.port.map = s.port.map ∧
      (s.ph = .idle → t.port.mem = s.port.mem) ∧
      (∀ i, s.ph = .exec → decode s.eng.cw = .ok i → i.usesScratchpad = false → t.port.mem = s.port.mem) ∧
      (∀ x, x < s.spBase ∨ s.spBase + 2097152 ≤ x → t.port.mem.byte x = s.port.mem.byte x)

/-- R240: a hardware reset while EXPAND executes leaves exactly the writes performed before it: with k of them done the
first k blocks hold the expansion, and no other byte has changed, but for the sixteen bytes of the next write where that
one is in progress, which are any value. -/
def Obligations.HardResetKeepsPerformedWrites : Prop :=
  ∀ (s : State) (ms : List Move) (k : Nat) (b : Bool), s.moves = .hardReset k b :: ms → s.ph = .exec →
    decode s.eng.cw = .ok .expand → s.DescriptorOk → s.RegionServed →
    (b = false → k ≤ 131072 → ∃ t, step s = .next t ∧
      (∀ n, n < k → t.port.mem.readBlock (s.spBase + 16 * n) = expandedBlock s.st n) ∧
      (∀ x, x < s.spBase ∨ s.spBase + 16 * k ≤ x → t.port.mem.byte x = s.port.mem.byte x)) ∧
    (b = true → k < 131072 → ∃ t, step s = .next t ∧
      (∀ n, n < k → t.port.mem.readBlock (s.spBase + 16 * n) = expandedBlock s.st n) ∧
      (∀ x, x < s.spBase ∨ s.spBase + 16 * k + 16 ≤ x → t.port.mem.byte x = s.port.mem.byte x))

/-- R241: only a hardware reset changes CAP, and it takes HW_CAP's level then; a change of the input has no other
effect. -/
def Obligations.CapChangesOnlyAtHardwareReset : Prop :=
  ∀ s t : State, step s = .next t →
    ((∀ k b ms, s.moves ≠ .hardReset k b :: ms) → readReg t (regAt 0x004) = readReg s (regAt 0x004)) ∧
    (∀ k b ms, s.moves = .hardReset k b :: ms → t.hwCap = s.hwCapPin ∧ t.accelBuild = s.accelBuild) ∧
    (∀ level ms, s.moves = .hwCapInput level :: ms → t = { s with moves := ms, hwCapPin := level })

/-- R28, R29, R223, R250: STATUS.FAULT with FAULT, and OVR, are cleared by nothing but a soft or a hardware reset. -/
def Obligations.LatchesClearOnlyByReset : Prop :=
  ∀ s t : State, step s = .next t → (∀ k b ms, s.moves ≠ .hardReset k b :: ms) →
    (∀ val ms, val.getLsbD 0 = true → s.moves ≠ wr32 s.regBase 0x008 val :: ms) →
    (s.ovr = true → t.ovr = true) ∧
    (s.faulted = true → t.faulted = true) ∧
    (s.faulted = true → s.ph = .idle → t.latch = s.latch ∧ t.ph = .idle)

/-- R75: while a scratchpad command executes, a host load or store that meets its region has no move; nor has, without
coherence, the maintenance of the host's caches there (the model's choice, log entry 22). -/
def Obligations.OwnedRegionIsRefused : Prop :=
  ∀ (s : State) (ms : List Move) (i : Instr) (a : Nat) (bytes : List Byte) (n : Nat), s.ph = .exec →
    decode s.eng.cw = .ok i → i.usesScratchpad = true →
    (s.moves = .memStore a bytes :: ms → a + bytes.length ≤ 2 ^ 64 → a < s.spBase + 2097152 →
      s.spBase < a + bytes.length → step s = .refused .ownedRegion) ∧
    (s.moves = .memLoad a n :: ms → a + n ≤ 2 ^ 64 → a < s.spBase + 2097152 → s.spBase < a + n →
      step s = .refused .ownedRegion) ∧
    (s.moves = .cacheWriteBack a n :: ms ∨ s.moves = .cacheInvalidate a n :: ms → s.port.coherent = false →
      a + n ≤ 2 ^ 64 → a < s.spBase + 2097152 → s.spBase < a + n → step s = .refused .ownedRegion)

/-- R65, R74, R76, R84: on a coherent platform a host store while the engine is idle puts its bytes in memory and
changes nothing else, and a host load returns what memory holds.  R80: without coherence the stored bytes are in memory, and are
what the engine will read, once the host has written them back, and what the engine has written is what the host loads
once it has invalidated its caches there.  That memory is as before until the write-back is the model's choice, log
entry 9. -/
def Obligations.HostStoreAndLoad : Prop :=
  ∀ (s : State) (ms : List Move) (a : Nat), s.ph = .idle →
    let kept := fun t : State => t.dataRegs = s.dataRegs ∧ t.latch = s.latch ∧ t.selection = s.selection ∧ t.ph = .idle
    (∀ bytes, s.moves = .memStore a bytes :: ms → a + bytes.length ≤ 2 ^ 64 → s.port.coherent = true →
      ∃ t, step s = .next t ∧ kept t ∧
        (∀ k (h : k < bytes.length), t.port.mem.byte (a + k) = bytes[k]) ∧
        (∀ x, x < a ∨ a + bytes.length ≤ x → t.port.mem.byte x = s.port.mem.byte x)) ∧
    (∀ bytes, s.moves = .memStore a bytes :: .cacheWriteBack a bytes.length :: ms → a + bytes.length ≤ 2 ^ 64 →
      s.port.coherent = false → s.port.cache.dirty.wf →
      ∃ t u, step s = .next t ∧ kept t ∧ t.port.mem = s.port.mem ∧ step t = .next u ∧ kept u ∧
        (∀ k (h : k < bytes.length), u.port.mem.byte (a + k) = bytes[k] ∧ u.port.unsure (a + k) = false) ∧
        (∀ x, x < a ∨ a + bytes.length ≤ x → u.port.mem.byte x = s.port.mem.byte x)) ∧
    (∀ n, s.moves = .memLoad a n :: ms → a + n ≤ 2 ^ 64 → s.port.coherent = true →
      ∃ t, step s = .next t ∧ t.readback = .bytes ((List.range n).map fun k => s.port.mem.byte (a + k)) ∧
        t.port.mem = s.port.mem ∧ kept t) ∧
    (∀ n, s.moves = .cacheInvalidate a n :: .memLoad a n :: ms → a + n ≤ 2 ^ 64 → s.port.coherent = false →
      (∀ x, a ≤ x → x < a + n → s.port.cache.dirty.find x = none) →
      ∃ t u, step s = .next t ∧ step t = .next u ∧
        u.readback = .bytes ((List.range n).map fun k => s.port.mem.byte (a + k)) ∧
        (∀ x, u.port.mem.byte x = s.port.mem.byte x) ∧ kept u)

/-- The reset state is legal (see `State.Legal`). -/
def Obligations.ResetIsLegal : Prop := State.reset.Legal

/-- R25, R30, R31, R32, R45, R60: from every legal state, reached or not, every step gives a legal state: the memory
and what the host's caches hold back (log entry 9) keep their canonical form and stay in the 64-bit space, a coherent
port holds nothing back, at most one of BUSY, DONE and FAULT is 1, FAULT.CODE is not 0 exactly when FAULT is 1, FOP and
LASTOP agree while a fault is latched, and SEL is 0 until a selector is held. -/
def Obligations.StepKeepsLegal : Prop :=
  ∀ s t : State, s.Legal → step s = .next t → t.Legal
end

