-- ==== Sys2Proof/Laws/Memory.lean ====
section
/-! SUPPORT. The laws of memory: what a read finds after a write, and that every operation keeps the canonical
form. -/

namespace Sys2Proof.Machine

theorem Memory.find_store (m : Memory) (a : Nat) (b : Byte) (x : Nat) :
    (m.store a b).find x = if x = a then some b else m.find x := by
  induction m with
  | nil => simp [Memory.store, Memory.find, eq_comm]
  | cons c m ih =>
    obtain ⟨k, v⟩ := c
    unfold Memory.store
    split
    · simp only [Memory.find]
      by_cases hx : x = a
      · simp [hx]
      · simp [hx, Ne.symm hx]
    · split
      · rename_i h1 h2
        subst h2
        simp only [Memory.find]
        by_cases hx : x = a
        · simp [hx]
        · simp [hx, Ne.symm hx]
      · simp only [Memory.find, ih]
        by_cases hx : x = a
        · subst hx; rename_i h1 h2; simp [Ne.symm h2]
        · simp [hx]

/-- A byte read after a byte store. -/
theorem Memory.byte_store (m : Memory) (a : Nat) (b : Byte) (x : Nat) :
    (m.store a b).byte x = if x = a then b else m.byte x := by
  simp only [Memory.byte, Memory.find_store]
  split <;> simp

/-- Storing bytes: what is found there afterwards. -/
theorem Memory.find_storeBytes_outside (bs : List Byte) : ∀ (m : Memory) (a x : Nat), (x < a ∨ a + bs.length ≤ x) →
    (m.storeBytes a bs).find x = m.find x := by
  induction bs with
  | nil => intro m a x _; rfl
  | cons b bs ih =>
    intro m a x h
    simp only [List.length_cons] at h
    rw [Memory.storeBytes, ih _ _ _ (by omega), Memory.find_store, if_neg (by omega)]

theorem Memory.find_storeBytes_inside (bs : List Byte) : ∀ (m : Memory) (a k : Nat) (h : k < bs.length),
    (m.storeBytes a bs).find (a + k) = some bs[k] := by
  induction bs with
  | nil => intro m a k h; simp at h
  | cons b bs ih =>
    intro m a k h
    rw [Memory.storeBytes]
    cases k with
    | zero =>
      rw [Memory.find_storeBytes_outside _ _ _ _ (by omega), Memory.find_store, if_pos (by omega)]
      rfl
    | succ k =>
      have := ih (m.store a b) (a + 1) k (by simpa using h)
      rw [show a + (k + 1) = a + 1 + k by omega, this]
      rfl

theorem Memory.byte_storeBytes_outside (bs : List Byte) (m : Memory) (a x : Nat) (h : x < a ∨ a + bs.length ≤ x) :
    (m.storeBytes a bs).byte x = m.byte x := by
  unfold Memory.byte; rw [Memory.find_storeBytes_outside _ _ _ _ h]

theorem Memory.byte_storeBytes_inside (bs : List Byte) (m : Memory) (a k : Nat) (h : k < bs.length) :
    (m.storeBytes a bs).byte (a + k) = bs[k] := by
  unfold Memory.byte; rw [Memory.find_storeBytes_inside _ _ _ _ h]; rfl

/-- A byte outside a written block is unchanged. -/
theorem Memory.byte_writeBlock_outside (m : Memory) (a : Nat) (v : Block) (x : Nat) (h : x < a ∨ a + 16 ≤ x) :
    (m.writeBlock a v).byte x = m.byte x :=
  Memory.byte_storeBytes_outside _ _ _ _ (by simpa using h)

/-- A byte inside a written block is the block's. -/
theorem Memory.byte_writeBlock_inside (m : Memory) (a : Nat) (v : Block) (k : Nat) (h : k < 16) :
    (m.writeBlock a v).byte (a + k) = v[k] := by
  rw [Memory.writeBlock, Memory.byte_storeBytes_inside _ _ _ _ (by simpa using h)]
  simp

/-- A block read back after it was written (R74). -/
theorem Memory.readBlock_writeBlock_same (m : Memory) (a : Nat) (v : Block) :
    (m.writeBlock a v).readBlock a = v := by
  apply Vector.ext
  intro k hk
  simp [Memory.readBlock, Memory.byte_writeBlock_inside _ _ _ _ hk]

/-- Two memories that agree on sixteen bytes have the same block there. -/
theorem Memory.readBlock_congr (m m' : Memory) (a : Nat) (h : ∀ x, a ≤ x → x < a + 16 → m.byte x = m'.byte x) :
    m.readBlock a = m'.readBlock a := by
  apply Vector.ext
  intro k hk
  simpa [Memory.readBlock] using h (a + k) (by omega) (by omega)

/-- A block elsewhere is unchanged by a write. -/
theorem Memory.readBlock_writeBlock_other (m : Memory) (a c : Nat) (v : Block) (h : c + 16 ≤ a ∨ a + 16 ≤ c) :
    (m.writeBlock a v).readBlock c = m.readBlock c :=
  Memory.readBlock_congr _ _ _ fun x h1 h2 => Memory.byte_writeBlock_outside _ _ _ _ (by omega)

/-- The addresses a byte store lists. -/
theorem Memory.mem_store (m : Memory) (a : Nat) (b : Byte) (c : Host.Cell) (h : c ∈ m.store a b) :
    c = (a, b) ∨ c ∈ m := by
  induction m with
  | nil => simpa [Memory.store] using h
  | cons d m ih =>
    obtain ⟨k, v⟩ := d
    unfold Memory.store at h
    split at h
    · simpa using h
    · split at h
      · simp only [List.mem_cons] at h ⊢; tauto
      · simp only [List.mem_cons] at h ⊢
        rcases h with h | h
        · tauto
        · rcases ih h with h | h <;> tauto

/-- A byte store keeps the canonical form. -/
theorem Memory.store_wf (m : Memory) (a : Nat) (b : Byte) (h : m.wf) : (m.store a b).wf := by
  induction m with
  | nil => simp [Memory.store, Memory.wf]
  | cons d m ih =>
    obtain ⟨k, v⟩ := d
    simp only [Memory.wf, List.pairwise_cons] at h
    unfold Memory.store
    split
    · rename_i hk
      simp only [Memory.wf, List.pairwise_cons, List.mem_cons]
      refine ⟨?_, h⟩
      rintro c (rfl | hc)
      · exact hk
      · exact Nat.lt_trans hk (h.1 c hc)
    · split
      · rename_i h1 h2
        subst h2
        simp only [Memory.wf, List.pairwise_cons]
        exact h
      · rename_i h1 h2
        simp only [Memory.wf, List.pairwise_cons]
        refine ⟨?_, ih h.2⟩
        intro c hc
        rcases Memory.mem_store _ _ _ _ hc with rfl | hc
        · simp only; omega
        · exact h.1 c hc

theorem Memory.storeBytes_wf (bs : List Byte) : ∀ (m : Memory) (a : Nat), m.wf → (m.storeBytes a bs).wf := by
  induction bs with
  | nil => intro m a h; exact h
  | cons b bs ih => intro m a h; exact ih _ _ (Memory.store_wf _ _ _ h)

/-- A block write keeps the canonical form. -/
theorem Memory.writeBlock_wf (m : Memory) (a : Nat) (v : Block) (h : m.wf) : (m.writeBlock a v).wf :=
  Memory.storeBytes_wf _ _ _ h

/-- Forgetting bytes keeps the canonical form. -/
theorem Memory.forget_wf (n : Nat) (as : List Nat) : ∀ m : Memory, m.wf → (m.forget n as).wf := by
  induction as with
  | nil => intro m h; exact h
  | cons a as ih => intro m h; exact ih _ (Memory.store_wf _ _ _ h)

/-- Every listed address stays below `L` when the stored bytes do. -/
theorem Memory.storeBytes_below (L : Nat) (bs : List Byte) : ∀ (m : Memory) (a : Nat),
    (∀ c ∈ m, c.1 < L) → a + bs.length ≤ L → ∀ c ∈ m.storeBytes a bs, c.1 < L := by
  induction bs with
  | nil => intro m a h _; exact h
  | cons b bs ih =>
    intro m a h hl
    simp only [List.length_cons] at hl
    refine ih _ _ ?_ (by omega)
    intro c hc
    rcases Memory.mem_store _ _ _ _ hc with rfl | hc
    · simp only; omega
    · exact h c hc

theorem Memory.writeBlock_below (L : Nat) (m : Memory) (a : Nat) (v : Block) (h : ∀ c ∈ m, c.1 < L)
    (ha : a + 16 ≤ L) : ∀ c ∈ m.writeBlock a v, c.1 < L :=
  Memory.storeBytes_below L _ _ _ h (by simpa using ha)

theorem Memory.forget_below (L n : Nat) (as : List Nat) : ∀ m : Memory, (∀ c ∈ m, c.1 < L) → (∀ a ∈ as, a < L) →
    ∀ c ∈ m.forget n as, c.1 < L := by
  induction as with
  | nil => intro m h _; exact h
  | cons a as ih =>
    intro m h ha
    refine ih _ ?_ fun x hx => ha x (List.mem_cons_of_mem _ hx)
    intro c hc
    rcases Memory.mem_store _ _ _ _ hc with rfl | hc
    · exact ha a List.mem_cons_self
    · exact h c hc

/-! ### The listed addresses, which say all that the form and the space ask -/

theorem Memory.wf_iff (m : Memory) : m.wf ↔ (m.map (·.1)).Pairwise (· < ·) := List.pairwise_map.symm

theorem Memory.below_iff (L : Nat) (m : Memory) : (∀ c ∈ m, c.1 < L) ↔ ∀ a ∈ m.map (·.1), a < L := by simp

theorem Memory.find_isSome_iff (m : Memory) (a : Nat) : (m.find a).isSome = true ↔ a ∈ m.map (·.1) := by
  induction m with
  | nil => simp [Memory.find]
  | cons c m ih =>
    obtain ⟨k, v⟩ := c
    unfold Memory.find
    by_cases h : k = a
    · simp [h]
    · rw [if_neg h, ih]
      simp [Ne.symm h]

theorem Memory.find_of_mem {m : Memory} (h : m.wf) {a : Nat} {b : Byte} (hm : (a, b) ∈ m) : m.find a = some b := by
  induction m with
  | nil => simp at hm
  | cons c m ih =>
    obtain ⟨k, v⟩ := c
    simp only [Memory.wf, List.pairwise_cons] at h
    rcases List.mem_cons.1 hm with e | hm
    · cases e; simp [Memory.find]
    · have : k < a := h.1 _ hm
      rw [Memory.find, if_neg (by omega)]
      exact ih h.2 hm

/-- Storing a list of bytes: where the list has one it is read, elsewhere the memory is as before. -/
theorem Memory.find_merge (cs : Memory) : ∀ m : Memory, cs.wf → ∀ x,
    (m.merge cs).find x = if (cs.find x).isSome then cs.find x else m.find x := by
  induction cs with
  | nil => intro m _ x; rfl
  | cons c cs ih =>
    intro m h x
    obtain ⟨k, v⟩ := c
    simp only [Memory.wf, List.pairwise_cons] at h
    have hk : (Memory.find cs k).isSome = false := by
      rw [Bool.eq_false_iff, ne_eq, Memory.find_isSome_iff]
      intro hc
      obtain ⟨d, hd, e⟩ := List.mem_map.1 hc
      have := h.1 d hd
      omega
    rw [Memory.merge, ih _ h.2, Memory.find_store, Memory.find]
    by_cases hx : k = x
    · subst hx; simp [hk]
    · simp [hx, Ne.symm hx]

theorem Memory.byte_merge (m cs : Memory) (h : cs.wf) (x : Nat) :
    (m.merge cs).byte x = (cs.find x).getD (m.byte x) := by
  unfold Memory.byte
  rw [Memory.find_merge cs m h]
  cases cs.find x <;> simp

theorem Memory.merge_wf (cs : Memory) : ∀ m : Memory, m.wf → (m.merge cs).wf := by
  induction cs with
  | nil => intro m h; exact h
  | cons c cs ih => intro m h; exact ih _ (Memory.store_wf _ _ _ h)

theorem Memory.merge_below (L : Nat) (cs : Memory) : ∀ m : Memory, (∀ c ∈ m, c.1 < L) → (∀ c ∈ cs, c.1 < L) →
    ∀ c ∈ m.merge cs, c.1 < L := by
  induction cs with
  | nil => intro m h _; exact h
  | cons d cs ih =>
    intro m h hd
    refine ih _ ?_ fun x hx => hd x (List.mem_cons_of_mem _ hx)
    intro c hc
    rcases Memory.mem_store _ _ _ _ hc with rfl | hc
    · exact hd _ List.mem_cons_self
    · exact h c hc

/-- Keeping some of the bytes: what is kept is found as before. -/
theorem Memory.find_filter (f : Nat → Bool) (m : Memory) (x : Nat) :
    Memory.find (m.filter fun c => f c.1) x = if f x then m.find x else none := by
  induction m with
  | nil => simp [Memory.find]
  | cons c m ih =>
    obtain ⟨k, v⟩ := c
    by_cases hk : f k = true
    · rw [List.filter_cons_of_pos (by simpa using hk), Memory.find, ih, Memory.find]
      by_cases hx : k = x
      · subst hx; simp [hk]
      · simp [hx]
    · rw [List.filter_cons_of_neg (by simpa using hk), ih, Memory.find]
      by_cases hx : k = x
      · subst hx; simp [hk]
      · simp [hx]

theorem Memory.filter_wf (f : Nat → Bool) (m : Memory) (h : m.wf) : Memory.wf (m.filter fun c => f c.1) :=
  List.Pairwise.filter _ h

end Sys2Proof.Machine
end

