-- ==== Sys2Proof/Laws/Operands.lean ====
section
/-! SUPPORT. The laws of byte strings and of the mixer's operands: indexing, little-endian conversions, and the
range of SpIndex. -/

namespace Sys2Proof.Machine

@[simp] theorem bxor_getElem {n : Nat} (x y : Bytes n) (k : Nat) (h : k < n) : (bxor x y)[k] = x[k] ^^^ y[k] := by
  simp [bxor]

@[simp] theorem slice_getElem {n : Nat} (v : Bytes n) (o m : Nat) (h : o + m ≤ n) (k : Nat) (hk : k < m) :
    (slice v o m h)[k] = v[o + k] := by
  simp [slice]

/-- SpIndex is sixteen times a block number (R155): bits 20:4 of the index word. -/
theorem spIndex_eq (v : Block) : spIndex v = 16 * (le32 v 0 / 16 % 131072) := by
  unfold spIndex
  generalize le32 v 0 = x
  apply Nat.eq_of_testBit_eq
  intro i
  rw [show (16 : Nat) * (x / 16 % 131072) = 2 ^ 4 * (x / 2 ^ 4 % 2 ^ 17) by norm_num,
    show (0x001FFFF0 : Nat) = 2 ^ 4 * (2 ^ 17 - 1) by norm_num]
  rw [Nat.testBit_and, Nat.testBit_two_pow_mul, Nat.testBit_two_pow_mul, Nat.testBit_mod_two_pow,
    Nat.testBit_two_pow_sub_one, Nat.testBit_div_two_pow]
  by_cases h : 4 ≤ i
  · rw [show i - 4 + 4 = i by omega]
    simp [h, Bool.and_comm]
  · simp [h]

theorem spIndex_block (v : Block) : ∃ n, n < 131072 ∧ spIndex v = 16 * n :=
  ⟨_, Nat.mod_lt _ (by norm_num), spIndex_eq v⟩

theorem spIndex_div_lt (v : Block) : spIndex v / 16 < 131072 := by
  obtain ⟨n, hn, h⟩ := spIndex_block v
  omega

theorem spIndex_div_mul (v : Block) : 16 * (spIndex v / 16) = spIndex v := by
  obtain ⟨n, _, h⟩ := spIndex_block v
  omega

theorem blockOffset_eq (I j : Nat) : blockOffset I j = 16 * (8 * I + j) := by
  unfold blockOffset; omega

theorem leNat_lt (bs : List Byte) : leNat bs < 256 ^ bs.length := by
  induction bs with
  | nil => simp [leNat]
  | cons b bs ih =>
    simp only [leNat, List.length_cons, pow_succ]
    have := b.isLt
    omega

end Sys2Proof.Machine
end

