-- ==== Sys2Proof/Laws/Port.lean ====
section
/-! SUPPORT. The laws of the scratchpad port and of the loop: what one access can do, said once, and how a property
of each piece of a command's pseudocode carries over to the whole. -/

namespace Sys2Proof.Machine

@[simp] theorem Work.note_eng (e : PortEvent) (w : Work) : (w.note e).eng = w.eng := rfl
@[simp] theorem Work.note_mem (e : PortEvent) (w : Work) : (w.note e).port.mem = w.port.mem := rfl
@[simp] theorem Work.note_map (e : PortEvent) (w : Work) : (w.note e).port.map = w.port.map := rfl
@[simp] theorem Work.note_coherent (e : PortEvent) (w : Work) : (w.note e).port.coherent = w.port.coherent := rfl
@[simp] theorem Work.note_cache (e : PortEvent) (w : Work) : (w.note e).port.cache = w.port.cache := rfl
@[simp] theorem Work.note_unsure (e : PortEvent) (w : Work) (x : Nat) :
    (w.note e).port.unsure x = w.port.unsure x := rfl
@[simp] theorem Work.note_trace (e : PortEvent) (w : Work) : (w.note e).port.trace = e :: w.port.trace := rfl
@[simp] theorem Work.put_eng (a : Nat) (v : Block) (w : Work) : (w.put a v).eng = w.eng := rfl
@[simp] theorem Work.put_mem (a : Nat) (v : Block) (w : Work) : (w.put a v).port.mem = w.port.mem.writeBlock a v := rfl
@[simp] theorem Work.put_map (a : Nat) (v : Block) (w : Work) : (w.put a v).port.map = w.port.map := rfl
@[simp] theorem Work.put_trace (a : Nat) (v : Block) (w : Work) : (w.put a v).port.trace = w.port.trace := rfl
@[simp] theorem Work.spoil_eng (a : Nat) (w : Work) : (w.spoil a).eng = w.eng := rfl
@[simp] theorem Work.spoil_mem (a : Nat) (w : Work) :
    (w.spoil a).port.mem = w.port.mem.writeBlock a (freeBlock w.port.freeCount a) := rfl
@[simp] theorem Work.spoil_map (a : Nat) (w : Work) : (w.spoil a).port.map = w.port.map := rfl
@[simp] theorem Work.spoil_trace (a : Nat) (w : Work) : (w.spoil a).port.trace = w.port.trace := rfl
@[simp] theorem Work.drawn_eng (w : Work) : w.drawn.eng = w.eng := rfl
@[simp] theorem Work.drawn_mem (w : Work) : w.drawn.port.mem = w.port.mem := rfl
@[simp] theorem Work.drawn_map (w : Work) : w.drawn.port.map = w.port.map := rfl
@[simp] theorem Work.drawn_cache (w : Work) : w.drawn.port.cache = w.port.cache := rfl
@[simp] theorem Work.drawn_unsure (w : Work) (x : Nat) : w.drawn.port.unsure x = w.port.unsure x := rfl
@[simp] theorem Work.drawn_trace (w : Work) : w.drawn.port.trace = w.port.trace := rfl

/-- What the engine's write does to the host's caches: the bytes not written back stay the same ones, and keep their
values outside the block. -/
theorem HostCache.overwritten_keys (n a : Nat) (c : HostCache) :
    (c.overwritten n a).dirty.map (·.1) = c.dirty.map (·.1) := by
  unfold HostCache.overwritten
  rw [List.map_map]
  refine List.map_congr_left fun x _ => ?_
  simp only [Function.comp_apply]
  split <;> rfl

theorem HostCache.overwritten_find (n a : Nat) (c : HostCache) (x : Nat) (h : x < a ∨ a + 16 ≤ x) :
    (c.overwritten n a).dirty.find x = c.dirty.find x := by
  unfold HostCache.overwritten
  show Memory.find (List.map _ c.dirty) x = _
  induction c.dirty with
  | nil => rfl
  | cons d m ih =>
    obtain ⟨k, v⟩ := d
    rw [List.map_cons]
    split
    · rename_i hk
      have hk : a ≤ k ∧ k < a + 16 := hk
      rw [Memory.find, Memory.find, if_neg (by omega), if_neg (by omega), ih]
    · rw [Memory.find, Memory.find, ih]

/-- Whether a byte is uncertain at the port depends only on which bytes the host has not written back. -/
theorem Port.unsure_congr {p q : Port} (hc : q.coherent = p.coherent)
    (hk : q.cache.dirty.map (·.1) = p.cache.dirty.map (·.1)) (x : Nat) : q.unsure x = p.unsure x := by
  unfold Port.unsure
  rw [hc]
  congr 1
  rw [Bool.eq_iff_iff, Memory.find_isSome_iff, Memory.find_isSome_iff, hk]

theorem Port.put_keys (a : Nat) (v : Block) (p : Port) :
    (p.put a v).cache.dirty.map (·.1) = p.cache.dirty.map (·.1) := by
  unfold Port.put
  simp only
  split
  · rfl
  · exact HostCache.overwritten_keys _ _ _

@[simp] theorem Work.put_unsure (a : Nat) (v : Block) (w : Work) (x : Nat) :
    (w.put a v).port.unsure x = w.port.unsure x :=
  Port.unsure_congr (p := w.port) (q := w.port.put a v) rfl (Port.put_keys a v w.port) x

/-- A block none of whose bytes is uncertain is read as memory holds it. -/
theorem Port.seenBlock_sure {p : Port} {a : Nat} (h : ∀ k, k < 16 → p.unsure (a + k) = false) :
    p.seenBlock a = p.mem.readBlock a := by
  apply Vector.ext
  intro k hk
  simp [Port.seenBlock, Memory.readBlock, h k hk]

@[simp] theorem Work.setKeysText_port (k : KeySchedule) (t : Text) (w : Work) : (w.setKeysText k t).port = w.port := rfl
@[simp] theorem Work.setText_port (j : Nat) (t : Block) (w : Work) : (w.setText j t).port = w.port := rfl
@[simp] theorem Work.setAB_port (a b : Block) (w : Work) : (w.setAB a b).port = w.port := rfl
@[simp] theorem Work.setC1_port (c : Block) (w : Work) : (w.setC1 c).port = w.port := rfl
@[simp] theorem Work.setI_port (I : Nat) (w : Work) : (w.setI I).port = w.port := rfl
@[simp] theorem Work.setFW_port (f : Bytes 200) (w : Work) : (w.setFW f).port = w.port := rfl
@[simp] theorem Work.setDW_port (d : Bytes 32) (w : Work) : (w.setDW d).port = w.port := rfl
@[simp] theorem Work.setText_ks (j : Nat) (t : Block) (w : Work) : (w.setText j t).eng.ks = w.eng.ks := rfl
@[simp] theorem Work.setText_text (j : Nat) (t : Block) (w : Work) :
    (w.setText j t).eng.text = w.eng.text.setIfInBounds j t := rfl
@[simp] theorem Work.setI_a (I : Nat) (w : Work) : (w.setI I).eng.a = w.eng.a := rfl
@[simp] theorem Work.setI_b (I : Nat) (w : Work) : (w.setI I).eng.b = w.eng.b := rfl
@[simp] theorem Work.setI_ks (I : Nat) (w : Work) : (w.setI I).eng.ks = w.eng.ks := rfl
@[simp] theorem Work.setI_text (I : Nat) (w : Work) : (w.setI I).eng.text = w.eng.text := rfl
@[simp] theorem Work.setC1_a (c : Block) (w : Work) : (w.setC1 c).eng.a = w.eng.a := rfl
@[simp] theorem Work.setC1_b (c : Block) (w : Work) : (w.setC1 c).eng.b = w.eng.b := rfl
@[simp] theorem Work.setC1_c1 (c : Block) (w : Work) : (w.setC1 c).eng.c1 = c := rfl
@[simp] theorem Work.setAB_a (a b : Block) (w : Work) : (w.setAB a b).eng.a = a := rfl
@[simp] theorem Work.setAB_b (a b : Block) (w : Work) : (w.setAB a b).eng.b = b := rfl
@[simp] theorem Work.setAB_c1 (a b : Block) (w : Work) : (w.setAB a b).eng.c1 = w.eng.c1 := rfl
@[simp] theorem Work.setKeysText_ks (k : KeySchedule) (t : Text) (w : Work) : (w.setKeysText k t).eng.ks = k := rfl
@[simp] theorem Work.setKeysText_text (k : KeySchedule) (t : Text) (w : Work) :
    (w.setKeysText k t).eng.text = t := rfl
@[simp] theorem Work.setFW_ks (f : Bytes 200) (w : Work) : (w.setFW f).eng.ks = w.eng.ks := rfl
@[simp] theorem Work.setFW_fw (f : Bytes 200) (w : Work) : (w.setFW f).eng.fw = f := rfl
@[simp] theorem Work.setDW_ks (d : Bytes 32) (w : Work) : (w.setDW d).eng.ks = w.eng.ks := rfl
@[simp] theorem Work.setDW_fw (d : Bytes 32) (w : Work) : (w.setDW d).eng.fw = w.eng.fw := rfl
@[simp] theorem Work.setDW_dw (d : Bytes 32) (w : Work) : (w.setDW d).eng.dw = d := rfl

@[simp] theorem Run.andThen_ok {α β : Type} (x : α) (w : Work) (f : α → Work → Run β) :
    (Run.ok x w).andThen f = f x w := rfl
@[simp] theorem Run.andThen_stop {α β : Type} (y : Stop) (w : Work) (f : α → Work → Run β) :
    (Run.stop y w : Run α).andThen f = .stop y w := rfl
@[simp] theorem Run.work_ok {α : Type} (x : α) (w : Work) : (Run.ok x w).work = w := rfl
@[simp] theorem Run.work_stop {α : Type} (y : Stop) (w : Work) : (Run.stop y w : Run α).work = w := rfl

theorem loop_zero (f : Nat → Work → Run Unit) (i : Nat) (w : Work) : loop f 0 i w = .ok () w := by rw [loop]

theorem loop_succ (f : Nat → Work → Run Unit) (n i : Nat) (w : Work) :
    loop f (n + 1) i w = (f i w).andThen fun _ w => loop f n (i + 1) w := by
  rw [loop]
  cases f i w <;> rfl

/-- A loop of a + b rounds is a loop of a rounds and then one of b. -/
theorem loop_add (f : Nat → Work → Run Unit) (a b : Nat) :
    ∀ (i : Nat) (w : Work), loop f (a + b) i w = (loop f a i w).andThen fun _ w => loop f b (i + a) w := by
  induction a with
  | zero => intro i w; simp [loop_zero]
  | succ a ih =>
    intro i w
    rw [show a + 1 + b = a + b + 1 by omega, loop_succ, loop_succ]
    cases f i w with
    | ok x w' => simp only [Run.andThen_ok]; rw [ih]; congr; funext; congr 1; omega
    | stop y w' => rfl

/-- A read, in all its cases: the internal registers and the memory are unchanged. -/
theorem portRead_cases (addr : Nat) (w : Work) :
    (replyAt w.port.map addr = .served ∧
      portRead addr w = .ok (w.port.seenBlock addr) (w.drawn.note (.read addr))) ∨
    (replyAt w.port.map addr = .busError ∧ portRead addr w = .stop (.fault .busErr) (w.drawn.note (.read addr))) ∨
    (replyAt w.port.map addr = .noAnswer ∧ portRead addr w = .stop .unanswered (w.drawn.note (.read addr))) := by
  unfold portRead
  cases replyAt w.port.map addr <;> simp

/-- A write, in all its cases. -/
theorem portWrite_cases (addr : Nat) (v : Block) (w : Work) :
    (replyAt w.port.map addr = .served ∧ portWrite addr v w = .ok () ((w.put addr v).note (.write addr v))) ∨
    (replyAt w.port.map addr = .busError ∧
      portWrite addr v w =
        .stop (.fault .busErr) ((w.spoil addr).note (.write addr (freeBlock w.port.freeCount addr)))) ∨
    (replyAt w.port.map addr = .noAnswer ∧
      portWrite addr v w =
        .stop .unanswered ((w.spoil addr).note (.write addr (freeBlock w.port.freeCount addr)))) := by
  unfold portWrite
  cases replyAt w.port.map addr <;> simp

theorem portRead_served (addr : Nat) (w : Work) (h : replyAt w.port.map addr = .served) :
    portRead addr w = .ok (w.port.seenBlock addr) (w.drawn.note (.read addr)) := by
  simp [portRead, h]

theorem portWrite_served (addr : Nat) (v : Block) (w : Work) (h : replyAt w.port.map addr = .served) :
    portWrite addr v w = .ok () ((w.put addr v).note (.write addr v)) := by
  simp [portWrite, h]

/-- What any piece of a scratchpad command may have done to the port: nothing outside the region at `base`, and only
whole aligned blocks of it. -/
structure Port.Within (base : Nat) (p p' : Port) : Prop where
  map_eq   : p'.map = p.map
  outside  : ∀ x, x < base ∨ base + Config.spSize ≤ x → p'.mem.byte x = p.mem.byte x
  wf       : p.mem.wf → p'.mem.wf
  below    : ∀ L, base + Config.spSize ≤ L → (∀ c ∈ p.mem, c.1 < L) → ∀ c ∈ p'.mem, c.1 < L
  trace    : ∃ es, p'.trace = es ++ p.trace ∧
    ∀ e ∈ es, ∀ a, e.address? = some a → ∃ n, n < Config.nBlocks ∧ a = base + 16 * n
  coh_eq   : p'.coherent = p.coherent
  keys     : p'.cache.dirty.map (·.1) = p.cache.dirty.map (·.1)
  kept     : ∀ x, x < base ∨ base + Config.spSize ≤ x → p'.cache.dirty.find x = p.cache.dirty.find x
  coherent : p.coherent = true → p'.cache = p.cache

/-- Which bytes are uncertain does not change. -/
theorem Port.Within.unsure {base : Nat} {p p' : Port} (h : Port.Within base p p') (x : Nat) :
    p'.unsure x = p.unsure x :=
  Port.unsure_congr h.coh_eq h.keys x

theorem Port.Within.dirtyWf {base : Nat} {p p' : Port} (h : Port.Within base p p') (hw : p.cache.dirty.wf) :
    p'.cache.dirty.wf := by
  rw [Memory.wf_iff] at hw ⊢
  rw [h.keys]; exact hw

theorem Port.Within.dirtyBelow {base : Nat} {p p' : Port} (h : Port.Within base p p') (L : Nat)
    (hw : ∀ c ∈ p.cache.dirty, c.1 < L) : ∀ c ∈ p'.cache.dirty, c.1 < L := by
  rw [Memory.below_iff] at hw ⊢
  rw [h.keys]; exact hw

theorem Port.Within.refl (base : Nat) (p : Port) : Port.Within base p p :=
  ⟨rfl, fun _ _ => rfl, id, fun _ _ h => h, ⟨[], rfl, by simp⟩, rfl, rfl, fun _ _ => rfl, fun _ => rfl⟩

theorem Port.Within.trans {base : Nat} {p q r : Port} (h : Port.Within base p q) (g : Port.Within base q r) :
    Port.Within base p r := by
  refine ⟨g.map_eq.trans h.map_eq, fun x hx => (g.outside x hx).trans (h.outside x hx), g.wf ∘ h.wf,
    fun L hL hc => g.below L hL (h.below L hL hc), ?_, g.coh_eq.trans h.coh_eq, g.keys.trans h.keys,
    fun x hx => (g.kept x hx).trans (h.kept x hx),
    fun hc => (g.coherent (h.coh_eq.trans hc)).trans (h.coherent hc)⟩
  obtain ⟨es, he, hes⟩ := h.trace
  obtain ⟨fs, hf, hfs⟩ := g.trace
  refine ⟨fs ++ es, by rw [hf, he, List.append_assoc], ?_⟩
  intro e hmem
  rcases List.mem_append.1 hmem with hm | hm
  · exact hfs e hm
  · exact hes e hm

/-- An event that stores nothing touches no memory. -/
theorem Port.note_within (base : Nat) (e : PortEvent) (p p' : Port)
    (h : ∀ a, e.address? = some a → ∃ n, n < Config.nBlocks ∧ a = base + 16 * n)
    (hp : p' = { p with freeCount := p'.freeCount, trace := e :: p.trace }) : Port.Within base p p' := by
  rw [hp]
  exact ⟨rfl, fun _ _ => rfl, id, fun _ _ h => h, ⟨[e], rfl, by simpa using h⟩, rfl, rfl, fun _ _ => rfl, fun _ => rfl⟩

/-- A call of an external unit touches no memory. -/
theorem Work.note_unit_within (base : Nat) (e : PortEvent) (w : Work) (h : e.address? = none) :
    Port.Within base w.port (w.note e).port :=
  Port.note_within base e _ _ (by simp [h]) rfl

theorem Port.put_within (base n : Nat) (v : Block) (p : Port) (hn : n < Config.nBlocks) :
    Port.Within base p ((p.put (base + 16 * n) v).note (.write (base + 16 * n) v)) := by
  have hn' : n < 131072 := hn
  refine ⟨rfl, ?_, ?_, ?_, ⟨[.write (base + 16 * n) v], rfl, ?_⟩, rfl, Port.put_keys _ v _, ?_, ?_⟩
  · intro x hx
    have hx' : x < base ∨ base + 2097152 ≤ x := hx
    exact Memory.byte_writeBlock_outside _ _ _ _ (by omega)
  · exact Memory.writeBlock_wf _ _ _
  · intro L hL h
    have hL' : base + 2097152 ≤ L := hL
    exact Memory.writeBlock_below L _ _ _ h (by omega)
  · simp only [List.mem_singleton, forall_eq, PortEvent.address?, Option.some.injEq, forall_eq']
    exact ⟨n, hn, rfl⟩
  · intro x hx
    have hx' : x < base ∨ base + 2097152 ≤ x := hx
    simp only [Port.note, Port.put]
    split
    · rfl
    · exact HostCache.overwritten_find _ _ _ _ (by omega)
  · intro hc
    simp [Port.note, Port.put, hc]

theorem portRead_within (base n : Nat) (w : Work) (hn : n < Config.nBlocks) :
    Port.Within base w.port (portRead (base + 16 * n) w).work.port := by
  have key : ∀ a, (PortEvent.read (base + 16 * n)).address? = some a → ∃ n, n < Config.nBlocks ∧ a = base + 16 * n := by
    simp only [PortEvent.address?, Option.some.injEq, forall_eq']
    exact ⟨n, hn, rfl⟩
  rcases portRead_cases (base + 16 * n) w with ⟨_, h⟩ | ⟨_, h⟩ | ⟨_, h⟩ <;> rw [h] <;>
    exact Port.note_within base _ _ _ key rfl

theorem portWrite_within (base n : Nat) (v : Block) (w : Work) (hn : n < Config.nBlocks) :
    Port.Within base w.port (portWrite (base + 16 * n) v w).work.port := by
  rcases portWrite_cases (base + 16 * n) v w with ⟨_, h⟩ | ⟨_, h⟩ | ⟨_, h⟩ <;> rw [h] <;>
    exact Port.put_within base n _ _ hn

/-- A reflexive and transitive relation that every round keeps holds across the loop, however it ends. -/
theorem loop_rel (R : Work → Work → Prop) (hrefl : ∀ w, R w w) (htrans : ∀ u v w, R u v → R v w → R u w)
    (f : Nat → Work → Run Unit) (n : Nat) :
    ∀ (i : Nat) (w : Work), (∀ k w, i ≤ k → k < i + n → R w (f k w).work) → R w (loop f n i w).work := by
  induction n with
  | zero => intro i w _; rw [loop_zero]; exact hrefl w
  | succ n ih =>
    intro i w hf
    rw [loop_succ]
    have h0 := hf i w (Nat.le_refl _) (by omega)
    cases hfi : f i w with
    | ok x w' =>
      rw [hfi] at h0
      exact htrans _ _ _ h0 (ih (i + 1) w' fun k w hk hk' => hf k w (by omega) (by omega))
    | stop y w' => rw [hfi] at h0; exact h0

theorem andThen_rel {α β : Type} (R : Work → Work → Prop) (htrans : ∀ u v w, R u v → R v w → R u w)
    (r : Run α) (f : α → Work → Run β) (w : Work) (hr : R w r.work) (hf : ∀ x w', R w' (f x w').work) :
    R w (r.andThen f).work := by
  cases r with
  | ok x w' => exact htrans _ _ _ hr (hf x w')
  | stop y w' => exact hr

/-- A loop whose every round completes and carries an invariant from `i` to `i + 1` completes with it. -/
theorem loop_ok (P : Nat → Work → Prop) (f : Nat → Work → Run Unit) (n : Nat) :
    ∀ (i : Nat) (w : Work), P i w →
      (∀ k w, i ≤ k → k < i + n → P k w → ∃ w', f k w = .ok () w' ∧ P (k + 1) w') →
      ∃ w', loop f n i w = .ok () w' ∧ P (i + n) w' := by
  induction n with
  | zero => intro i w h _; exact ⟨w, loop_zero f i w, h⟩
  | succ n ih =>
    intro i w h hf
    obtain ⟨w1, h1, hp⟩ := hf i w (Nat.le_refl _) (by omega) h
    obtain ⟨w2, h2, hq⟩ := ih (i + 1) w1 hp fun k w hk hk' => hf k w (by omega) (by omega)
    refine ⟨w2, ?_, by rw [show i + (n + 1) = i + 1 + n by omega]; exact hq⟩
    rw [loop_succ, h1]
    exact h2

end Sys2Proof.Machine
end

