-- ==== Sys2Proof/Laws/Phases.lean ====
section
/-! SUPPORT. The laws of the scratchpad commands' phases: what each can have done to the port however it ends, and
what each has computed when every access was served. -/

namespace Sys2Proof.Machine

/-! ### However a phase ends -/

theorem loop_within (base : Nat) (f : Nat → Work → Run Unit) (n i : Nat) (w : Work)
    (h : ∀ k w, i ≤ k → k < i + n → Port.Within base w.port (f k w).work.port) :
    Port.Within base w.port (loop f n i w).work.port :=
  loop_rel (fun u v => Port.Within base u.port v.port) (fun _ => .refl _ _) (fun _ _ _ => .trans) f n i w h

theorem andThen_within {α β : Type} (base : Nat) (r : Run α) (f : α → Work → Run β) (w : Work)
    (hr : Port.Within base w.port r.work.port) (hf : ∀ x w', Port.Within base w'.port (f x w').work.port) :
    Port.Within base w.port (r.andThen f).work.port :=
  andThen_rel (fun u v => Port.Within base u.port v.port) (fun _ _ _ => .trans) r f w hr hf

/-- What a write changes and a read does not: the memory and the host's caches. -/
def Port.held (p : Port) : Memory × HostCache := (p.mem, p.cache)

theorem portRead_held (addr : Nat) (w : Work) : (portRead addr w).work.port.held = w.port.held := by
  rcases portRead_cases addr w with ⟨_, h⟩ | ⟨_, h⟩ | ⟨_, h⟩ <;> rw [h] <;> rfl

theorem expandBlock_within (base I j : Nat) (w : Work) (h : 8 * I + j < Config.nBlocks) :
    Port.Within base w.port (expandBlock base I j w).work.port := by
  unfold expandBlock
  rw [blockOffset_eq, ← Work.setText_port j (pseudo10 (w.textAt j) w.eng.ks) w]
  exact portWrite_within base _ _ _ h

theorem expandChunk_within (base I : Nat) (w : Work) (h : I < Config.nChunks) :
    Port.Within base w.port (expandChunk base I w).work.port := by
  have h' : I < 16384 := h
  unfold expandChunk
  rw [← Work.setI_port I w]
  exact loop_within base _ 8 0 _ fun k w _ hk => expandBlock_within base I k w (show 8 * I + k < 131072 by omega)

theorem expandPhase_within (st : Bytes 200) (base : Nat) (w : Work) :
    Port.Within base w.port (expandPhase st base w).work.port := by
  unfold expandPhase expandStart
  rw [← Work.setKeysText_port (keyExp10 (slice st 0 32)) (textOf st) w]
  exact loop_within base _ _ 0 _ fun k w _ hk => expandChunk_within base k w (by omega)

theorem mixFirst_within (base : Nat) (w : Work) : Port.Within base w.port (mixFirst base w).work.port := by
  unfold mixFirst
  obtain ⟨n, hn, h⟩ := spIndex_block w.eng.a
  simp only [h]
  refine andThen_within base _ _ _ (portRead_within base n w hn) fun x w' => ?_
  rw [← Work.setC1_port (aesRound x w'.eng.a) w']
  exact portWrite_within base n _ _ hn

theorem mixSecond_within (base : Nat) (w : Work) : Port.Within base w.port (mixSecond base w).work.port := by
  unfold mixSecond
  obtain ⟨n, hn, h⟩ := spIndex_block w.eng.c1
  simp only [h]
  refine andThen_within base _ _ _ (portRead_within base n w hn) fun x w' => ?_
  refine andThen_within base _ _ _ (portWrite_within base n _ w' hn) fun _ w'' => ?_
  rw [Run.work_ok, Work.setAB_port]
  exact .refl _ _

theorem mixIteration_within (base I : Nat) (w : Work) :
    Port.Within base w.port (mixIteration base I w).work.port := by
  unfold mixIteration mixStep
  rw [← Work.setI_port I w]
  exact andThen_within base _ _ _ (mixFirst_within base _) fun _ w' => mixSecond_within base w'

theorem mixPhase_within (st : Bytes 200) (base : Nat) (w : Work) :
    Port.Within base w.port (mixPhase st base w).work.port := by
  unfold mixPhase mixStart
  rw [← Work.setAB_port (startA st) (startB st) w]
  exact loop_within base _ _ 0 _ fun k w _ _ => mixIteration_within base k w

theorem absorbBlock_within (base I j : Nat) (w : Work) (h : 8 * I + j < Config.nBlocks) :
    Port.Within base w.port (absorbBlock base I j w).work.port := by
  unfold absorbBlock
  rw [blockOffset_eq]
  refine andThen_within base _ _ _ (portRead_within base (8 * I + j) w h) fun x w' => ?_
  rw [Run.work_ok, Work.setText_port]
  exact .refl _ _

theorem absorbBlock_held (base I j : Nat) (w : Work) : (absorbBlock base I j w).work.port.held = w.port.held := by
  unfold absorbBlock
  refine andThen_rel (fun u v => v.port.held = u.port.held) (fun _ _ _ h g => g.trans h) _ _ w
    (portRead_held _ w) (fun x w' => ?_)
  simp only [Run.work_ok, Work.setText_port]

theorem absorbChunk_within (base I : Nat) (w : Work) (h : I < Config.nChunks) :
    Port.Within base w.port (absorbChunk base I w).work.port := by
  have h' : I < 16384 := h
  unfold absorbChunk
  rw [← Work.setI_port I w]
  exact loop_within base _ 8 0 _ fun k w _ hk => absorbBlock_within base I k w (show 8 * I + k < 131072 by omega)

theorem absorbPhase_within (st : Bytes 200) (base : Nat) (w : Work) :
    Port.Within base w.port (absorbPhase st base w).work.port := by
  unfold absorbPhase absorbStart
  refine andThen_within base _ _ w ?_ fun _ w' => by rw [Run.work_ok, Work.setFW_port]; exact .refl _ _
  rw [← Work.setKeysText_port (keyExp10 (slice st 32 32)) (textOf st) w]
  exact loop_within base _ _ 0 _ fun k w _ hk => absorbChunk_within base k w (by omega)

/-- The absorption writes no memory (R183), nor does it change the host's caches. -/
theorem absorbPhase_held (st : Bytes 200) (base : Nat) (w : Work) :
    (absorbPhase st base w).work.port.held = w.port.held := by
  have tr : ∀ u v x : Work, v.port.held = u.port.held → x.port.held = v.port.held → x.port.held = u.port.held :=
    fun _ _ _ h g => g.trans h
  unfold absorbPhase absorbStart
  refine andThen_rel (fun u v => v.port.held = u.port.held) tr _ _ w ?_ (fun _ w' => by rw [Run.work_ok, Work.setFW_port])
  rw [← Work.setKeysText_port (keyExp10 (slice st 32 32)) (textOf st) w]
  refine loop_rel (fun u v => v.port.held = u.port.held) (fun _ => rfl) tr _ _ 0 _ fun k w _ _ => ?_
  unfold absorbChunk
  rw [← Work.setI_port k w]
  exact loop_rel (fun u v => v.port.held = u.port.held) (fun _ => rfl) tr _ 8 0 _ fun j w _ _ => absorbBlock_held base k j w

theorem absorbPhase_mem (st : Bytes 200) (base : Nat) (w : Work) :
    (absorbPhase st base w).work.port.mem = w.port.mem :=
  congrArg Prod.fst (absorbPhase_held st base w)

theorem absorbPhase_cache (st : Bytes 200) (base : Nat) (w : Work) :
    (absorbPhase st base w).work.port.cache = w.port.cache :=
  congrArg Prod.snd (absorbPhase_held st base w)

theorem permuteWork_within (base : Nat) (u : PermUnit) (f : Bytes 200) (w : Work) :
    Port.Within base w.port (permuteWork u f w).port := by
  unfold permuteWork
  rw [← Work.setFW_port (permPort u f) w]
  exact Work.note_unit_within base .permute _ rfl

theorem selectWork_within (base : Nat) (f : Bytes 200) (w : Work) :
    Port.Within base w.port (selectWork f w).port := by
  unfold selectWork
  rw [← Work.setDW_port (Config.hashPort (hashOf (selector f)) f) w]
  exact Work.note_unit_within base (.hash (hashOf (selector f))) _ rfl

theorem runPhase_within (u : PermUnit) (st : Bytes 200) (base : Nat) (w : Work) :
    Port.Within base w.port (runPhase u st base w).work.port := by
  unfold runPhase
  refine andThen_within base _ _ w (expandPhase_within st base w) fun _ w => ?_
  refine andThen_within base _ _ w (mixPhase_within st base w) fun _ w => ?_
  refine andThen_within base _ _ w (absorbPhase_within st base w) fun _ w => ?_
  exact .trans (permuteWork_within base u _ w) (selectWork_within base _ _)

/-- A checked body that fails its check has touched nothing. -/
theorem checked_within (s : State) (body : Work → Run Unit)
    (h : ∀ w, Port.Within s.spBase w.port (body w).work.port) :
    Port.Within s.spBase s.port (checked s body).work.port := by
  unfold checked
  cases checkDescriptor s with
  | none => exact h s.work
  | some c => exact .refl _ _

theorem expandRun_within (s : State) : Port.Within s.spBase s.port (expandRun s).work.port :=
  checked_within s _ (expandPhase_within s.st s.spBase)
theorem mixRun_within (s : State) : Port.Within s.spBase s.port (mixRun s).work.port :=
  checked_within s _ (mixPhase_within s.st s.spBase)
theorem absorbRun_within (s : State) : Port.Within s.spBase s.port (absorbRun s).work.port :=
  checked_within s _ (absorbPhase_within s.st s.spBase)
theorem runRun_within (s : State) : Port.Within s.spBase s.port (runRun s).work.port :=
  checked_within s _ (runPhase_within s.permUnit s.st s.spBase)

/-! ### When every access is served -/

/-- The expansion's writes of the first n blocks, newest first (R69). -/
def expandTrace (st : Bytes 200) (base : Nat) : Nat → List PortEvent
  | 0 => []
  | n + 1 => .write (base + 16 * n) (expandedBlock st n) :: expandTrace st base n

/-- The absorption's reads of the first n blocks, newest first (R71). -/
def absorbTrace (base : Nat) : Nat → List PortEvent
  | 0 => []
  | n + 1 => .read (base + 16 * n) :: absorbTrace base n

theorem expandTrace_eq (st : Bytes 200) (base n : Nat) :
    expandTrace st base n =
      ((List.range n).map fun m => PortEvent.write (base + 16 * m) (expandedBlock st m)).reverse := by
  induction n with
  | zero => rfl
  | succ n ih => simp [expandTrace, List.range_succ, ih]

theorem absorbTrace_eq (base n : Nat) :
    absorbTrace base n = ((List.range n).map fun m => PortEvent.read (base + 16 * m)).reverse := by
  induction n with
  | zero => rfl
  | succ n ih => simp [absorbTrace, List.range_succ, ih]

theorem Work.textAt_eq (j : Nat) (h : j < 8) (w : Work) : w.textAt j = w.eng.text[j] := by
  simp [Work.textAt, Vector.getD, h]

/-- After the expansion has written blocks 0 .. n-1, starting from `w0`. -/
structure ExpandedUpTo (st : Bytes 200) (base : Nat) (w0 : Work) (n : Nat) (w : Work) : Prop where
  ks        : w.eng.ks = keyExp10 (slice st 0 32)
  text      : ∀ j (_ : j < 8),
    w.eng.text[j] = pseudo10Pow ((n + 7 - j) / 8) ((textOf st)[j]) (keyExp10 (slice st 0 32))
  map_eq    : w.port.map = w0.port.map
  written   : ∀ m, m < n → spBlock w.port.mem base m = expandedBlock st m
  untouched : ∀ x, x < base ∨ base + 16 * n ≤ x → w.port.mem.byte x = w0.port.mem.byte x
  trace     : w.port.trace = expandTrace st base n ++ w0.port.trace

theorem expandStart_upTo (st : Bytes 200) (base : Nat) (w : Work) :
    ExpandedUpTo st base w 0 (expandStart st w) := by
  refine ⟨rfl, ?_, rfl, by simp, fun _ _ => rfl, rfl⟩
  intro j hj
  have : (0 + 7 - j) / 8 = 0 := by omega
  rw [this]
  rfl

/-- The block the expansion writes next. -/
theorem ExpandedUpTo.next_block {st : Bytes 200} {base I j : Nat} {w0 w : Work} (hj : j < 8)
    (h : ExpandedUpTo st base w0 (8 * I + j) w) :
    pseudo10 (w.textAt j) w.eng.ks = expandedBlock st (8 * I + j) := by
  rw [Work.textAt_eq _ hj, h.text j hj, h.ks, show (8 * I + j + 7 - j) / 8 = I by omega]
  simp only [expandedBlock, show (8 * I + j) / 8 = I by omega, show (8 * I + j) % 8 = j by omega, pseudo10Pow]

theorem ExpandedUpTo.setI {st : Bytes 200} {base n : Nat} {w0 w : Work} (I : Nat)
    (h : ExpandedUpTo st base w0 n w) : ExpandedUpTo st base w0 n (w.setI I) :=
  ⟨h.ks, h.text, h.map_eq, h.written, h.untouched, h.trace⟩

theorem expandBlock_ok {st : Bytes 200} {base I j : Nat} {w0 w : Work} (hj : j < 8)
    (h : ExpandedUpTo st base w0 (8 * I + j) w)
    (hs : replyAt w0.port.map (base + 16 * (8 * I + j)) = .served) :
    ∃ w', expandBlock base I j w = .ok () w' ∧ ExpandedUpTo st base w0 (8 * I + j + 1) w' := by
  unfold expandBlock
  rw [h.next_block hj, blockOffset_eq, portWrite_served _ _ _ (by rw [Work.setText_port, h.map_eq]; exact hs)]
  refine ⟨_, rfl, ?_, ?_, ?_, ?_, ?_, ?_⟩
  · simpa using h.ks
  · intro k hk
    simp only [Work.note_eng, Work.put_eng, Work.setText_text]
    rw [Vector.getElem_setIfInBounds hk]
    split
    · rename_i hkj
      subst hkj
      rw [show (8 * I + j + 1 + 7 - j) / 8 = I + 1 by omega]
      simp only [expandedBlock, show (8 * I + j) / 8 = I by omega, show (8 * I + j) % 8 = j by omega]
    · rename_i hkj
      rw [h.text k hk, show (8 * I + j + 1 + 7 - k) / 8 = (8 * I + j + 7 - k) / 8 by omega]
  · simpa using h.map_eq
  · intro m hm
    simp only [Work.note_mem, Work.put_mem, Work.setText_port, spBlock]
    by_cases hmn : m = 8 * I + j
    · subst hmn
      exact Memory.readBlock_writeBlock_same _ _ _
    · rw [Memory.readBlock_writeBlock_other _ _ _ _ (by omega)]
      exact h.written m (by omega)
  · intro x hx
    simp only [Work.note_mem, Work.put_mem, Work.setText_port]
    rw [Memory.byte_writeBlock_outside _ _ _ _ (by omega)]
    exact h.untouched x (by omega)
  · simp [expandTrace, h.trace]

/-- The chunk's first n blocks. -/
theorem expandBlocks_ok {st : Bytes 200} {base I n : Nat} {w0 w : Work} (hn : n ≤ 8)
    (h : ExpandedUpTo st base w0 (8 * I) w)
    (hs : ∀ m, m < 8 * I + n → replyAt w0.port.map (base + 16 * m) = .served) :
    ∃ w', loop (expandBlock base I) n 0 w = .ok () w' ∧ ExpandedUpTo st base w0 (8 * I + n) w' := by
  obtain ⟨w', h1, h2⟩ := loop_ok (fun j w => ExpandedUpTo st base w0 (8 * I + j) w) (expandBlock base I) n 0 w h
    fun k w _ hk hp => expandBlock_ok (by omega) hp (hs _ (by omega))
  exact ⟨w', h1, by simpa using h2⟩

theorem expandChunk_ok {st : Bytes 200} {base I : Nat} {w0 w : Work} (h : ExpandedUpTo st base w0 (8 * I) w)
    (hs : ∀ m, m < 8 * I + 8 → replyAt w0.port.map (base + 16 * m) = .served) :
    ∃ w', expandChunk base I w = .ok () w' ∧ ExpandedUpTo st base w0 (8 * (I + 1)) w' :=
  expandBlocks_ok (Nat.le_refl 8) (h.setI I) hs

/-- The first N chunks. -/
theorem expandChunks_ok (st : Bytes 200) (base N : Nat) (w0 : Work)
    (hs : ∀ m, m < 8 * N → replyAt w0.port.map (base + 16 * m) = .served) :
    ∃ w', loop (expandChunk base) N 0 (expandStart st w0) = .ok () w' ∧ ExpandedUpTo st base w0 (8 * N) w' := by
  obtain ⟨w', h1, h2⟩ := loop_ok (fun I w => ExpandedUpTo st base w0 (8 * I) w) (expandChunk base) N 0 _
    (expandStart_upTo st base w0) fun k w _ hk hp => expandChunk_ok hp fun m hm => hs m (by omega)
  exact ⟨w', h1, by simpa using h2⟩

/-- The whole expansion (R141, R142). -/
theorem expandPhase_ok (st : Bytes 200) (base : Nat) (w0 : Work)
    (hs : ∀ m, m < Config.nBlocks → replyAt w0.port.map (base + 16 * m) = .served) :
    ∃ w', expandPhase st base w0 = .ok () w' ∧ ExpandedUpTo st base w0 Config.nBlocks w' :=
  expandChunks_ok st base Config.nChunks w0 hs

/-- The mixer's working registers and blocks, as a view of the work; no byte of the region is uncertain. -/
structure Shows (base : Nat) (v : MixView) (w : Work) : Prop where
  a    : w.eng.a = v.a
  b    : w.eng.b = v.b
  sp   : ∀ n, n < Config.nBlocks → spBlock w.port.mem base n = v.sp n
  sure : ∀ x, base ≤ x → x < base + Config.spSize → w.port.unsure x = false

/-- A block of a region with no uncertain byte is read as memory holds it. -/
theorem seenBlock_region {p : Port} {base n : Nat} (hn : n < Config.nBlocks)
    (h : ∀ x, base ≤ x → x < base + Config.spSize → p.unsure x = false) :
    p.seenBlock (base + 16 * n) = spBlock p.mem base n := by
  have hn' : n < 131072 := hn
  exact Port.seenBlock_sure fun k hk => h _ (by omega) (show _ < base + 2097152 by omega)

theorem seenBlock_spIndex {p : Port} {base : Nat} (c : Block)
    (h : ∀ x, base ≤ x → x < base + Config.spSize → p.unsure x = false) :
    p.seenBlock (base + spIndex c) = spBlock p.mem base (spIndex c / 16) := by
  rw [← seenBlock_region (spIndex_div_lt c) h, spIndex_div_mul]

/-- The accesses of one iteration are served. -/
def MixView.Served (base : Nat) (map : List PortRange) (v : MixView) : Prop :=
  replyAt map (base + spIndex v.a) = .served ∧ replyAt map (base + spIndex v.c1) = .served

theorem MixView.served_of_all {base : Nat} {map : List PortRange}
    (hs : ∀ m, m < Config.nBlocks → replyAt map (base + 16 * m) = .served) (v : MixView) : v.Served base map := by
  constructor
  · have := hs _ (spIndex_div_lt v.a); rwa [spIndex_div_mul] at this
  · have := hs _ (spIndex_div_lt v.c1); rwa [spIndex_div_mul] at this

theorem spBlock_writeBlock (m : Memory) (base n k : Nat) (v : Block) :
    spBlock (m.writeBlock (base + 16 * k) v) base n = if n = k then v else spBlock m base n := by
  unfold spBlock
  split
  · rename_i h; subst h; exact Memory.readBlock_writeBlock_same _ _ _
  · exact Memory.readBlock_writeBlock_other _ _ _ _ (by omega)

theorem spBlock_write_spIndex (m : Memory) (base n : Nat) (c v : Block) :
    spBlock (m.writeBlock (base + spIndex c) v) base n = if n = spIndex c / 16 then v else spBlock m base n := by
  rw [← spIndex_div_mul c, spBlock_writeBlock, spIndex_div_mul]

/-- The work after the first half of an iteration with its two accesses served. -/
def mixFirstWork (base : Nat) (v : MixView) (w : Work) : Work :=
  (((w.drawn.note (.read (base + spIndex v.a))).setC1 v.c1).put (base + spIndex v.a) (bxor v.c1 v.b)).note
    (.write (base + spIndex v.a) (bxor v.c1 v.b))

theorem mixFirst_ok {base : Nat} {v : MixView} {w : Work} (h : Shows base v w)
    (hs : replyAt w.port.map (base + spIndex v.a) = .served) : mixFirst base w = .ok () (mixFirstWork base v w) := by
  have r1 : w.port.seenBlock (base + spIndex v.a) = v.sp (spIndex v.a / 16) := by
    rw [seenBlock_spIndex _ h.sure, h.sp _ (spIndex_div_lt _)]
  unfold mixFirst
  simp only [h.a]
  rw [portRead_served _ _ hs, Run.andThen_ok]
  simp only [Work.note_eng, Work.drawn_eng, h.a, h.b]
  rw [r1, portWrite_served _ _ _ (by simpa using hs)]
  rfl

/-- After the first half the blocks are `v.mid`, and the internal registers are as the second half reads them. -/
theorem mixFirstWork_shows {base : Nat} {v : MixView} {w : Work} (h : Shows base v w) :
    (mixFirstWork base v w).eng.a = v.a ∧ (mixFirstWork base v w).eng.c1 = v.c1 ∧
    (∀ n, n < Config.nBlocks → spBlock (mixFirstWork base v w).port.mem base n = v.mid n) ∧
    (∀ x, (mixFirstWork base v w).port.unsure x = w.port.unsure x) := by
  refine ⟨by simpa [mixFirstWork] using h.a, rfl, fun n hn => ?_, fun x => by simp [mixFirstWork]⟩
  simp only [mixFirstWork, Work.note_mem, Work.drawn_mem, Work.put_mem, Work.setC1_port, spBlock_write_spIndex,
    MixView.mid, putBlock]
  split
  · rfl
  · exact h.sp n hn

/-- One iteration of the mixer with its four accesses served (R70, R158). -/
theorem mixStep_ok {base : Nat} {v : MixView} {w : Work} (h : Shows base v w) (hs : v.Served base w.port.map) :
    ∃ w', mixStep base w = .ok () w' ∧ Shows base v.step w' ∧ w'.port.map = w.port.map ∧
      w'.port.trace = (v.accesses base).reverse ++ w.port.trace := by
  obtain ⟨ea, ec, esp, eu⟩ := mixFirstWork_shows h
  unfold mixStep
  rw [mixFirst_ok h hs.1, Run.andThen_ok]
  have em : (mixFirstWork base v w).port.map = w.port.map := by simp [mixFirstWork]
  have et : (mixFirstWork base v w).port.trace = .write (base + spIndex v.a) (bxor v.c1 v.b) ::
      .read (base + spIndex v.a) :: w.port.trace := by simp [mixFirstWork]
  generalize mixFirstWork base v w = w1 at ea ec esp eu em et
  have esure : ∀ x, base ≤ x → x < base + Config.spSize → w1.port.unsure x = false :=
    fun x h1 h2 => (eu x).trans (h.sure x h1 h2)
  unfold mixSecond
  simp only [ec]
  rw [portRead_served _ _ (by rw [em]; exact hs.2), Run.andThen_ok, seenBlock_spIndex _ esure,
    esp _ (spIndex_div_lt _)]
  simp only [Work.note_eng, Work.drawn_eng, ea, ec]
  rw [portWrite_served _ _ _ (by rw [Work.note_map, Work.drawn_map, em]; exact hs.2), Run.andThen_ok]
  refine ⟨_, rfl, ⟨?_, ?_, ?_, ?_⟩, ?_, ?_⟩
  · exact Work.setAB_a _ _ _
  · simp only [Work.setAB_b, Work.note_eng, Work.put_eng, Work.drawn_eng, ec, MixView.step]
  · intro n hn
    simp only [Work.setAB_port, Work.note_mem, Work.put_mem, Work.drawn_mem, spBlock_write_spIndex, esp n hn,
      MixView.step, putBlock, MixView.sum, MixView.y]
  · intro x h1 h2
    simpa using esure x h1 h2
  · simpa using em
  · simp only [Work.setAB_port, Work.note_trace, Work.put_trace, Work.drawn_trace, et]
    rfl

/-- An iteration whose first read is not served ends there, with nothing written (R216). -/
theorem mixStep_first_fails {base : Nat} {v : MixView} {w : Work} (h : Shows base v w)
    (hs : replyAt w.port.map (base + spIndex v.a) = .busError) :
    mixStep base w = .stop (.fault .busErr) (w.drawn.note (.read (base + spIndex v.a))) := by
  unfold mixStep mixFirst
  simp only [h.a, portRead, hs, Run.andThen_stop]

/-- An iteration whose second read is not served ends there, with the first write done (R216). -/
theorem mixStep_second_fails {base : Nat} {v : MixView} {w : Work} (h : Shows base v w)
    (hs : replyAt w.port.map (base + spIndex v.a) = .served)
    (hb : replyAt w.port.map (base + spIndex v.c1) = .busError) :
    mixStep base w =
      .stop (.fault .busErr) ((mixFirstWork base v w).drawn.note (.read (base + spIndex v.c1))) := by
  obtain ⟨-, ec, -, -⟩ := mixFirstWork_shows h
  have em : (mixFirstWork base v w).port.map = w.port.map := by simp [mixFirstWork]
  unfold mixStep
  rw [mixFirst_ok h hs, Run.andThen_ok]
  unfold mixSecond
  simp only [ec, portRead, em, hb, Run.andThen_stop]

theorem Shows.setI {base : Nat} {v : MixView} {w : Work} (I : Nat) (h : Shows base v w) :
    Shows base v (w.setI I) :=
  ⟨by simpa using h.a, by simpa using h.b, by simpa using h.sp, by simpa using h.sure⟩

theorem MixView.steps_zero (v : MixView) : MixView.steps 0 v = v := rfl

theorem MixView.steps_succ (n : Nat) (v : MixView) : MixView.steps (n + 1) v = (MixView.steps n v).step := rfl

/-- n iterations of the mixer with every access served. -/
theorem mixIterations_ok {base : Nat} {v : MixView} {w : Work} (n : Nat) (h : Shows base v w)
    (hs : ∀ k, k < n → (MixView.steps k v).Served base w.port.map) :
    ∃ w', loop (mixIteration base) n 0 w = .ok () w' ∧ Shows base (MixView.steps n v) w' ∧
      w'.port.map = w.port.map ∧ w'.port.trace.length = 4 * n + w.port.trace.length := by
  obtain ⟨w', h1, h2⟩ := loop_ok
    (fun k u => Shows base (MixView.steps k v) u ∧ u.port.map = w.port.map ∧
      u.port.trace.length = 4 * k + w.port.trace.length)
    (mixIteration base) n 0 w ⟨by rw [MixView.steps_zero]; exact h, rfl, by simp⟩ (by
      rintro k u - hk ⟨p1, p2, p4⟩
      obtain ⟨u', q1, q2, q3, q5⟩ := mixStep_ok (p1.setI k) (by simpa [p2] using hs k (by omega))
      refine ⟨u', q1, by rw [MixView.steps_succ]; exact q2, ?_, ?_⟩
      · rw [q3, Work.setI_port, p2]
      · rw [q5, List.length_append, Work.setI_port, p4]
        simp [MixView.accesses]
        omega)
  rw [Nat.zero_add] at h2
  exact ⟨w', h1, h2⟩

/-- The mixer at its start shows R159's A and B. -/
theorem mixStart_shows (st : Bytes 200) (base : Nat) (w : Work) (sp : Nat → Block)
    (hsp : ∀ n, n < Config.nBlocks → spBlock w.port.mem base n = sp n)
    (hu : ∀ x, base ≤ x → x < base + Config.spSize → w.port.unsure x = false) :
    Shows base (mixViewStart st sp) (mixStart st w) := by
  refine ⟨?_, ?_, by simpa [mixStart, mixViewStart] using hsp, by simpa [mixStart] using hu⟩
  · apply Vector.ext
    intro k hk
    simp [mixStart, mixViewStart, startA, bxor, slice]
  · apply Vector.ext
    intro k hk
    simp [mixStart, mixViewStart, startB, bxor, slice]

theorem mixedBlocks_view (n : Nat) (v : MixView) : mixedBlocks n v.a v.b v.sp = (MixView.steps n v).sp := rfl

/-- The blocks after MIX, with R159's A and B written out. -/
theorem mixedBlock_eq (st : Bytes 200) (sp : Nat → Block) : mixedBlock st sp =
    mixedBlocks 524288 (Vector.ofFn fun k : Fin 16 => st[k.val] ^^^ st[32 + k.val])
      (Vector.ofFn fun k : Fin 16 => st[16 + k.val] ^^^ st[48 + k.val]) sp := by
  rw [mixedBlock]
  rfl

/-- The whole mixing (R159). -/
theorem mixPhase_ok (st : Bytes 200) (base : Nat) (w : Work) (sp : Nat → Block)
    (hsp : ∀ n, n < Config.nBlocks → spBlock w.port.mem base n = sp n)
    (hu : ∀ x, base ≤ x → x < base + Config.spSize → w.port.unsure x = false)
    (hs : ∀ m, m < Config.nBlocks → replyAt w.port.map (base + 16 * m) = .served) :
    ∃ w', mixPhase st base w = .ok () w' ∧
      (∀ n, n < Config.nBlocks → spBlock w'.port.mem base n = mixedBlock st sp n) ∧
      w'.port.map = w.port.map ∧ w'.port.trace.length = 4 * Config.mixIter + w.port.trace.length := by
  obtain ⟨w', h1, h2, h3, h5⟩ := mixIterations_ok Config.mixIter (mixStart_shows st base w sp hsp hu)
    fun k _ => MixView.served_of_all (by simpa [mixStart] using hs) _
  refine ⟨w', h1, fun n hn => ?_, h3, h5⟩
  have e := h2.sp n hn
  rw [← mixedBlocks_view] at e
  rw [mixedBlock]
  exact e

/-- After the absorption has read blocks 0 .. n-1, starting from `w0`. -/
structure AbsorbedUpTo (st : Bytes 200) (base : Nat) (sp : Nat → Block) (w0 : Work) (n : Nat) (w : Work) : Prop where
  ks       : w.eng.ks = keyExp10 (slice st 32 32)
  text     : ∀ j (_ : j < 8),
    w.eng.text[j] = absorbLane (keyExp10 (slice st 32 32)) sp j ((textOf st)[j]) ((n + 7 - j) / 8)
  map_eq   : w.port.map = w0.port.map
  mem_eq   : w.port.mem = w0.port.mem
  sure_eq  : ∀ x, w.port.unsure x = w0.port.unsure x
  trace    : w.port.trace = absorbTrace base n ++ w0.port.trace

theorem absorbLane_zero (ks : KeySchedule) (sp : Nat → Block) (j : Nat) (x : Block) :
    absorbLane ks sp j x 0 = x := rfl

theorem absorbLane_succ (ks : KeySchedule) (sp : Nat → Block) (j I : Nat) (x : Block) :
    absorbLane ks sp j x (I + 1) = pseudo10 (bxor (absorbLane ks sp j x I) (sp (8 * I + j))) ks := rfl

theorem absorbStart_upTo (st : Bytes 200) (base : Nat) (sp : Nat → Block) (w : Work) :
    AbsorbedUpTo st base sp w 0 (absorbStart st w) := by
  refine ⟨rfl, ?_, rfl, rfl, fun _ => rfl, rfl⟩
  intro j hj
  rw [show (0 + 7 - j) / 8 = 0 by omega, absorbLane_zero]
  rfl

theorem AbsorbedUpTo.setI {st : Bytes 200} {base n : Nat} {sp : Nat → Block} {w0 w : Work} (I : Nat)
    (h : AbsorbedUpTo st base sp w0 n w) : AbsorbedUpTo st base sp w0 n (w.setI I) :=
  ⟨h.ks, h.text, h.map_eq, h.mem_eq, h.sure_eq, h.trace⟩

theorem absorbBlock_ok {st : Bytes 200} {base I j : Nat} {sp : Nat → Block} {w0 w : Work} (hj : j < 8)
    (h : AbsorbedUpTo st base sp w0 (8 * I + j) w)
    (hI : 8 * I + j < Config.nBlocks) (hsp : spBlock w0.port.mem base (8 * I + j) = sp (8 * I + j))
    (hu : ∀ x, base ≤ x → x < base + Config.spSize → w0.port.unsure x = false)
    (hs : replyAt w0.port.map (base + 16 * (8 * I + j)) = .served) :
    ∃ w', absorbBlock base I j w = .ok () w' ∧ AbsorbedUpTo st base sp w0 (8 * I + j + 1) w' := by
  have hb : w.port.seenBlock (base + 16 * (8 * I + j)) = sp (8 * I + j) := by
    rw [seenBlock_region hI fun x h1 h2 => (h.sure_eq x).trans (hu x h1 h2), h.mem_eq]; exact hsp
  unfold absorbBlock
  rw [blockOffset_eq, portRead_served _ _ (by rw [h.map_eq]; exact hs), Run.andThen_ok, hb]
  refine ⟨_, rfl, ?_, ?_, ?_, ?_, ?_, ?_⟩
  · simpa using h.ks
  · intro k hk
    simp only [Work.setText_text, Work.note_eng, Work.drawn_eng]
    rw [Vector.getElem_setIfInBounds hk]
    split
    · rename_i hkj
      subst hkj
      rw [show (8 * I + j + 1 + 7 - j) / 8 = I + 1 by omega, absorbLane_succ, Work.textAt_eq _ hj, Work.note_eng,
        Work.drawn_eng, h.text j hj, h.ks, show (8 * I + j + 7 - j) / 8 = I by omega]
    · rename_i hkj
      rw [h.text k hk, show (8 * I + j + 1 + 7 - k) / 8 = (8 * I + j + 7 - k) / 8 by omega]
  · simpa using h.map_eq
  · simpa using h.mem_eq
  · simpa using h.sure_eq
  · simp [absorbTrace, h.trace]

theorem absorbChunk_ok {st : Bytes 200} {base I : Nat} {sp : Nat → Block} {w0 w : Work}
    (h : AbsorbedUpTo st base sp w0 (8 * I) w) (hI : I < Config.nChunks)
    (hsp : ∀ m, m < 8 * I + 8 → spBlock w0.port.mem base m = sp m)
    (hu : ∀ x, base ≤ x → x < base + Config.spSize → w0.port.unsure x = false)
    (hs : ∀ m, m < 8 * I + 8 → replyAt w0.port.map (base + 16 * m) = .served) :
    ∃ w', absorbChunk base I w = .ok () w' ∧ AbsorbedUpTo st base sp w0 (8 * (I + 1)) w' := by
  have hI' : I < 16384 := hI
  obtain ⟨w', h1, h2⟩ := loop_ok (fun j w => AbsorbedUpTo st base sp w0 (8 * I + j) w) (absorbBlock base I) 8 0 _
    (h.setI I) fun k w _ hk hp =>
      absorbBlock_ok (by omega) hp (show 8 * I + k < 131072 by omega) (hsp _ (by omega)) hu (hs _ (by omega))
  exact ⟨w', h1, h2⟩

/-- The whole absorption (R181, R184). -/
theorem absorbPhase_ok (st : Bytes 200) (base : Nat) (w0 : Work) (sp : Nat → Block)
    (hsp : ∀ n, n < Config.nBlocks → spBlock w0.port.mem base n = sp n)
    (hu : ∀ x, base ≤ x → x < base + Config.spSize → w0.port.unsure x = false)
    (hs : ∀ m, m < Config.nBlocks → replyAt w0.port.map (base + 16 * m) = .served) :
    ∃ w', absorbPhase st base w0 = .ok () w' ∧ w'.eng.fw = absorbed st sp ∧
      w'.eng.ks = keyExp10 (slice st 32 32) ∧ w'.port.map = w0.port.map ∧ w'.port.mem = w0.port.mem ∧
      w'.port.trace = absorbTrace base Config.nBlocks ++ w0.port.trace := by
  obtain ⟨w', h1, h2⟩ := loop_ok (fun I w => AbsorbedUpTo st base sp w0 (8 * I) w) (absorbChunk base) Config.nChunks 0
    _ (absorbStart_upTo st base sp w0) fun k w _ hk hp =>
      have hk' : k < 0 + 16384 := hk
      absorbChunk_ok hp (show k < 16384 by omega) (fun m hm => hsp m (show m < 131072 by omega)) hu
        fun m hm => hs m (show m < 131072 by omega)
  have hend : AbsorbedUpTo st base sp w0 Config.nBlocks w' := h2
  refine ⟨w'.setFW (absorbedState st w'.eng.text), ?_, ?_, ?_, ?_, ?_, ?_⟩
  · unfold absorbPhase
    rw [h1, Run.andThen_ok]
  · rw [Work.setFW_fw]
    unfold absorbed absorbedText
    congr 1
    apply Vector.ext
    intro j hj
    rw [hend.text j hj, show (Config.nBlocks + 7 - j) / 8 = Config.nChunks by unfold Config.nBlocks Config.nChunks; omega]
    simp
  · simpa using hend.ks
  · simpa using hend.map_eq
  · simpa using hend.mem_eq
  · simpa using hend.trace

/-- One block of the absorption with its read served, whatever it brings (R71). -/
theorem absorbBlock_reads {base I j : Nat} {w0 w : Work} (hm : w.port.map = w0.port.map)
    (ht : w.port.trace = absorbTrace base (8 * I + j) ++ w0.port.trace)
    (hs : replyAt w0.port.map (base + 16 * (8 * I + j)) = .served) :
    ∃ w', absorbBlock base I j w = .ok () w' ∧ w'.port.map = w0.port.map ∧
      w'.port.trace = absorbTrace base (8 * I + j + 1) ++ w0.port.trace := by
  unfold absorbBlock
  rw [blockOffset_eq, portRead_served _ _ (by rw [hm]; exact hs), Run.andThen_ok]
  exact ⟨_, rfl, by simpa using hm, by simp [absorbTrace, ht]⟩

/-- The absorption's reads, whatever they bring: it completes, having read each block once in order (R71). -/
theorem absorbPhase_reads (st : Bytes 200) (base : Nat) (w0 : Work)
    (hs : ∀ m, m < Config.nBlocks → replyAt w0.port.map (base + 16 * m) = .served) :
    ∃ w', absorbPhase st base w0 = .ok () w' ∧ w'.port.map = w0.port.map ∧
      w'.port.trace = absorbTrace base Config.nBlocks ++ w0.port.trace := by
  let P : Nat → Work → Prop := fun n w => w.port.map = w0.port.map ∧
    w.port.trace = absorbTrace base n ++ w0.port.trace
  obtain ⟨w', h1, h2⟩ := loop_ok (fun I w => P (8 * I) w) (absorbChunk base) Config.nChunks 0 (absorbStart st w0)
    ⟨rfl, rfl⟩ fun I w _ hI hp => by
      have hI' : I < 0 + 16384 := hI
      exact loop_ok (fun j w => P (8 * I + j) w) (absorbBlock base I) 8 0 (w.setI I) hp fun j w _ hj hp =>
        absorbBlock_reads hp.1 hp.2 (hs _ (show 8 * I + j < 131072 by omega))
  refine ⟨w'.setFW (absorbedState st w'.eng.text), ?_, h2.1, h2.2⟩
  unfold absorbPhase
  rw [h1, Run.andThen_ok]

/-- The whole pipeline (R196): what RUN commits is a function of ST alone. -/
theorem runPhase_ok (u : PermUnit) (st : Bytes 200) (base : Nat) (w : Work)
    (hu : ∀ x, base ≤ x → x < base + Config.spSize → w.port.unsure x = false)
    (hs : ∀ m, m < Config.nBlocks → replyAt w.port.map (base + 16 * m) = .served) :
    ∃ w', runPhase u st base w = .ok () w' ∧ w'.eng.ks = keyExp10 (slice st 32 32) ∧
      w'.eng.fw = finalState u st ∧
      w'.eng.dw = Config.hashPort (hashOf (selector (finalState u st))) (finalState u st) ∧
      (∀ n, n < Config.nBlocks → spBlock w'.port.mem base n = mixedBlock st (expandedBlock st) n) ∧
      w'.port.map = w.port.map := by
  obtain ⟨w1, a1, a2⟩ := expandPhase_ok st base w hs
  have ha := expandPhase_within st base w
  rw [a1, Run.work_ok] at ha
  have hu1 := fun x h1 h2 => (ha.unsure x).trans (hu x h1 h2)
  obtain ⟨w2, b1, b2, b3, -⟩ := mixPhase_ok st base w1 (expandedBlock st) a2.written hu1 (by rw [a2.map_eq]; exact hs)
  have hb := mixPhase_within st base w1
  rw [b1, Run.work_ok] at hb
  obtain ⟨w3, c1, c2, c3, c4, c5, -⟩ := absorbPhase_ok st base w2 (mixedBlock st (expandedBlock st)) b2
    (fun x h1 h2 => (hb.unsure x).trans (hu1 x h1 h2)) (by rw [b3, a2.map_eq]; exact hs)
  refine ⟨selectWork (permuteWork u w3.eng.fw w3).eng.fw (permuteWork u w3.eng.fw w3), ?_, ?_, ?_, ?_, ?_, ?_⟩
  · unfold runPhase
    rw [a1, Run.andThen_ok, b1, Run.andThen_ok, c1, Run.andThen_ok]
  · simpa [selectWork, permuteWork] using c3
  · simp [selectWork, permuteWork, c2, finalState]
  · simp [selectWork, permuteWork, c2, finalState]
  · simpa [selectWork, permuteWork, c5] using b2
  · simp [selectWork, permuteWork, c4, b3, a2.map_eq]

end Sys2Proof.Machine
end

