-- ==== Sys2Proof/Laws/BusErrors.lean ====
section
/-! SUPPORT. How a phase ends whose first access that is not served ends in a bus error (60_exceptions.md rule R216):
what was done before it is done, and nothing after it. -/

namespace Sys2Proof.Machine

/-- A loop whose first k rounds complete, carrying an invariant, and whose next round stops. -/
theorem loop_stop (P : Nat → Work → Prop) (Q : Work → Prop) (f : Nat → Work → Run Unit) (y : Stop) {n k : Nat}
    (hk : k < n) (w : Work) (h0 : P 0 w)
    (hok : ∀ j w, j < k → P j w → ∃ w', f j w = .ok () w' ∧ P (j + 1) w')
    (hstop : ∀ w, P k w → ∃ v, f k w = .stop y v ∧ Q v) : ∃ v, loop f n 0 w = .stop y v ∧ Q v := by
  obtain ⟨w1, h1, hp⟩ := loop_ok P f k 0 w h0 fun j w _ hj hp => hok j w (by omega) hp
  rw [Nat.zero_add] at hp
  obtain ⟨v, hv, hq⟩ := hstop w1 hp
  refine ⟨v, ?_, hq⟩
  rw [show n = k + ((n - k - 1) + 1) by omega, loop_add, h1, Run.andThen_ok, Nat.zero_add, loop_succ, hv]
  rfl

/-- The port after a write at `addr` that was not served: some block is there. -/
def Port.Spoiled (addr : Nat) (p q : Port) : Prop := ∃ x, q = (p.put addr x).note (.write addr x)

theorem portWrite_fails {addr : Nat} {v : Block} {w : Work} (h : replyAt w.port.map addr = .busError) :
    ∃ u, portWrite addr v w = .stop (.fault .busErr) u ∧ Port.Spoiled addr w.port u.port := by
  rcases portWrite_cases addr v w with ⟨e, _⟩ | ⟨_, e⟩ | ⟨e, _⟩
  · simp [e] at h
  · exact ⟨_, e, freeBlock w.port.freeCount addr, rfl⟩
  · simp [e] at h

/-- The expansion when the write of block n is the first that is not served. -/
theorem expandPhase_fails {st : Bytes 200} {base n : Nat} {w0 : Work} (hn : n < Config.nBlocks)
    (hs : ∀ m, m < n → replyAt w0.port.map (base + 16 * m) = .served)
    (hb : replyAt w0.port.map (base + 16 * n) = .busError) :
    ∃ v, expandPhase st base w0 = .stop (.fault .busErr) v ∧
      ∃ w, ExpandedUpTo st base w0 n w ∧ Port.Spoiled (base + 16 * n) w.port v.port := by
  have hn' : n < 131072 := hn
  have e : 8 * (n / 8) + n % 8 = n := Nat.div_add_mod n 8
  refine loop_stop (fun I w => ExpandedUpTo st base w0 (8 * I) w) _ (expandChunk base) _
    (show n / 8 < 16384 by omega) _ (expandStart_upTo st base w0)
    (fun I w hI hp => expandChunk_ok hp fun m hm => hs m (by omega)) fun w hp => ?_
  refine loop_stop (fun j w => ExpandedUpTo st base w0 (8 * (n / 8) + j) w) _ (expandBlock base (n / 8)) _
    (show n % 8 < 8 by omega) _ (hp.setI (n / 8))
    (fun j w hj hp => expandBlock_ok (by omega) hp (hs _ (by omega))) fun w hp => ?_
  rw [e] at hp
  unfold expandBlock
  rw [blockOffset_eq, e]
  obtain ⟨u, h1, h2⟩ := portWrite_fails (w := w.setText (n % 8) (pseudo10 (w.textAt (n % 8)) w.eng.ks))
    (v := pseudo10 (w.textAt (n % 8)) w.eng.ks) (addr := base + 16 * n) (by rw [Work.setText_port, hp.map_eq]; exact hb)
  exact ⟨u, h1, w, hp, h2⟩

/-- The absorption when the read of block n is the first that is not served. -/
theorem absorbPhase_fails {st : Bytes 200} {base n : Nat} {w0 : Work} (hn : n < Config.nBlocks)
    (hs : ∀ m, m < n → replyAt w0.port.map (base + 16 * m) = .served)
    (hb : replyAt w0.port.map (base + 16 * n) = .busError) :
    ∃ v, absorbPhase st base w0 = .stop (.fault .busErr) v ∧
      v.port.trace = .read (base + 16 * n) :: (absorbTrace base n ++ w0.port.trace) := by
  have hn' : n < 131072 := hn
  have e : 8 * (n / 8) + n % 8 = n := Nat.div_add_mod n 8
  let P : Nat → Work → Prop := fun n w => w.port.map = w0.port.map ∧
    w.port.trace = absorbTrace base n ++ w0.port.trace
  have block : ∀ I j w, 8 * I + j < n → P (8 * I + j) w →
      ∃ w', absorbBlock base I j w = .ok () w' ∧ P (8 * I + j + 1) w' :=
    fun I j w h hp => absorbBlock_reads hp.1 hp.2 (hs _ h)
  have h : ∃ v, loop (absorbChunk base) Config.nChunks 0 (absorbStart st w0) = .stop (.fault .busErr) v ∧
      v.port.trace = .read (base + 16 * n) :: (absorbTrace base n ++ w0.port.trace) := by
    refine loop_stop (fun I w => P (8 * I) w) _ (absorbChunk base) _ (show n / 8 < 16384 by omega) _ ⟨rfl, rfl⟩
      (fun I w hI hp => ?_) fun w hp => ?_
    · exact loop_ok (fun j w => P (8 * I + j) w) (absorbBlock base I) 8 0 (w.setI I) hp fun j w _ hj hp =>
        block I j w (by omega) hp
    · refine loop_stop (fun j w => P (8 * (n / 8) + j) w) _ (absorbBlock base (n / 8)) _ (show n % 8 < 8 by omega) _ hp
        (fun j w hj hp => block _ j w (by omega) hp) fun w hp => ?_
      rw [e] at hp
      unfold absorbBlock
      rw [blockOffset_eq, e]
      refine ⟨_, by simp only [portRead, hp.1, hb, Run.andThen_stop]; rfl, ?_⟩
      rw [Work.note_trace, Work.drawn_trace, hp.2]
  obtain ⟨v, h1, h2⟩ := h
  refine ⟨v, ?_, h2⟩
  unfold absorbPhase
  rw [h1, Run.andThen_stop]

/-- The state of the mixing before an iteration, every earlier access served. -/
structure MixedUpTo (base : Nat) (v : MixView) (w0 : Work) (K : Nat) (w : Work) : Prop where
  shows  : Shows base (MixView.steps K v) w
  map_eq : w.port.map = w0.port.map
  trace  : w.port.trace.length = 4 * K + w0.port.trace.length

/-- The mixing when an iteration is the first that stops: what that iteration leaves is what the command leaves. -/
theorem mixPhase_fails {st : Bytes 200} {base K : Nat} {w0 : Work} {sp : Nat → Block} {Q : Work → Prop}
    (hK : K < Config.mixIter)
    (hsp : ∀ n, n < Config.nBlocks → spBlock w0.port.mem base n = sp n)
    (hu : ∀ x, base ≤ x → x < base + Config.spSize → w0.port.unsure x = false)
    (hs : ∀ k, k < K → (MixView.steps k (mixViewStart st sp)).Served base w0.port.map)
    (hstop : ∀ w, MixedUpTo base (mixViewStart st sp) w0 K w →
      ∃ v, mixStep base w = .stop (.fault .busErr) v ∧ Q v) :
    ∃ v, mixPhase st base w0 = .stop (.fault .busErr) v ∧ Q v := by
  refine loop_stop (MixedUpTo base (mixViewStart st sp) w0) Q (mixIteration base) _ hK _
    ⟨mixStart_shows st base w0 sp hsp hu, rfl, by simp [mixStart]⟩ (fun k w hk hp => ?_)
    fun w hp => hstop (w.setI K) ⟨hp.shows.setI K, by simpa using hp.map_eq, by simpa using hp.trace⟩
  obtain ⟨w', q1, q2, q3, q4⟩ := mixStep_ok (hp.shows.setI k) (by simpa [hp.map_eq] using hs k hk)
  refine ⟨w', q1, q2, by rw [q3, Work.setI_port, hp.map_eq], ?_⟩
  rw [q4, List.length_append, Work.setI_port, hp.trace]
  simp [MixView.accesses]
  omega

end Sys2Proof.Machine
end

