-- ==== Sys2Proof/Laws/State.lean ====
section
/-! SUPPORT. One lemma per field per shared update of State, each true by unfolding once, so that no later proof unfolds a
record update. -/

namespace Sys2Proof.Machine

@[simp] theorem State.work_eng (s : State) : s.work.eng = s.eng := rfl
@[simp] theorem State.work_port (s : State) : s.work.port = s.port := rfl

@[simp] theorem complete_regBase (s : State) : (complete s).regBase = s.regBase := rfl
@[simp] theorem complete_accelBuild (s : State) : (complete s).accelBuild = s.accelBuild := rfl
@[simp] theorem complete_hwCapPin (s : State) : (complete s).hwCapPin = s.hwCapPin := rfl
@[simp] theorem complete_permUnit (s : State) : (complete s).permUnit = s.permUnit := rfl
@[simp] theorem complete_hwCap (s : State) : (complete s).hwCap = s.hwCap := rfl
@[simp] theorem complete_ph (s : State) : (complete s).ph = (.idle : Phase) := rfl
@[simp] theorem complete_done (s : State) : (complete s).done = true := rfl
@[simp] theorem complete_faulted (s : State) : (complete s).faulted = s.faulted := rfl
@[simp] theorem complete_ovr (s : State) : (complete s).ovr = s.ovr := rfl
@[simp] theorem complete_sel (s : State) : (complete s).sel = s.sel := rfl
@[simp] theorem complete_selv (s : State) : (complete s).selv = s.selv := rfl
@[simp] theorem complete_lastop (s : State) : (complete s).lastop = s.lastop := rfl
@[simp] theorem complete_code (s : State) : (complete s).code = s.code := rfl
@[simp] theorem complete_fop (s : State) : (complete s).fop = s.fop := rfl
@[simp] theorem complete_spBaseLo (s : State) : (complete s).spBaseLo = s.spBaseLo := rfl
@[simp] theorem complete_spBaseHi (s : State) : (complete s).spBaseHi = s.spBaseHi := rfl
@[simp] theorem complete_spLen (s : State) : (complete s).spLen = s.spLen := rfl
@[simp] theorem complete_st (s : State) : (complete s).st = s.st := rfl
@[simp] theorem complete_digest (s : State) : (complete s).digest = s.digest := rfl
@[simp] theorem complete_rin (s : State) : (complete s).rin = s.rin := rfl
@[simp] theorem complete_rkey (s : State) : (complete s).rkey = s.rkey := rfl
@[simp] theorem complete_rout (s : State) : (complete s).rout = s.rout := rfl
@[simp] theorem complete_rk (s : State) : (complete s).rk = s.rk := rfl
@[simp] theorem complete_fst (s : State) : (complete s).fst = s.fst := rfl
@[simp] theorem complete_eng (s : State) : (complete s).eng = s.eng := rfl
@[simp] theorem complete_port (s : State) : (complete s).port = s.port := rfl
@[simp] theorem complete_moves (s : State) : (complete s).moves = s.moves := rfl
@[simp] theorem complete_readback (s : State) : (complete s).readback = s.readback := rfl

@[simp] theorem faultEntry_regBase (s : State) (c : FaultCode) : (faultEntry c s).regBase = s.regBase := rfl
@[simp] theorem faultEntry_accelBuild (s : State) (c : FaultCode) : (faultEntry c s).accelBuild = s.accelBuild := rfl
@[simp] theorem faultEntry_hwCapPin (s : State) (c : FaultCode) : (faultEntry c s).hwCapPin = s.hwCapPin := rfl
@[simp] theorem faultEntry_permUnit (s : State) (c : FaultCode) : (faultEntry c s).permUnit = s.permUnit := rfl
@[simp] theorem faultEntry_hwCap (s : State) (c : FaultCode) : (faultEntry c s).hwCap = s.hwCap := rfl
@[simp] theorem faultEntry_ph (s : State) (c : FaultCode) : (faultEntry c s).ph = (.idle : Phase) := rfl
@[simp] theorem faultEntry_done (s : State) (c : FaultCode) : (faultEntry c s).done = false := rfl
@[simp] theorem faultEntry_faulted (s : State) (c : FaultCode) : (faultEntry c s).faulted = true := rfl
@[simp] theorem faultEntry_ovr (s : State) (c : FaultCode) : (faultEntry c s).ovr = s.ovr := rfl
@[simp] theorem faultEntry_sel (s : State) (c : FaultCode) : (faultEntry c s).sel = s.sel := rfl
@[simp] theorem faultEntry_selv (s : State) (c : FaultCode) : (faultEntry c s).selv = s.selv := rfl
@[simp] theorem faultEntry_lastop (s : State) (c : FaultCode) : (faultEntry c s).lastop = s.lastop := rfl
@[simp] theorem faultEntry_code (s : State) (c : FaultCode) : (faultEntry c s).code = c := rfl
@[simp] theorem faultEntry_fop (s : State) (c : FaultCode) : (faultEntry c s).fop = s.eng.cw.extractLsb' 0 8 := rfl
@[simp] theorem faultEntry_spBaseLo (s : State) (c : FaultCode) : (faultEntry c s).spBaseLo = s.spBaseLo := rfl
@[simp] theorem faultEntry_spBaseHi (s : State) (c : FaultCode) : (faultEntry c s).spBaseHi = s.spBaseHi := rfl
@[simp] theorem faultEntry_spLen (s : State) (c : FaultCode) : (faultEntry c s).spLen = s.spLen := rfl
@[simp] theorem faultEntry_st (s : State) (c : FaultCode) : (faultEntry c s).st = s.st := rfl
@[simp] theorem faultEntry_digest (s : State) (c : FaultCode) : (faultEntry c s).digest = s.digest := rfl
@[simp] theorem faultEntry_rin (s : State) (c : FaultCode) : (faultEntry c s).rin = s.rin := rfl
@[simp] theorem faultEntry_rkey (s : State) (c : FaultCode) : (faultEntry c s).rkey = s.rkey := rfl
@[simp] theorem faultEntry_rout (s : State) (c : FaultCode) : (faultEntry c s).rout = s.rout := rfl
@[simp] theorem faultEntry_rk (s : State) (c : FaultCode) : (faultEntry c s).rk = s.rk := rfl
@[simp] theorem faultEntry_fst (s : State) (c : FaultCode) : (faultEntry c s).fst = s.fst := rfl
@[simp] theorem faultEntry_eng (s : State) (c : FaultCode) : (faultEntry c s).eng = s.eng := rfl
@[simp] theorem faultEntry_port (s : State) (c : FaultCode) : (faultEntry c s).port = s.port := rfl
@[simp] theorem faultEntry_moves (s : State) (c : FaultCode) : (faultEntry c s).moves = s.moves := rfl
@[simp] theorem faultEntry_readback (s : State) (c : FaultCode) : (faultEntry c s).readback = s.readback := rfl

@[simp] theorem withWork_regBase (s : State) (w : Work) : (s.withWork w).regBase = s.regBase := rfl
@[simp] theorem withWork_accelBuild (s : State) (w : Work) : (s.withWork w).accelBuild = s.accelBuild := rfl
@[simp] theorem withWork_hwCapPin (s : State) (w : Work) : (s.withWork w).hwCapPin = s.hwCapPin := rfl
@[simp] theorem withWork_permUnit (s : State) (w : Work) : (s.withWork w).permUnit = s.permUnit := rfl
@[simp] theorem withWork_hwCap (s : State) (w : Work) : (s.withWork w).hwCap = s.hwCap := rfl
@[simp] theorem withWork_ph (s : State) (w : Work) : (s.withWork w).ph = s.ph := rfl
@[simp] theorem withWork_done (s : State) (w : Work) : (s.withWork w).done = s.done := rfl
@[simp] theorem withWork_faulted (s : State) (w : Work) : (s.withWork w).faulted = s.faulted := rfl
@[simp] theorem withWork_ovr (s : State) (w : Work) : (s.withWork w).ovr = s.ovr := rfl
@[simp] theorem withWork_sel (s : State) (w : Work) : (s.withWork w).sel = s.sel := rfl
@[simp] theorem withWork_selv (s : State) (w : Work) : (s.withWork w).selv = s.selv := rfl
@[simp] theorem withWork_lastop (s : State) (w : Work) : (s.withWork w).lastop = s.lastop := rfl
@[simp] theorem withWork_code (s : State) (w : Work) : (s.withWork w).code = s.code := rfl
@[simp] theorem withWork_fop (s : State) (w : Work) : (s.withWork w).fop = s.fop := rfl
@[simp] theorem withWork_spBaseLo (s : State) (w : Work) : (s.withWork w).spBaseLo = s.spBaseLo := rfl
@[simp] theorem withWork_spBaseHi (s : State) (w : Work) : (s.withWork w).spBaseHi = s.spBaseHi := rfl
@[simp] theorem withWork_spLen (s : State) (w : Work) : (s.withWork w).spLen = s.spLen := rfl
@[simp] theorem withWork_st (s : State) (w : Work) : (s.withWork w).st = s.st := rfl
@[simp] theorem withWork_digest (s : State) (w : Work) : (s.withWork w).digest = s.digest := rfl
@[simp] theorem withWork_rin (s : State) (w : Work) : (s.withWork w).rin = s.rin := rfl
@[simp] theorem withWork_rkey (s : State) (w : Work) : (s.withWork w).rkey = s.rkey := rfl
@[simp] theorem withWork_rout (s : State) (w : Work) : (s.withWork w).rout = s.rout := rfl
@[simp] theorem withWork_rk (s : State) (w : Work) : (s.withWork w).rk = s.rk := rfl
@[simp] theorem withWork_fst (s : State) (w : Work) : (s.withWork w).fst = s.fst := rfl
@[simp] theorem withWork_eng (s : State) (w : Work) : (s.withWork w).eng = w.eng := rfl
@[simp] theorem withWork_port (s : State) (w : Work) : (s.withWork w).port = w.port := rfl
@[simp] theorem withWork_moves (s : State) (w : Work) : (s.withWork w).moves = s.moves := rfl
@[simp] theorem withWork_readback (s : State) (w : Work) : (s.withWork w).readback = s.readback := rfl

@[simp] theorem latchCommand_regBase (s : State) (w : Word) : (latchCommand w s).regBase = s.regBase := rfl
@[simp] theorem latchCommand_accelBuild (s : State) (w : Word) : (latchCommand w s).accelBuild = s.accelBuild := rfl
@[simp] theorem latchCommand_hwCapPin (s : State) (w : Word) : (latchCommand w s).hwCapPin = s.hwCapPin := rfl
@[simp] theorem latchCommand_permUnit (s : State) (w : Word) : (latchCommand w s).permUnit = s.permUnit := rfl
@[simp] theorem latchCommand_hwCap (s : State) (w : Word) : (latchCommand w s).hwCap = s.hwCap := rfl
@[simp] theorem latchCommand_ph (s : State) (w : Word) : (latchCommand w s).ph = (.exec : Phase) := rfl
@[simp] theorem latchCommand_done (s : State) (w : Word) : (latchCommand w s).done = false := rfl
@[simp] theorem latchCommand_faulted (s : State) (w : Word) : (latchCommand w s).faulted = s.faulted := rfl
@[simp] theorem latchCommand_ovr (s : State) (w : Word) : (latchCommand w s).ovr = s.ovr := rfl
@[simp] theorem latchCommand_sel (s : State) (w : Word) : (latchCommand w s).sel = s.sel := rfl
@[simp] theorem latchCommand_selv (s : State) (w : Word) : (latchCommand w s).selv = s.selv := rfl
@[simp] theorem latchCommand_lastop (s : State) (w : Word) : (latchCommand w s).lastop = w.extractLsb' 0 8 := rfl
@[simp] theorem latchCommand_code (s : State) (w : Word) : (latchCommand w s).code = s.code := rfl
@[simp] theorem latchCommand_fop (s : State) (w : Word) : (latchCommand w s).fop = s.fop := rfl
@[simp] theorem latchCommand_spBaseLo (s : State) (w : Word) : (latchCommand w s).spBaseLo = s.spBaseLo := rfl
@[simp] theorem latchCommand_spBaseHi (s : State) (w : Word) : (latchCommand w s).spBaseHi = s.spBaseHi := rfl
@[simp] theorem latchCommand_spLen (s : State) (w : Word) : (latchCommand w s).spLen = s.spLen := rfl
@[simp] theorem latchCommand_st (s : State) (w : Word) : (latchCommand w s).st = s.st := rfl
@[simp] theorem latchCommand_digest (s : State) (w : Word) : (latchCommand w s).digest = s.digest := rfl
@[simp] theorem latchCommand_rin (s : State) (w : Word) : (latchCommand w s).rin = s.rin := rfl
@[simp] theorem latchCommand_rkey (s : State) (w : Word) : (latchCommand w s).rkey = s.rkey := rfl
@[simp] theorem latchCommand_rout (s : State) (w : Word) : (latchCommand w s).rout = s.rout := rfl
@[simp] theorem latchCommand_rk (s : State) (w : Word) : (latchCommand w s).rk = s.rk := rfl
@[simp] theorem latchCommand_fst (s : State) (w : Word) : (latchCommand w s).fst = s.fst := rfl
@[simp] theorem latchCommand_eng (s : State) (w : Word) : (latchCommand w s).eng = { s.eng with cw := w } := rfl
@[simp] theorem latchCommand_port (s : State) (w : Word) :
    (latchCommand w s).port = { s.port with trace := [] } := rfl
@[simp] theorem latchCommand_moves (s : State) (w : Word) : (latchCommand w s).moves = s.moves := rfl
@[simp] theorem latchCommand_readback (s : State) (w : Word) : (latchCommand w s).readback = s.readback := rfl

@[simp] theorem dropWrite_regBase (s : State) : (dropWrite s).regBase = s.regBase := rfl
@[simp] theorem dropWrite_accelBuild (s : State) : (dropWrite s).accelBuild = s.accelBuild := rfl
@[simp] theorem dropWrite_hwCapPin (s : State) : (dropWrite s).hwCapPin = s.hwCapPin := rfl
@[simp] theorem dropWrite_permUnit (s : State) : (dropWrite s).permUnit = s.permUnit := rfl
@[simp] theorem dropWrite_hwCap (s : State) : (dropWrite s).hwCap = s.hwCap := rfl
@[simp] theorem dropWrite_ph (s : State) : (dropWrite s).ph = s.ph := rfl
@[simp] theorem dropWrite_done (s : State) : (dropWrite s).done = s.done := rfl
@[simp] theorem dropWrite_faulted (s : State) : (dropWrite s).faulted = s.faulted := rfl
@[simp] theorem dropWrite_ovr (s : State) : (dropWrite s).ovr = true := rfl
@[simp] theorem dropWrite_sel (s : State) : (dropWrite s).sel = s.sel := rfl
@[simp] theorem dropWrite_selv (s : State) : (dropWrite s).selv = s.selv := rfl
@[simp] theorem dropWrite_lastop (s : State) : (dropWrite s).lastop = s.lastop := rfl
@[simp] theorem dropWrite_code (s : State) : (dropWrite s).code = s.code := rfl
@[simp] theorem dropWrite_fop (s : State) : (dropWrite s).fop = s.fop := rfl
@[simp] theorem dropWrite_spBaseLo (s : State) : (dropWrite s).spBaseLo = s.spBaseLo := rfl
@[simp] theorem dropWrite_spBaseHi (s : State) : (dropWrite s).spBaseHi = s.spBaseHi := rfl
@[simp] theorem dropWrite_spLen (s : State) : (dropWrite s).spLen = s.spLen := rfl
@[simp] theorem dropWrite_st (s : State) : (dropWrite s).st = s.st := rfl
@[simp] theorem dropWrite_digest (s : State) : (dropWrite s).digest = s.digest := rfl
@[simp] theorem dropWrite_rin (s : State) : (dropWrite s).rin = s.rin := rfl
@[simp] theorem dropWrite_rkey (s : State) : (dropWrite s).rkey = s.rkey := rfl
@[simp] theorem dropWrite_rout (s : State) : (dropWrite s).rout = s.rout := rfl
@[simp] theorem dropWrite_rk (s : State) : (dropWrite s).rk = s.rk := rfl
@[simp] theorem dropWrite_fst (s : State) : (dropWrite s).fst = s.fst := rfl
@[simp] theorem dropWrite_eng (s : State) : (dropWrite s).eng = s.eng := rfl
@[simp] theorem dropWrite_port (s : State) : (dropWrite s).port = s.port := rfl
@[simp] theorem dropWrite_moves (s : State) : (dropWrite s).moves = s.moves := rfl
@[simp] theorem dropWrite_readback (s : State) : (dropWrite s).readback = s.readback := rfl

@[simp] theorem softReset_regBase (s : State) : (softReset s).regBase = s.regBase := rfl
@[simp] theorem softReset_accelBuild (s : State) : (softReset s).accelBuild = s.accelBuild := rfl
@[simp] theorem softReset_hwCapPin (s : State) : (softReset s).hwCapPin = s.hwCapPin := rfl
@[simp] theorem softReset_permUnit (s : State) : (softReset s).permUnit = s.permUnit := rfl
@[simp] theorem softReset_hwCap (s : State) : (softReset s).hwCap = s.hwCap := rfl
@[simp] theorem softReset_ph (s : State) : (softReset s).ph = Phase.idle := rfl
@[simp] theorem softReset_done (s : State) : (softReset s).done = false := rfl
@[simp] theorem softReset_faulted (s : State) : (softReset s).faulted = false := rfl
@[simp] theorem softReset_ovr (s : State) : (softReset s).ovr = false := rfl
@[simp] theorem softReset_sel (s : State) : (softReset s).sel = 0 := rfl
@[simp] theorem softReset_selv (s : State) : (softReset s).selv = false := rfl
@[simp] theorem softReset_lastop (s : State) : (softReset s).lastop = 0 := rfl
@[simp] theorem softReset_code (s : State) : (softReset s).code = .noFault := rfl
@[simp] theorem softReset_fop (s : State) : (softReset s).fop = 0 := rfl
@[simp] theorem softReset_spBaseLo (s : State) : (softReset s).spBaseLo = 0 := rfl
@[simp] theorem softReset_spBaseHi (s : State) : (softReset s).spBaseHi = 0 := rfl
@[simp] theorem softReset_spLen (s : State) : (softReset s).spLen = 0 := rfl
@[simp] theorem softReset_st (s : State) : (softReset s).st = Vector.replicate 200 0 := rfl
@[simp] theorem softReset_digest (s : State) : (softReset s).digest = Vector.replicate 32 0 := rfl
@[simp] theorem softReset_rin (s : State) : (softReset s).rin = Vector.replicate 16 0 := rfl
@[simp] theorem softReset_rkey (s : State) : (softReset s).rkey = Vector.replicate 16 0 := rfl
@[simp] theorem softReset_rout (s : State) : (softReset s).rout = Vector.replicate 16 0 := rfl
@[simp] theorem softReset_rk (s : State) : (softReset s).rk = Vector.replicate 10 (Vector.replicate 16 0) := rfl
@[simp] theorem softReset_fst (s : State) : (softReset s).fst = Vector.replicate 200 0 := rfl
@[simp] theorem softReset_eng (s : State) : (softReset s).eng = s.eng := rfl
@[simp] theorem softReset_port (s : State) : (softReset s).port = s.port := rfl
@[simp] theorem softReset_moves (s : State) : (softReset s).moves = s.moves := rfl
@[simp] theorem softReset_readback (s : State) : (softReset s).readback = s.readback := rfl

@[simp] theorem hardReset_regBase (s : State) (k : Nat) (b : Bool) :
    (hardReset k b s).regBase = s.regBase := rfl
@[simp] theorem hardReset_accelBuild (s : State) (k : Nat) (b : Bool) :
    (hardReset k b s).accelBuild = s.accelBuild := rfl
@[simp] theorem hardReset_hwCapPin (s : State) (k : Nat) (b : Bool) :
    (hardReset k b s).hwCapPin = s.hwCapPin := rfl
@[simp] theorem hardReset_permUnit (s : State) (k : Nat) (b : Bool) :
    (hardReset k b s).permUnit = s.permUnit := rfl
@[simp] theorem hardReset_hwCap (s : State) (k : Nat) (b : Bool) :
    (hardReset k b s).hwCap = s.hwCapPin := rfl
@[simp] theorem hardReset_ph (s : State) (k : Nat) (b : Bool) :
    (hardReset k b s).ph = Phase.idle := rfl
@[simp] theorem hardReset_done (s : State) (k : Nat) (b : Bool) :
    (hardReset k b s).done = false := rfl
@[simp] theorem hardReset_faulted (s : State) (k : Nat) (b : Bool) :
    (hardReset k b s).faulted = false := rfl
@[simp] theorem hardReset_ovr (s : State) (k : Nat) (b : Bool) :
    (hardReset k b s).ovr = false := rfl
@[simp] theorem hardReset_sel (s : State) (k : Nat) (b : Bool) :
    (hardReset k b s).sel = 0 := rfl
@[simp] theorem hardReset_selv (s : State) (k : Nat) (b : Bool) :
    (hardReset k b s).selv = false := rfl
@[simp] theorem hardReset_lastop (s : State) (k : Nat) (b : Bool) :
    (hardReset k b s).lastop = 0 := rfl
@[simp] theorem hardReset_code (s : State) (k : Nat) (b : Bool) :
    (hardReset k b s).code = .noFault := rfl
@[simp] theorem hardReset_fop (s : State) (k : Nat) (b : Bool) :
    (hardReset k b s).fop = 0 := rfl
@[simp] theorem hardReset_spBaseLo (s : State) (k : Nat) (b : Bool) :
    (hardReset k b s).spBaseLo = 0 := rfl
@[simp] theorem hardReset_spBaseHi (s : State) (k : Nat) (b : Bool) :
    (hardReset k b s).spBaseHi = 0 := rfl
@[simp] theorem hardReset_spLen (s : State) (k : Nat) (b : Bool) :
    (hardReset k b s).spLen = 0 := rfl
@[simp] theorem hardReset_st (s : State) (k : Nat) (b : Bool) :
    (hardReset k b s).st = Vector.replicate 200 0 := rfl
@[simp] theorem hardReset_digest (s : State) (k : Nat) (b : Bool) :
    (hardReset k b s).digest = Vector.replicate 32 0 := rfl
@[simp] theorem hardReset_rin (s : State) (k : Nat) (b : Bool) :
    (hardReset k b s).rin = Vector.replicate 16 0 := rfl
@[simp] theorem hardReset_rkey (s : State) (k : Nat) (b : Bool) :
    (hardReset k b s).rkey = Vector.replicate 16 0 := rfl
@[simp] theorem hardReset_rout (s : State) (k : Nat) (b : Bool) :
    (hardReset k b s).rout = Vector.replicate 16 0 := rfl
@[simp] theorem hardReset_rk (s : State) (k : Nat) (b : Bool) :
    (hardReset k b s).rk = Vector.replicate 10 (Vector.replicate 16 0) := rfl
@[simp] theorem hardReset_fst (s : State) (k : Nat) (b : Bool) :
    (hardReset k b s).fst = Vector.replicate 200 0 := rfl
@[simp] theorem hardReset_eng (s : State) (k : Nat) (b : Bool) :
    (hardReset k b s).eng = Engine.reset := rfl
@[simp] theorem hardReset_port (s : State) (k : Nat) (b : Bool) :
    (hardReset k b s).port = portAtReset k b s := rfl
@[simp] theorem hardReset_moves (s : State) (k : Nat) (b : Bool) :
    (hardReset k b s).moves = s.moves := rfl
@[simp] theorem hardReset_readback (s : State) (k : Nat) (b : Bool) :
    (hardReset k b s).readback = s.readback := rfl

@[simp] theorem complete_spBase (s : State) : (complete s).spBase = s.spBase := rfl
@[simp] theorem faultEntry_spBase (s : State) (c : FaultCode) : (faultEntry c s).spBase = s.spBase := rfl
@[simp] theorem withWork_spBase (s : State) (w : Work) : (s.withWork w).spBase = s.spBase := rfl
@[simp] theorem complete_accel (s : State) : (complete s).accel = s.accel := rfl
@[simp] theorem faultEntry_accel (s : State) (c : FaultCode) : (faultEntry c s).accel = s.accel := rfl
@[simp] theorem withWork_accel (s : State) (w : Work) : (s.withWork w).accel = s.accel := rfl
@[simp] theorem complete_dataRegs (s : State) : (complete s).dataRegs = s.dataRegs := rfl
@[simp] theorem faultEntry_dataRegs (s : State) (c : FaultCode) : (faultEntry c s).dataRegs = s.dataRegs := rfl
@[simp] theorem withWork_dataRegs (s : State) (w : Work) : (s.withWork w).dataRegs = s.dataRegs := rfl

theorem busy_eq_true (s : State) : s.busy = true ↔ s.ph = .exec := by
  unfold State.busy; cases s.ph <;> simp

theorem busy_eq_false (s : State) : s.busy = false ↔ s.ph = .idle := by
  unfold State.busy; cases s.ph <;> simp

end Sys2Proof.Machine
end

