-- ==== Sys2Proof/Laws/Exec.lean ====
section
/-! SUPPORT. What a command can do, said once: the descriptor check, the end of a scratchpad command, and the effect
every command has in common. -/

namespace Sys2Proof.Machine

theorem spLen_eq_iff (x : Word) : x.toNat = Config.spSize ↔ x = 0x00200000#32 := by
  constructor
  · intro h; apply BitVec.eq_of_toNat_eq; rw [h]; rfl
  · rintro rfl; rfl

/-- The descriptor check in all its cases, in its order (R150). -/
theorem checkDescriptor_cases (s : State) :
    (s.spLen ≠ 0x00200000#32 ∧ checkDescriptor s = some .spSize) ∨
    (s.spLen = 0x00200000#32 ∧ s.accel = true ∧ s.spBase % 16 ≠ 0 ∧ checkDescriptor s = some .spAlign) ∨
    (s.spLen = 0x00200000#32 ∧ (s.accel = true → s.spBase % 16 = 0) ∧ 2 ^ 64 < s.spBase + 2097152 ∧
      checkDescriptor s = some .spRange) ∨
    (s.DescriptorOk ∧ checkDescriptor s = none) := by
  unfold checkDescriptor State.DescriptorOk
  simp only [ne_eq, spLen_eq_iff, Config.spAlign, Config.spSize]
  by_cases h1 : s.spLen = 0x00200000#32
  · by_cases h2 : s.accel = true ∧ s.spBase % 16 ≠ 0
    · simp [h1, h2.1, h2.2]
    · have h3 : s.accel = true → s.spBase % 16 = 0 := by tauto
      by_cases h4 : 2 ^ 64 < s.spBase + 2097152
      · simp only [h1, not_true, if_false]
        rw [if_neg (by tauto), if_pos (by omega)]
        tauto
      · simp only [h1, not_true, if_false]
        rw [if_neg (by tauto), if_neg (by omega)]
        have h5 : s.spBase + 2097152 ≤ 2 ^ 64 := by omega
        tauto
  · simp [h1]

theorem checkDescriptor_eq_none (s : State) : checkDescriptor s = none ↔ s.DescriptorOk := by
  rcases checkDescriptor_cases s with ⟨h, e⟩ | ⟨_, h, h', e⟩ | ⟨_, _, h, e⟩ | ⟨h, e⟩
  · simp only [e, reduceCtorEq, false_iff]; exact fun d => h d.1
  · simp only [e, reduceCtorEq, false_iff]; exact fun d => h' (d.2.1 h)
  · simp only [e, reduceCtorEq, false_iff]; exact fun d => by have := d.2.2; omega
  · simp [e, h]

theorem checkDescriptor_ne_noFault (s : State) : checkDescriptor s ≠ some .noFault := by
  rcases checkDescriptor_cases s with ⟨_, e⟩ | ⟨_, _, _, e⟩ | ⟨_, _, _, e⟩ | ⟨_, e⟩ <;> simp [e]

theorem checked_ok {s : State} (body : Work → Run Unit) (h : s.DescriptorOk) : checked s body = body s.work := by
  simp [checked, (checkDescriptor_eq_none s).2 h]

theorem checked_fault {s : State} {c : FaultCode} (body : Work → Run Unit) (h : checkDescriptor s = some c) :
    checked s body = .stop (.fault c) s.work := by
  simp [checked, h]

/-- The end of a scratchpad command, in all its cases. -/
theorem finish_next {s t : State} {commit : Engine → State → State} {r : Run Unit}
    (h : finish s commit r = .next t) :
    (∃ w, r = .ok () w ∧ t = complete (commit w.eng (s.withWork w))) ∨
    (∃ c w, r = .stop (.fault c) w ∧ t = faultEntry c (s.withWork w)) := by
  unfold finish at h
  split at h
  · left; injection h with h; exact ⟨_, rfl, h.symm⟩
  · right; injection h with h; exact ⟨_, _, rfl, h.symm⟩
  · cases h

@[simp] theorem finish_ok (s : State) (commit : Engine → State → State) (w : Work) :
    finish s commit (.ok () w) = .next (complete (commit w.eng (s.withWork w))) := rfl
@[simp] theorem finish_fault (s : State) (commit : Engine → State → State) (c : FaultCode) (w : Work) :
    finish s commit (.stop (.fault c) w) = .next (faultEntry c (s.withWork w)) := rfl
@[simp] theorem finish_unanswered (s : State) (commit : Engine → State → State) (w : Work) :
    finish s commit (.stop .unanswered w) = .fault .scratchpadNeverAnswers := rfl
@[simp] theorem State.withWork_work (s : State) : s.withWork s.work = s := rfl

/-- A command whose descriptor check fails makes no access and commits nothing (R150). -/
theorem finish_checked_fault {s : State} {c : FaultCode} (commit : Engine → State → State) (body : Work → Run Unit)
    (h : checkDescriptor s = some c) : finish s commit (checked s body) = .next (faultEntry c s) := by
  rw [checked_fault body h, finish_fault, State.withWork_work]

/-- The five commands that check the descriptor report the first check that fails, and nothing else happens (R150,
R221). -/
theorem exec_descriptor_fault {i : Instr} {s : State} {c : FaultCode} (hi : i = .check ∨ i.usesScratchpad = true)
    (h : checkDescriptor s = some c) : exec i s = .next (faultEntry c s) := by
  cases i with
  | check => simp only [exec, execCheck, h]
  | expand => unfold exec execExpand expandRun; exact finish_checked_fault _ _ h
  | mix => unfold exec execMix mixRun; exact finish_checked_fault _ _ h
  | absorb => unfold exec execAbsorb absorbRun; exact finish_checked_fault _ _ h
  | run => unfold exec execRun runRun; exact finish_checked_fault _ _ h
  | nop => simp [Instr.usesScratchpad] at hi
  | round => simp [Instr.usesScratchpad] at hi
  | keyexp k => simp [Instr.usesScratchpad] at hi
  | permute => simp [Instr.usesScratchpad] at hi
  | select => simp [Instr.usesScratchpad] at hi

theorem exec_expand_ok {s : State} (h : s.DescriptorOk) : exec .expand s =
    finish s (fun e t => { t with rk := e.ks }) (expandPhase s.st s.spBase s.work) := by
  unfold exec execExpand expandRun; rw [checked_ok _ h]
theorem exec_mix_ok {s : State} (h : s.DescriptorOk) : exec .mix s =
    finish s (fun _ t => t) (mixPhase s.st s.spBase s.work) := by
  unfold exec execMix mixRun; rw [checked_ok _ h]
theorem exec_absorb_ok {s : State} (h : s.DescriptorOk) : exec .absorb s =
    finish s (fun e t => { t with fst := e.fw, rk := e.ks }) (absorbPhase s.st s.spBase s.work) := by
  unfold exec execAbsorb absorbRun; rw [checked_ok _ h]
theorem exec_run_ok {s : State} (h : s.DescriptorOk) : exec .run s =
    finish s (fun e t => { t with rk := e.ks, fst := e.fw, digest := e.dw, sel := selector e.fw, selv := true })
      (runPhase s.permUnit s.st s.spBase s.work) := by
  unfold exec execRun runRun; rw [checked_ok _ h]

/-- The stops a piece of pseudocode has: bus errors and unanswered accesses, never another fault. -/
def Run.BusOnly {α : Type} (r : Run α) : Prop := ∀ c w, r = .stop (.fault c) w → c = .busErr

theorem Run.busOnly_ok {α : Type} (x : α) (w : Work) : (Run.ok x w).BusOnly := by
  intro c w' h; cases h

theorem Run.busOnly_andThen {α β : Type} {r : Run α} {f : α → Work → Run β} (hr : r.BusOnly)
    (hf : ∀ x w, (f x w).BusOnly) : (r.andThen f).BusOnly := by
  cases r with
  | ok x w => exact hf x w
  | stop y w =>
    intro c w' h
    cases h
    exact hr c w rfl

theorem loop_busOnly (f : Nat → Work → Run Unit) (hf : ∀ k w, (f k w).BusOnly) (n : Nat) :
    ∀ i w, (loop f n i w).BusOnly := by
  induction n with
  | zero => intro i w; rw [loop_zero]; exact Run.busOnly_ok _ _
  | succ n ih => intro i w; rw [loop_succ]; exact Run.busOnly_andThen (hf i w) fun _ w => ih _ w

theorem portRead_busOnly (a : Nat) (w : Work) : (portRead a w).BusOnly := by
  intro c w' h
  rcases portRead_cases a w with ⟨_, e⟩ | ⟨_, e⟩ | ⟨_, e⟩ <;> rw [e] at h <;> cases h
  rfl

theorem portWrite_busOnly (a : Nat) (v : Block) (w : Work) : (portWrite a v w).BusOnly := by
  intro c w' h
  rcases portWrite_cases a v w with ⟨_, e⟩ | ⟨_, e⟩ | ⟨_, e⟩ <;> rw [e] at h <;> cases h
  rfl

theorem expandPhase_busOnly (st : Bytes 200) (base : Nat) (w : Work) : (expandPhase st base w).BusOnly :=
  loop_busOnly _ (fun I w => loop_busOnly _ (fun _ _ => portWrite_busOnly _ _ _) 8 0 (w.setI I)) _ 0 _

theorem mixPhase_busOnly (st : Bytes 200) (base : Nat) (w : Work) : (mixPhase st base w).BusOnly :=
  loop_busOnly _ (fun _ _ => Run.busOnly_andThen
    (Run.busOnly_andThen (portRead_busOnly _ _) fun _ _ => portWrite_busOnly _ _ _)
    fun _ _ => Run.busOnly_andThen (portRead_busOnly _ _) fun _ _ =>
      Run.busOnly_andThen (portWrite_busOnly _ _ _) fun _ _ => Run.busOnly_ok _ _) _ 0 _

theorem absorbPhase_busOnly (st : Bytes 200) (base : Nat) (w : Work) : (absorbPhase st base w).BusOnly :=
  Run.busOnly_andThen
    (loop_busOnly _ (fun I w => loop_busOnly _ (fun _ _ => Run.busOnly_andThen (portRead_busOnly _ _) fun _ _ =>
      Run.busOnly_ok _ _) 8 0 (w.setI I)) _ 0 _)
    fun _ _ => Run.busOnly_ok _ _

theorem runPhase_busOnly (u : PermUnit) (st : Bytes 200) (base : Nat) (w : Work) : (runPhase u st base w).BusOnly :=
  Run.busOnly_andThen (expandPhase_busOnly _ _ _) fun _ _ =>
    Run.busOnly_andThen (mixPhase_busOnly _ _ _) fun _ _ =>
      Run.busOnly_andThen (absorbPhase_busOnly _ _ _) fun _ _ => Run.busOnly_ok _ _

/-! The latched command word stays while the command executes. -/

theorem portRead_cw (a : Nat) (w : Work) : (portRead a w).work.eng.cw = w.eng.cw := by
  rcases portRead_cases a w with ⟨_, e⟩ | ⟨_, e⟩ | ⟨_, e⟩ <;> rw [e] <;> rfl

theorem portWrite_cw (a : Nat) (v : Block) (w : Work) : (portWrite a v w).work.eng.cw = w.eng.cw := by
  rcases portWrite_cases a v w with ⟨_, e⟩ | ⟨_, e⟩ | ⟨_, e⟩ <;> rw [e] <;> rfl

theorem andThen_cw {α β : Type} {r : Run α} {f : α → Work → Run β} {w : Work} (hr : r.work.eng.cw = w.eng.cw)
    (hf : ∀ x v, (f x v).work.eng.cw = v.eng.cw) : (r.andThen f).work.eng.cw = w.eng.cw :=
  andThen_rel (fun u v => v.eng.cw = u.eng.cw) (fun _ _ _ h g => g.trans h) r f w hr hf

theorem loop_cw (f : Nat → Work → Run Unit) (hf : ∀ k w, (f k w).work.eng.cw = w.eng.cw) (n i : Nat) (w : Work) :
    (loop f n i w).work.eng.cw = w.eng.cw :=
  loop_rel (fun u v => v.eng.cw = u.eng.cw) (fun _ => rfl) (fun _ _ _ h g => g.trans h) f n i w fun k w _ _ => hf k w

theorem expandPhase_cw (st : Bytes 200) (base : Nat) (w : Work) :
    (expandPhase st base w).work.eng.cw = w.eng.cw := by
  unfold expandPhase
  rw [loop_cw _ fun I w => ?_]
  · rfl
  · unfold expandChunk
    rw [loop_cw _ fun j w => ?_]
    · rfl
    · unfold expandBlock; rw [portWrite_cw]; rfl

theorem mixFirst_cw (base : Nat) (w : Work) : (mixFirst base w).work.eng.cw = w.eng.cw :=
  andThen_cw (portRead_cw _ _) fun x v => by rw [portWrite_cw]; rfl

theorem mixSecond_cw (base : Nat) (w : Work) : (mixSecond base w).work.eng.cw = w.eng.cw :=
  andThen_cw (portRead_cw _ _) fun _ _ => andThen_cw (portWrite_cw _ _ _) fun _ _ => rfl

theorem mixPhase_cw (st : Bytes 200) (base : Nat) (w : Work) :
    (mixPhase st base w).work.eng.cw = w.eng.cw := by
  unfold mixPhase
  rw [loop_cw _ fun I w => ?_]
  · rfl
  · unfold mixIteration mixStep
    rw [andThen_cw (mixFirst_cw base _) fun _ v => mixSecond_cw base v]
    rfl

theorem absorbPhase_cw (st : Bytes 200) (base : Nat) (w : Work) :
    (absorbPhase st base w).work.eng.cw = w.eng.cw := by
  refine andThen_cw ?_ fun _ v => by rw [Run.work_ok]; unfold Work.setFW; rfl
  rw [loop_cw _ fun I w => ?_]
  · rfl
  · unfold absorbChunk
    rw [loop_cw _ fun j w => ?_]
    · rfl
    · exact andThen_cw (portRead_cw _ _) fun _ _ => by rw [Run.work_ok]; unfold Work.setText; rfl

theorem runPhase_cw (u : PermUnit) (st : Bytes 200) (base : Nat) (w : Work) :
    (runPhase u st base w).work.eng.cw = w.eng.cw :=
  andThen_cw (expandPhase_cw _ _ _) fun _ _ => andThen_cw (mixPhase_cw _ _ _) fun _ _ =>
    andThen_cw (absorbPhase_cw _ _ _) fun _ _ => by
    rw [Run.work_ok]; unfold selectWork permuteWork Work.setFW Work.setDW; rfl

theorem checked_cw (s : State) (body : Work → Run Unit) (h : ∀ w, (body w).work.eng.cw = w.eng.cw) :
    (checked s body).work.eng.cw = s.eng.cw := by
  unfold checked
  cases checkDescriptor s with
  | none => exact h s.work
  | some c => rfl

theorem expandRun_cw (s : State) : (expandRun s).work.eng.cw = s.eng.cw :=
  checked_cw s _ (expandPhase_cw s.st s.spBase)

theorem mixRun_cw (s : State) : (mixRun s).work.eng.cw = s.eng.cw :=
  checked_cw s _ (mixPhase_cw s.st s.spBase)

theorem absorbRun_cw (s : State) : (absorbRun s).work.eng.cw = s.eng.cw :=
  checked_cw s _ (absorbPhase_cw s.st s.spBase)

theorem runRun_cw (s : State) : (runRun s).work.eng.cw = s.eng.cw :=
  checked_cw s _ (runPhase_cw s.permUnit s.st s.spBase)

/-- What every command that ends has in common. -/
structure Ended (i : Instr) (s t : State) : Prop where
  surroundings : t.surroundings = s.surroundings
  port         : Port.Within s.spBase s.port t.port
  cache        : i ≠ .expand → i ≠ .mix → i ≠ .run → t.port.cache = s.port.cache
  idle         : t.ph = .idle
  spBaseLo     : t.spBaseLo = s.spBaseLo
  spBaseHi     : t.spBaseHi = s.spBaseHi
  spLen        : t.spLen = s.spLen
  st           : t.st = s.st
  rin          : t.rin = s.rin
  rkey         : t.rkey = s.rkey
  rout         : i ≠ .round → t.rout = s.rout
  rk           : (∀ k, i ≠ .keyexp k) → i ≠ .expand → i ≠ .absorb → i ≠ .run → t.rk = s.rk
  fst          : i ≠ .absorb → i ≠ .permute → i ≠ .run → t.fst = s.fst
  digest       : i ≠ .select → i ≠ .run → t.digest = s.digest ∧ t.selection = s.selection
  outcome      : (t.done = true ∧ t.latch = s.latch ∧ (t.selection = s.selection ∨ t.selv = true)) ∨
    (t.done = false ∧ t.dataRegs = s.dataRegs ∧ t.selection = s.selection ∧
      ∃ c, c ≠ .noFault ∧ t.latch = (true, c, s.eng.cw.extractLsb' 0 8))

/-- What a command does on its port leaves the surroundings as they are. -/
theorem withWork_surroundings {s : State} {w : Work} (h : Port.Within s.spBase s.port w.port) :
    (s.withWork w).surroundings = s.surroundings := by
  simp [State.surroundings, h.map_eq, h.coh_eq]

theorem faultEntry_ended (i : Instr) (s : State) (c : FaultCode) (w : Work) (hc : c ≠ .noFault)
    (hcw : w.eng.cw = s.eng.cw) (hw : Port.Within s.spBase s.port w.port)
    (hcache : i ≠ .expand → i ≠ .mix → i ≠ .run → w.port.cache = s.port.cache) :
    Ended i s (faultEntry c (s.withWork w)) where
  surroundings := withWork_surroundings hw
  cache := hcache
  port := hw
  idle := rfl
  spBaseLo := rfl
  spBaseHi := rfl
  spLen := rfl
  st := rfl
  rin := rfl
  rkey := rfl
  rout := fun _ => rfl
  rk := fun _ _ _ _ => rfl
  fst := fun _ _ _ => rfl
  digest := fun _ _ => ⟨rfl, rfl⟩
  outcome := .inr ⟨rfl, rfl, rfl, c, hc, by simp [State.latch, hcw]⟩

/-- A checked body ends in completion, or in a fault that has a code. -/
theorem checked_stop {s : State} {body : Work → Run Unit} {c : FaultCode} {w : Work}
    (hb : ∀ w, (body w).BusOnly) (h : checked s body = .stop (.fault c) w) : c ≠ .noFault := by
  unfold checked at h
  split at h
  · rename_i d hd
    cases h
    rintro rfl
    exact checkDescriptor_ne_noFault s hd
  · rw [hb _ _ _ h]; simp

theorem execNop_ended (s : State) : Ended .nop s (complete s) where
  surroundings := rfl
  cache := fun _ _ _ => rfl
  port := .refl _ _
  idle := rfl
  spBaseLo := rfl
  spBaseHi := rfl
  spLen := rfl
  st := rfl
  rin := rfl
  rkey := rfl
  rout := fun _ => rfl
  rk := fun _ _ _ _ => rfl
  fst := fun _ _ _ => rfl
  digest := fun _ _ => ⟨rfl, rfl⟩
  outcome := .inl ⟨rfl, rfl, .inl rfl⟩

theorem execCheck_ended {s t : State} (h : execCheck s = .next t) : Ended .check s t := by
  unfold execCheck at h
  split at h
  · rename_i c hc
    cases h
    exact faultEntry_ended .check s c s.work (fun e => checkDescriptor_ne_noFault s (e ▸ hc)) rfl
      (.refl _ _) fun _ _ _ => rfl
  · cases h
    exact { execNop_ended s with cache := fun _ _ _ => rfl,
                                 rout := fun _ => rfl, rk := fun _ _ _ _ => rfl, fst := fun _ _ _ => rfl,
                                 digest := fun _ _ => ⟨rfl, rfl⟩ }

theorem execRound_ended {s t : State} (h : execRound s = .next t) : Ended .round s t := by
  cases h
  exact { surroundings := rfl, cache := fun _ _ _ => rfl,
          port := .refl _ _, idle := rfl, spBaseLo := rfl, spBaseHi := rfl, spLen := rfl,
          st := rfl, rin := rfl, rkey := rfl, rout := fun h => absurd rfl h, rk := fun _ _ _ _ => rfl,
          fst := fun _ _ _ => rfl, digest := fun _ _ => ⟨rfl, rfl⟩, outcome := .inl ⟨rfl, rfl, .inl rfl⟩ }

theorem execKeyexp_ended {k : BitVec 1} {s t : State} (h : execKeyexp k s = .next t) : Ended (.keyexp k) s t := by
  cases h
  exact { surroundings := rfl, cache := fun _ _ _ => rfl,
          port := .refl _ _, idle := rfl, spBaseLo := rfl, spBaseHi := rfl, spLen := rfl,
          st := rfl, rin := rfl, rkey := rfl, rout := fun _ => rfl, rk := fun h _ _ _ => absurd rfl (h k),
          fst := fun _ _ _ => rfl, digest := fun _ _ => ⟨rfl, rfl⟩, outcome := .inl ⟨rfl, rfl, .inl rfl⟩ }

theorem execPermute_ended {s t : State} (h : execPermute s = .next t) : Ended .permute s t := by
  cases h
  exact { surroundings := rfl, cache := fun _ _ _ => rfl,
          port := permuteWork_within s.spBase s.permUnit s.fst s.work, idle := rfl, spBaseLo := rfl, spBaseHi := rfl,
          spLen := rfl, st := rfl, rin := rfl, rkey := rfl, rout := fun _ => rfl, rk := fun _ _ _ _ => rfl,
          fst := fun _ h _ => absurd rfl h, digest := fun _ _ => ⟨rfl, rfl⟩,
          outcome := .inl ⟨rfl, rfl, .inl rfl⟩ }

theorem execSelect_ended {s t : State} (h : execSelect s = .next t) : Ended .select s t := by
  cases h
  exact { surroundings := rfl, cache := fun _ _ _ => rfl,
          port := selectWork_within s.spBase s.fst s.work, idle := rfl, spBaseLo := rfl, spBaseHi := rfl,
          spLen := rfl, st := rfl, rin := rfl, rkey := rfl, rout := fun _ => rfl, rk := fun _ _ _ _ => rfl,
          fst := fun _ _ _ => rfl, digest := fun h _ => absurd rfl h, outcome := .inl ⟨rfl, rfl, .inr rfl⟩ }

theorem execExpand_ended {s t : State} (h : execExpand s = .next t) : Ended .expand s t := by
  have hp := expandRun_within s
  rcases finish_next h with ⟨w, hr, rfl⟩ | ⟨c, w, hr, rfl⟩ <;> rw [hr] at hp
  · exact { surroundings := withWork_surroundings hp, cache := fun h _ _ => absurd rfl h,
            port := hp, idle := rfl, spBaseLo := rfl,
            spBaseHi := rfl, spLen := rfl, st := rfl, rin := rfl, rkey := rfl, rout := fun _ => rfl,
            rk := fun _ h _ _ => absurd rfl h, fst := fun _ _ _ => rfl, digest := fun _ _ => ⟨rfl, rfl⟩,
            outcome := .inl ⟨rfl, rfl, .inl rfl⟩ }
  · exact faultEntry_ended _ s c w (checked_stop (expandPhase_busOnly _ _) hr)
      (by simpa [hr] using expandRun_cw s) hp fun h _ _ => absurd rfl h

theorem execMix_ended {s t : State} (h : execMix s = .next t) : Ended .mix s t := by
  have hp := mixRun_within s
  rcases finish_next h with ⟨w, hr, rfl⟩ | ⟨c, w, hr, rfl⟩ <;> rw [hr] at hp
  · exact { surroundings := withWork_surroundings hp, cache := fun _ h _ => absurd rfl h,
            port := hp, idle := rfl, spBaseLo := rfl,
            spBaseHi := rfl, spLen := rfl, st := rfl, rin := rfl, rkey := rfl, rout := fun _ => rfl,
            rk := fun _ _ _ _ => rfl, fst := fun _ _ _ => rfl, digest := fun _ _ => ⟨rfl, rfl⟩,
            outcome := .inl ⟨rfl, rfl, .inl rfl⟩ }
  · exact faultEntry_ended _ s c w (checked_stop (mixPhase_busOnly _ _) hr)
      (by simpa [hr] using mixRun_cw s) hp fun _ h _ => absurd rfl h

theorem absorbRun_cache (s : State) : (absorbRun s).work.port.cache = s.port.cache := by
  unfold absorbRun checked
  cases checkDescriptor s with
  | none => exact absorbPhase_cache s.st s.spBase s.work
  | some c => rfl

theorem execAbsorb_ended {s t : State} (h : execAbsorb s = .next t) : Ended .absorb s t := by
  have hp := absorbRun_within s
  have hcache := absorbRun_cache s
  rcases finish_next h with ⟨w, hr, rfl⟩ | ⟨c, w, hr, rfl⟩ <;> rw [hr] at hp hcache
  · exact { surroundings := withWork_surroundings hp, cache := fun _ _ _ => hcache,
            port := hp, idle := rfl, spBaseLo := rfl,
            spBaseHi := rfl, spLen := rfl, st := rfl, rin := rfl, rkey := rfl, rout := fun _ => rfl,
            rk := fun _ _ h _ => absurd rfl h, fst := fun h _ _ => absurd rfl h,
            digest := fun _ _ => ⟨rfl, rfl⟩, outcome := .inl ⟨rfl, rfl, .inl rfl⟩ }
  · exact faultEntry_ended _ s c w (checked_stop (absorbPhase_busOnly _ _) hr)
      (by simpa [hr] using absorbRun_cw s) hp fun _ _ _ => hcache

theorem execRun_ended {s t : State} (h : execRun s = .next t) : Ended .run s t := by
  have hp := runRun_within s
  rcases finish_next h with ⟨w, hr, rfl⟩ | ⟨c, w, hr, rfl⟩ <;> rw [hr] at hp
  · exact { surroundings := withWork_surroundings hp, cache := fun _ _ h => absurd rfl h,
            port := hp, idle := rfl, spBaseLo := rfl,
            spBaseHi := rfl, spLen := rfl, st := rfl, rin := rfl, rkey := rfl, rout := fun _ => rfl,
            rk := fun _ _ _ h => absurd rfl h, fst := fun _ _ h => absurd rfl h,
            digest := fun _ h => absurd rfl h, outcome := .inl ⟨rfl, rfl, .inr rfl⟩ }
  · exact faultEntry_ended _ s c w (checked_stop (runPhase_busOnly _ _ _) hr)
      (by simpa [hr] using runRun_cw s) hp fun _ _ h => absurd rfl h

/-- Whatever the command, this is all it can do (R33, R49, R73, R220). -/
theorem exec_ended {i : Instr} {s t : State} (h : exec i s = .next t) : Ended i s t := by
  cases i with
  | nop => cases h; exact execNop_ended s
  | check => exact execCheck_ended h
  | round => exact execRound_ended h
  | keyexp k => exact execKeyexp_ended h
  | expand => exact execExpand_ended h
  | mix => exact execMix_ended h
  | absorb => exact execAbsorb_ended h
  | permute => exact execPermute_ended h
  | select => exact execSelect_ended h
  | run => exact execRun_ended h

end Sys2Proof.Machine
end

