-- ==== Sys2Proof/Laws/Ending.lean ====
section
/-! SUPPORT. Every command ends when the memory system answers each access to the command's region (R252, R253), and
the phases complete when it serves each, whatever their reads bring. -/

namespace Sys2Proof.Machine

/-- Every access to a block of the region at `base` is answered. -/
def Answered (base : Nat) (map : List PortRange) : Prop :=
  ∀ n, n < Config.nBlocks → replyAt map (base + 16 * n) ≠ .noAnswer

/-- A run that does not wait for ever, and has left the admission map alone. -/
structure Run.Ends {α : Type} (map : List PortRange) (r : Run α) : Prop where
  answered : ∀ w, r ≠ .stop .unanswered w
  map_eq   : r.work.port.map = map

theorem Run.ends_ok {α : Type} {map : List PortRange} (x : α) (w : Work) (h : w.port.map = map) :
    (Run.ok x w).Ends map :=
  ⟨fun _ => by simp, h⟩

theorem Run.ends_andThen {α β : Type} {map : List PortRange} {r : Run α} {f : α → Work → Run β} (hr : r.Ends map)
    (hf : ∀ x w, w.port.map = map → (f x w).Ends map) : (r.andThen f).Ends map := by
  cases r with
  | ok x w => exact hf x w hr.map_eq
  | stop y w =>
    refine ⟨?_, hr.map_eq⟩
    rintro v h
    cases h
    exact hr.answered w rfl

theorem loop_ends {map : List PortRange} (f : Nat → Work → Run Unit) (n : Nat) :
    ∀ (i : Nat) (w : Work), w.port.map = map →
      (∀ k w, i ≤ k → k < i + n → w.port.map = map → (f k w).Ends map) → (loop f n i w).Ends map := by
  induction n with
  | zero => intro i w h _; rw [loop_zero]; exact Run.ends_ok _ _ h
  | succ n ih =>
    intro i w h hf
    rw [loop_succ]
    exact Run.ends_andThen (hf i w (Nat.le_refl _) (by omega) h) fun _ v hv =>
      ih _ v hv fun k u hk hk' => hf k u (by omega) (by omega)

theorem portRead_ends {base n : Nat} {map : List PortRange} (h : Answered base map) (hn : n < Config.nBlocks) (w : Work)
    (hw : w.port.map = map) : (portRead (base + 16 * n) w).Ends map := by
  subst hw
  rcases portRead_cases (base + 16 * n) w with ⟨_, e⟩ | ⟨_, e⟩ | ⟨e', e⟩
  · rw [e]; exact ⟨fun _ => by simp, rfl⟩
  · rw [e]; exact ⟨fun _ => by simp, rfl⟩
  · exact absurd e' (h n hn)

theorem portWrite_ends {base n : Nat} {map : List PortRange} (h : Answered base map) (hn : n < Config.nBlocks)
    (v : Block) (w : Work) (hw : w.port.map = map) : (portWrite (base + 16 * n) v w).Ends map := by
  subst hw
  rcases portWrite_cases (base + 16 * n) v w with ⟨_, e⟩ | ⟨_, e⟩ | ⟨e', e⟩
  · rw [e]; exact ⟨fun _ => by simp, rfl⟩
  · rw [e]; exact ⟨fun _ => by simp, rfl⟩
  · exact absurd e' (h n hn)

theorem portRead_spIndex_ends {base : Nat} {map : List PortRange} (h : Answered base map) (c : Block) (w : Work)
    (hw : w.port.map = map) : (portRead (base + spIndex c) w).Ends map := by
  rw [← spIndex_div_mul c]; exact portRead_ends h (spIndex_div_lt c) w hw

theorem portWrite_spIndex_ends {base : Nat} {map : List PortRange} (h : Answered base map) (c v : Block) (w : Work)
    (hw : w.port.map = map) : (portWrite (base + spIndex c) v w).Ends map := by
  rw [← spIndex_div_mul c]; exact portWrite_ends h (spIndex_div_lt c) v w hw

theorem expandPhase_ends {base : Nat} {map : List PortRange} (h : Answered base map) (st : Bytes 200) (w : Work)
    (hw : w.port.map = map) : (expandPhase st base w).Ends map := by
  refine loop_ends _ _ _ _ (by simpa [expandStart] using hw) fun I w _ hI hw => ?_
  refine loop_ends _ _ _ _ (by simpa using hw) fun j w _ hj hw => ?_
  unfold expandBlock
  rw [blockOffset_eq]
  have hI' : I < 0 + 16384 := hI
  exact portWrite_ends h (show 8 * I + j < 131072 by omega) _ _ (by simpa using hw)

theorem mixPhase_ends {base : Nat} {map : List PortRange} (h : Answered base map) (st : Bytes 200) (w : Work)
    (hw : w.port.map = map) : (mixPhase st base w).Ends map := by
  refine loop_ends _ _ _ _ (by simpa [mixStart] using hw) fun I w _ _ hw => ?_
  have hw' : (w.setI I).port.map = map := by simpa using hw
  refine Run.ends_andThen (Run.ends_andThen (portRead_spIndex_ends h _ _ hw') fun x v hv => ?_) fun _ v hv => ?_
  · exact portWrite_spIndex_ends h _ _ _ (by simpa using hv)
  · exact Run.ends_andThen (portRead_spIndex_ends h _ _ hv) fun y v hv =>
      Run.ends_andThen (portWrite_spIndex_ends h _ _ _ hv) fun _ v hv => Run.ends_ok _ _ (by simpa using hv)

theorem absorbPhase_ends {base : Nat} {map : List PortRange} (h : Answered base map) (st : Bytes 200) (w : Work)
    (hw : w.port.map = map) : (absorbPhase st base w).Ends map := by
  refine Run.ends_andThen ?_ fun _ v hv => Run.ends_ok _ _ (by simpa using hv)
  refine loop_ends _ _ _ _ (by simpa [absorbStart] using hw) fun I w _ hI hw => ?_
  refine loop_ends _ _ _ _ (by simpa using hw) fun j w _ hj hw => ?_
  unfold absorbBlock
  rw [blockOffset_eq]
  have hI' : I < 0 + 16384 := hI
  exact Run.ends_andThen (portRead_ends h (show 8 * I + j < 131072 by omega) _ hw) fun _ v hv =>
    Run.ends_ok _ _ (by simpa using hv)

theorem runPhase_ends {base : Nat} {map : List PortRange} (h : Answered base map) (u : PermUnit) (st : Bytes 200)
    (w : Work) (hw : w.port.map = map) : (runPhase u st base w).Ends map :=
  Run.ends_andThen (expandPhase_ends h st w hw) fun _ w hw =>
    Run.ends_andThen (mixPhase_ends h st w hw) fun _ w hw =>
      Run.ends_andThen (absorbPhase_ends h st w hw) fun _ _ hw => Run.ends_ok _ _ hw

theorem finish_ends {s : State} {commit : Engine → State → State} {map : List PortRange} {r : Run Unit}
    (h : r.Ends map) : ∃ t, finish s commit r = .next t := by
  cases r with
  | ok x w => exact ⟨_, rfl⟩
  | stop y w =>
    cases y with
    | fault c => exact ⟨_, rfl⟩
    | unanswered => exact absurd rfl (h.answered w)

/-- Every command ends (R253). -/
theorem exec_ends (i : Instr) (s : State) (h : s.RegionAnswered) : ∃ t, exec i s = .next t := by
  cases hc : checkDescriptor s with
  | some c =>
    cases i with
    | nop => exact ⟨_, rfl⟩
    | round => exact ⟨_, rfl⟩
    | keyexp k => exact ⟨_, rfl⟩
    | permute => exact ⟨_, rfl⟩
    | select => exact ⟨_, rfl⟩
    | check => exact ⟨_, exec_descriptor_fault (.inl rfl) hc⟩
    | expand => exact ⟨_, exec_descriptor_fault (.inr rfl) hc⟩
    | mix => exact ⟨_, exec_descriptor_fault (.inr rfl) hc⟩
    | absorb => exact ⟨_, exec_descriptor_fault (.inr rfl) hc⟩
    | run => exact ⟨_, exec_descriptor_fault (.inr rfl) hc⟩
  | none =>
    have hd := (checkDescriptor_eq_none s).1 hc
    cases i with
    | nop => exact ⟨_, rfl⟩
    | round => exact ⟨_, rfl⟩
    | keyexp k => exact ⟨_, rfl⟩
    | permute => exact ⟨_, rfl⟩
    | select => exact ⟨_, rfl⟩
    | check => exact ⟨complete s, by simp only [exec, execCheck, hc]⟩
    | expand => rw [exec_expand_ok hd]; exact finish_ends (expandPhase_ends h s.st s.work rfl)
    | mix => rw [exec_mix_ok hd]; exact finish_ends (mixPhase_ends h s.st s.work rfl)
    | absorb => rw [exec_absorb_ok hd]; exact finish_ends (absorbPhase_ends h s.st s.work rfl)
    | run => rw [exec_run_ok hd]; exact finish_ends (runPhase_ends h s.permUnit s.st s.work rfl)

/-! ### When every access is served -/

/-- Every access to a block of the region at `base` is served. -/
def Served (base : Nat) (map : List PortRange) : Prop :=
  ∀ n, n < Config.nBlocks → replyAt map (base + 16 * n) = .served

/-- A run from `w` that completes, whatever its reads bring, having made scratchpad accesses only. -/
def Run.Goes {α : Type} (map : List PortRange) (w : Work) (r : Run α) : Prop :=
  ∃ x w', r = .ok x w' ∧ w'.port.map = map ∧
    ∃ es, (∀ e ∈ es, e.isAccess = true) ∧ w'.port.trace = es ++ w.port.trace

theorem Run.goes_ok {α : Type} {map : List PortRange} {w w' : Work} (x : α) (hm : w'.port.map = map)
    (ht : w'.port.trace = w.port.trace) : (Run.ok x w').Goes map w :=
  ⟨x, w', rfl, hm, [], by simp, ht⟩

theorem Run.goes_andThen {α β : Type} {map : List PortRange} {w : Work} {r : Run α} {f : α → Work → Run β}
    (hr : r.Goes map w) (hf : ∀ x v, v.port.map = map → (f x v).Goes map v) : (r.andThen f).Goes map w := by
  obtain ⟨x, v, rfl, hm, es, hes, ht⟩ := hr
  obtain ⟨y, u, h, hm', fs, hfs, ht'⟩ := hf x v hm
  refine ⟨y, u, h, hm', fs ++ es, fun e he => ?_, by rw [ht', ht, List.append_assoc]⟩
  rcases List.mem_append.1 he with he | he
  · exact hfs e he
  · exact hes e he

theorem loop_goes {map : List PortRange} (f : Nat → Work → Run Unit) (n : Nat) :
    ∀ (i : Nat) (w : Work), w.port.map = map →
      (∀ k w, i ≤ k → k < i + n → w.port.map = map → (f k w).Goes map w) → (loop f n i w).Goes map w := by
  induction n with
  | zero => intro i w h _; rw [loop_zero]; exact Run.goes_ok _ h rfl
  | succ n ih =>
    intro i w h hf
    rw [loop_succ]
    exact Run.goes_andThen (hf i w (Nat.le_refl _) (by omega) h) fun _ v hv =>
      ih _ v hv fun k u hk hk' => hf k u (by omega) (by omega)

theorem portRead_goes {map : List PortRange} {addr : Nat} {w : Work} (hw : w.port.map = map)
    (h : replyAt map addr = .served) : (portRead addr w).Goes map w := by
  rw [portRead_served _ _ (by rw [hw]; exact h)]
  exact ⟨_, _, rfl, by simpa using hw, [.read addr], by simp [PortEvent.isAccess], rfl⟩

theorem portWrite_goes {map : List PortRange} {addr : Nat} {v : Block} {w : Work} (hw : w.port.map = map)
    (h : replyAt map addr = .served) : (portWrite addr v w).Goes map w := by
  rw [portWrite_served _ _ _ (by rw [hw]; exact h)]
  exact ⟨_, _, rfl, by simpa using hw, [.write addr v], by simp [PortEvent.isAccess], rfl⟩

theorem Served.spIndex {base : Nat} {map : List PortRange} (h : Served base map) (c : Block) :
    replyAt map (base + spIndex c) = .served := by
  rw [← spIndex_div_mul c]; exact h _ (spIndex_div_lt c)

theorem expandPhase_goes {base : Nat} {map : List PortRange} (h : Served base map) (st : Bytes 200) (w : Work)
    (hw : w.port.map = map) : (expandPhase st base w).Goes map w := by
  refine loop_goes _ _ _ (expandStart st w) hw fun I w _ hI hw => ?_
  refine loop_goes _ _ _ (w.setI I) hw fun j w _ hj hw => ?_
  unfold expandBlock
  rw [blockOffset_eq]
  have hI' : I < 0 + 16384 := hI
  exact portWrite_goes (w := w.setText j _) hw (h _ (show 8 * I + j < 131072 by omega))

theorem mixPhase_goes {base : Nat} {map : List PortRange} (h : Served base map) (st : Bytes 200) (w : Work)
    (hw : w.port.map = map) : (mixPhase st base w).Goes map w := by
  refine loop_goes _ _ _ (mixStart st w) hw fun I w _ _ hw => ?_
  refine Run.goes_andThen (w := w.setI I) (Run.goes_andThen (portRead_goes hw (h.spIndex _)) fun x v hv => ?_)
    fun _ v hv => ?_
  · exact portWrite_goes (w := v.setC1 _) hv (h.spIndex _)
  · exact Run.goes_andThen (portRead_goes hv (h.spIndex _)) fun y v hv =>
      Run.goes_andThen (portWrite_goes hv (h.spIndex _)) fun _ v hv => Run.goes_ok _ (by simpa using hv) rfl

theorem absorbPhase_goes {base : Nat} {map : List PortRange} (h : Served base map) (st : Bytes 200) (w : Work)
    (hw : w.port.map = map) : (absorbPhase st base w).Goes map w := by
  refine Run.goes_andThen ?_ fun _ v hv => Run.goes_ok _ (by simpa using hv) rfl
  refine loop_goes _ _ _ (absorbStart st w) hw fun I w _ hI hw => ?_
  refine loop_goes _ _ _ (w.setI I) hw fun j w _ hj hw => ?_
  unfold absorbBlock
  rw [blockOffset_eq]
  have hI' : I < 0 + 16384 := hI
  exact Run.goes_andThen (portRead_goes hw (h _ (show 8 * I + j < 131072 by omega))) fun _ v hv =>
    Run.goes_ok _ (by simpa using hv) rfl

end Sys2Proof.Machine
end

