-- ==== Sys2Proof/Laws/HostMemory.lean ====
section
/-! SUPPORT. What the host's cache maintenance does to the memory system (20_memory.md rule R80): a write-back puts
the host's bytes into memory, an invalidation leaves no stale byte, and both keep the canonical form. -/

namespace Sys2Proof.Machine

theorem inRange_iff (addr n a : Nat) : inRange addr n a = true ↔ addr ≤ a ∧ a < addr + n := by simp [inRange]

/-- The dirty bytes inside a range, and those outside it, as the filters that pick them. -/
theorem dirty_inside_find (addr n : Nat) (m : Memory) (x : Nat) :
    Memory.find (m.filter fun c => inRange addr n c.1) x = if inRange addr n x then m.find x else none :=
  Memory.find_filter (inRange addr n) m x

theorem dirty_outside_find (addr n : Nat) (m : Memory) (x : Nat) :
    Memory.find (m.filter fun c => !inRange addr n c.1) x = if inRange addr n x then none else m.find x := by
  rw [Memory.find_filter (fun a => !inRange addr n a) m x]
  cases inRange addr n x <;> rfl

/-- A byte after a write-back: the host's in the range where it holds one, memory's elsewhere. -/
theorem Port.writeBack_byte (addr n : Nat) (p : Port) (h : p.cache.dirty.wf) (x : Nat) :
    (p.writeBack addr n).mem.byte x =
      if inRange addr n x then (p.cache.dirty.find x).getD (p.mem.byte x) else p.mem.byte x := by
  unfold Port.writeBack
  rw [Memory.byte_merge _ _ (Memory.filter_wf _ _ h), dirty_inside_find]
  cases inRange addr n x <;> rfl

/-- After a write-back no byte of the range is uncertain to the engine. -/
theorem Port.writeBack_unsure (addr n : Nat) (p : Port) (x : Nat) :
    (p.writeBack addr n).unsure x = (p.unsure x && !inRange addr n x) := by
  unfold Port.writeBack Port.unsure
  simp only [dirty_outside_find]
  cases inRange addr n x <;> simp

theorem Port.invalidate_unsure (addr n : Nat) (p : Port) (x : Nat) :
    (p.invalidate addr n).unsure x = (p.unsure x && !inRange addr n x) := by
  unfold Port.invalidate Port.unsure
  simp only [dirty_outside_find]
  cases inRange addr n x <;> simp

/-- What is cut out of a range is no longer in it; the rest is. -/
theorem cutRange_any (addr n : Nat) (r : Nat × Nat) (a : Nat) :
    ((cutRange addr n r).any fun q => decide (q.1 ≤ a ∧ a < q.1 + q.2)) =
      (decide (r.1 ≤ a ∧ a < r.1 + r.2) && !inRange addr n a) := by
  rw [Bool.eq_iff_iff]
  simp only [cutRange, List.any_filter, List.any_cons, List.any_nil, Bool.or_false, Bool.or_eq_true, Bool.and_eq_true,
    decide_eq_true_eq, Bool.not_eq_true', ← Bool.not_eq_true, inRange_iff]
  omega

/-- After an invalidation the host's caches are stale where they were, but not in the range. -/
theorem Port.invalidate_staleAt (addr n : Nat) (p : Port) (a : Nat) :
    (p.invalidate addr n).cache.staleAt a = (p.cache.staleAt a && !inRange addr n a) := by
  unfold Port.invalidate HostCache.staleAt
  simp only [List.any_flatMap, cutRange_any]
  induction p.cache.stale with
  | nil => rfl
  | cons r rs ih =>
    simp only [List.any_cons, ih]
    cases inRange addr n a <;> simp

/-- An invalidation of bytes the host has all written back leaves the memory alone. -/
theorem Port.invalidate_mem (addr n : Nat) (p : Port)
    (h : ∀ x, addr ≤ x → x < addr + n → p.cache.dirty.find x = none) : (p.invalidate addr n).mem = p.mem := by
  have : (p.cache.dirty.filter fun c => inRange addr n c.1) = [] := by
    rw [List.filter_eq_nil_iff]
    intro c hc hr
    obtain ⟨h1, h2⟩ := (inRange_iff _ _ _).1 hr
    have := (Memory.find_isSome_iff p.cache.dirty c.1).2 (List.mem_map_of_mem hc)
    rw [h _ h1 h2] at this
    cases this
  simp [Port.invalidate, this, Memory.forget]

theorem Port.writeBack_wf (addr n : Nat) (p : Port) (h : p.mem.wf) : (p.writeBack addr n).mem.wf :=
  Memory.merge_wf _ _ h

theorem Port.invalidate_wf (addr n : Nat) (p : Port) (h : p.mem.wf) : (p.invalidate addr n).mem.wf :=
  Memory.forget_wf _ _ _ h

theorem Port.writeBack_dirty_wf (addr n : Nat) (p : Port) (h : p.cache.dirty.wf) :
    (p.writeBack addr n).cache.dirty.wf :=
  Memory.filter_wf (fun a => !inRange addr n a) _ h

theorem Port.invalidate_dirty_wf (addr n : Nat) (p : Port) (h : p.cache.dirty.wf) :
    (p.invalidate addr n).cache.dirty.wf :=
  Memory.filter_wf (fun a => !inRange addr n a) _ h

theorem Port.writeBack_below (L addr n : Nat) (p : Port) (hm : ∀ c ∈ p.mem, c.1 < L)
    (hd : ∀ c ∈ p.cache.dirty, c.1 < L) : ∀ c ∈ (p.writeBack addr n).mem, c.1 < L :=
  Memory.merge_below L _ _ hm fun c hc => hd c (List.mem_filter.1 hc).1

theorem Port.invalidate_below (L addr n : Nat) (p : Port) (hm : ∀ c ∈ p.mem, c.1 < L)
    (hd : ∀ c ∈ p.cache.dirty, c.1 < L) : ∀ c ∈ (p.invalidate addr n).mem, c.1 < L := by
  refine Memory.forget_below L _ _ _ hm fun a ha => ?_
  obtain ⟨c, hc, rfl⟩ := List.mem_map.1 ha
  exact hd c (List.mem_filter.1 hc).1

theorem Port.writeBack_dirty_below (L addr n : Nat) (p : Port) (hd : ∀ c ∈ p.cache.dirty, c.1 < L) :
    ∀ c ∈ (p.writeBack addr n).cache.dirty, c.1 < L :=
  fun c hc => hd c (List.mem_filter.1 hc).1

theorem Port.invalidate_dirty_below (L addr n : Nat) (p : Port) (hd : ∀ c ∈ p.cache.dirty, c.1 < L) :
    ∀ c ∈ (p.invalidate addr n).cache.dirty, c.1 < L :=
  fun c hc => hd c (List.mem_filter.1 hc).1

/-- The byte a host load sees where nothing is held back and nothing is stale is memory's. -/
theorem Port.hostByte_eq (p : Port) (a : Nat)
    (h : p.coherent = true ∨ p.cache.dirty.find a = none ∧ p.cache.staleAt a = false) :
    p.hostByte a = p.mem.byte a := by
  unfold Port.hostByte
  rcases h with h | ⟨h1, h2⟩
  · rw [if_pos h]
  · split
    · rfl
    · rw [h1, h2]; rfl

end Sys2Proof.Machine
end

