-- ==== Sys2Proof/Laws/PerInstr.lean ====
section
/-! SUPPORT. Statements about every command as syntax, one lemma per constructor. -/

namespace Sys2Proof.Laws.DecodeEncode

/-- The command's word decodes to the command, and its low byte is the command's opcode (R91, R92, R95). -/
def Statement (i : Instr) : Prop := decode (encode i) = .ok i ∧ (encode i).extractLsb' 0 8 = opcode i

theorem nop : Statement .nop := by unfold Statement; decide
theorem check : Statement .check := by unfold Statement; decide
theorem round : Statement .round := by unfold Statement; decide
theorem keyexp (k : BitVec 1) : Statement (.keyexp k) := by
  unfold Statement
  revert k
  decide
theorem expand : Statement .expand := by unfold Statement; decide
theorem mix : Statement .mix := by unfold Statement; decide
theorem absorb : Statement .absorb := by unfold Statement; decide
theorem permute : Statement .permute := by unfold Statement; decide
theorem select : Statement .select := by unfold Statement; decide
theorem run : Statement .run := by unfold Statement; decide

end Sys2Proof.Laws.DecodeEncode
end

