-- ==== Sys2Proof/Laws/Window.lean ====
section
/-! SUPPORT. The laws of the register window: which register each offset names, the words of the byte arrays, and
what a host access at a defined offset comes to. -/

namespace Sys2Proof.Machine

/-! ### The words of a byte array -/

theorem leNat_digit (bs : List Byte) : ∀ k, leNat bs / 256 ^ k % 256 = (bs.getD k 0).toNat := by
  induction bs with
  | nil => intro k; simp [leNat]
  | cons b bs ih =>
    intro k
    have hb := b.isLt
    cases k with
    | zero => simp only [leNat, pow_zero, List.getD_cons_zero]; omega
    | succ k =>
      simp only [leNat, List.getD_cons_succ]
      rw [← ih k, pow_succ, Nat.mul_comm (256 ^ k) 256, ← Nat.div_div_eq_div_mul]
      congr 2
      omega

/-- Byte k of a word of a byte array (R61). -/
theorem wordAt_byte {n : Nat} (v : Bytes n) (w k : Nat) (hk : k < 4) (h : 4 * w + k < n) :
    (wordAt v w).extractLsb' (8 * k) 8 = v[4 * w + k] := by
  apply BitVec.eq_of_toNat_eq
  unfold wordAt le32
  rw [BitVec.extractLsb'_toNat, BitVec.toNat_ofNat, Nat.shiftRight_eq_div_pow]
  have hl := leNat_lt ((v.toList.drop (4 * w)).take 4)
  have hlen : ((v.toList.drop (4 * w)).take 4).length ≤ 4 := by simp
  have hle : 256 ^ ((v.toList.drop (4 * w)).take 4).length ≤ 256 ^ 4 := Nat.pow_le_pow_right (by norm_num) hlen
  have hx : leNat ((v.toList.drop (4 * w)).take 4) < 2 ^ 32 := lt_of_lt_of_le hl (by simpa using hle)
  rw [Nat.mod_eq_of_lt hx, show (2 : Nat) ^ (8 * k) = 256 ^ k by rw [pow_mul]; norm_num,
    show (2 : Nat) ^ 8 = 256 by norm_num, leNat_digit]
  congr 1
  rw [List.getD_eq_getElem _ _ (by simp; omega)]
  simp

/-- Two words with the same four bytes are equal. -/
theorem Word.ext_bytes {x y : Word} (h : ∀ k, k < 4 → x.extractLsb' (8 * k) 8 = y.extractLsb' (8 * k) 8) : x = y := by
  apply BitVec.eq_of_getLsbD_eq
  intro i hi
  have := congrArg (fun z : BitVec 8 => z.getLsbD (i % 8)) (h (i / 8) (by omega))
  simp only [BitVec.getLsbD_extractLsb', show i % 8 < 8 by omega, decide_true, Bool.true_and,
    show 8 * (i / 8) + i % 8 = i by omega] at this
  exact this

/-- A written word is read back (R21(b)). -/
theorem wordAt_setWordAt_same {n : Nat} (v : Bytes n) (w : Nat) (x : Word) (h : 4 * w + 4 ≤ n) :
    wordAt (setWordAt v w x) w = x := by
  refine Word.ext_bytes fun k hk => ?_
  rw [wordAt_byte _ _ _ hk (by omega)]
  simp only [setWordAt, Vector.getElem_ofFn]
  rw [if_pos (by omega), show (4 * w + k) % 4 = k by omega]

/-- The other words stay. -/
theorem wordAt_setWordAt_other {n : Nat} (v : Bytes n) (w u : Nat) (x : Word) (h : 4 * u + 4 ≤ n) (hu : u ≠ w) :
    wordAt (setWordAt v w x) u = wordAt v u := by
  refine Word.ext_bytes fun k hk => ?_
  rw [wordAt_byte _ _ _ hk (by omega), wordAt_byte _ _ _ hk (by omega)]
  simp only [setWordAt, Vector.getElem_ofFn]
  rw [if_neg (by omega)]

/-! ### Which register an offset names (R20) -/

theorem regAt_st : ∀ w, w < 50 → regAt (0x100 + 4 * w) = .st w := by decide
theorem regAt_digest : ∀ w, w < 8 → regAt (0x200 + 4 * w) = .digest w := by decide
theorem regAt_rin : ∀ w, w < 4 → regAt (0x240 + 4 * w) = .rin w := by decide
theorem regAt_rkey : ∀ w, w < 4 → regAt (0x250 + 4 * w) = .rkey w := by decide
theorem regAt_rout : ∀ w, w < 4 → regAt (0x260 + 4 * w) = .rout w := by decide
theorem regAt_rk : ∀ w, w < 40 → regAt (0x280 + 4 * w) = .rk w := by decide
theorem regAt_fst : ∀ w, w < 50 → regAt (0x400 + 4 * w) = .fst w := by decide

/-- The offset of a register of the window; the registers of a byte array lie one word apart. -/
def Reg.offset : Reg → Nat
  | .id => 0x000
  | .cap => 0x004
  | .ctrl => 0x008
  | .status => 0x00C
  | .fault => 0x010
  | .cmd => 0x014
  | .spBaseLo => 0x018
  | .spBaseHi => 0x01C
  | .spLen => 0x020
  | .spsz => 0x024
  | .iter => 0x028
  | .align => 0x02C
  | .st w => 0x100 + 4 * w
  | .digest w => 0x200 + 4 * w
  | .rin w => 0x240 + 4 * w
  | .rkey w => 0x250 + 4 * w
  | .rout w => 0x260 + 4 * w
  | .rk w => 0x280 + 4 * w
  | .fst w => 0x400 + 4 * w
  | .reserved => 0x030

/-- The number of a register's word is one its array has. -/
def Reg.inArray : Reg → Bool
  | .st w => w < 50
  | .digest w => w < 8
  | .rin w => w < 4
  | .rkey w => w < 4
  | .rout w => w < 4
  | .rk w => w < 40
  | .fst w => w < 50
  | .id | .cap | .ctrl | .status | .fault | .cmd | .spBaseLo | .spBaseHi | .spLen | .spsz | .iter | .align
  | .reserved => true

/-- The whole map at once: an offset names the register that lies there, a word its array has, or none. -/
theorem regAt_map : ∀ w, w < 1024 → (regAt (4 * w)).inArray = true ∧
    (regAt (4 * w) = .reserved ∨ (regAt (4 * w)).offset = 4 * w) := by decide +kernel

/-- Two offsets of one register are one offset. -/
theorem regAt_injective {a b : Nat} (ha : a < 4096) (hb : b < 4096) (ha4 : a % 4 = 0) (hb4 : b % 4 = 0)
    (h : regAt a = regAt b) (hr : regAt a ≠ .reserved) : a = b := by
  have h1 := (regAt_map (a / 4) (by omega)).2
  have h2 := (regAt_map (b / 4) (by omega)).2
  rw [show 4 * (a / 4) = a by omega] at h1
  rw [show 4 * (b / 4) = b by omega] at h2
  rcases h1 with h1 | h1
  · exact absurd h1 hr
  · rcases h2 with h2 | h2
    · exact absurd (h.trans h2) hr
    · rw [← h1, h, h2]

/-! ### Host accesses at defined offsets -/

theorem targetOf_window (base off : Nat) (h : off < 4096) (h4 : off % 4 = 0) :
    targetOf base (base + off) 32 = .offset off := by
  unfold targetOf
  rw [if_neg (by simp only [Config.regWindow]; omega), if_pos ⟨rfl, by omega, by simpa using h4⟩]
  simp

/-- No register's value depends on the schedule. -/
@[simp] theorem readReg_moves (s : State) (ms : List Move) (r : Reg) :
    readReg { s with moves := ms } r = readReg s r := by
  cases r <;> rfl

/-- A host write at a defined offset. -/
theorem step_wr32 (s : State) (ms : List Move) (off : Nat) (val : Word) (h : off < 4096) (h4 : off % 4 = 0)
    (hm : s.moves = .busWrite (s.regBase + off) 32 val :: ms) :
    step s = .next (writeReg (regAt off) val { s with moves := ms }) := by
  simp only [step, nextMove, hm, perform, busWrite]
  rw [targetOf_window _ _ h h4]

/-- A host read at a defined offset. -/
theorem step_rd32 (s : State) (ms : List Move) (off : Nat) (h : off < 4096) (h4 : off % 4 = 0)
    (hm : s.moves = .busRead (s.regBase + off) 32 :: ms) :
    step s = .next { s with moves := ms, readback := .word (readReg s (regAt off)) } := by
  simp only [step, nextMove, hm, perform, busRead]
  rw [targetOf_window _ _ h h4]
  dsimp only
  rw [readReg_moves]

/-- Two steps of the machine, the first of which is known. -/
theorem run_two {s : State} (t : State) (h : step s = .next t) : Sys2Proof.core.run 2 s = step t := by
  have h' : Sys2Proof.core.step s = .next t := h
  simp only [Host.Core.run, h']
  change _ = Sys2Proof.core.step t
  cases Sys2Proof.core.step t <;> rfl

end Sys2Proof.Machine
end

