-- ==== Sys2Proof/Laws/Steps.lean ====
section
/-! SUPPORT. What one step can do: the commands' memory stays in the 64-bit space, acceptance, an abandoned command,
and the step in all its cases. -/

namespace Sys2Proof.Machine

/-- A command that touches the memory has a region that fits the 64-bit space (R73). -/
theorem exec_region_fits {i : Instr} {s t : State} (h : exec i s = .next t) :
    t.port.mem = s.port.mem ∨ s.spBase + Config.spSize ≤ 2 ^ 64 := by
  cases hc : checkDescriptor s with
  | none => exact .inr ((checkDescriptor_eq_none s).1 hc).2.2
  | some c =>
    by_cases hi : i = .check ∨ i.usesScratchpad = true
    · rw [exec_descriptor_fault hi hc] at h; cases h; exact .inl rfl
    · cases i <;> simp [Instr.usesScratchpad] at hi <;> cases h <;> exact .inl rfl

/-- No command writes outside the 64-bit space. -/
theorem exec_memInSpace {i : Instr} {s t : State} (h : exec i s = .next t) (hm : ∀ c ∈ s.port.mem, c.1 < 2 ^ 64) :
    ∀ c ∈ t.port.mem, c.1 < 2 ^ 64 := by
  rcases exec_region_fits h with e | hfit
  · rw [e]; exact hm
  · exact (exec_ended h).port.below _ hfit hm

/-! ### An abandoned command -/

/-- A command's run and its meaning do the same on the port, as far as the region goes. -/
theorem commandRun_within (i : Instr) (s : State) : Port.Within s.spBase s.port (commandRun i s).work.port := by
  cases i with
  | nop => exact .refl _ _
  | check => exact .refl _ _
  | round => exact .refl _ _
  | keyexp _ => exact .refl _ _
  | permute => exact permuteWork_within s.spBase s.permUnit s.fst s.work
  | select => exact selectWork_within s.spBase s.fst s.work
  | expand => exact expandRun_within s
  | mix => exact mixRun_within s
  | absorb => exact absorbRun_within s
  | run => exact runRun_within s

/-- Events that access only whole blocks of the region at `base`. -/
def EventsWithin (base : Nat) (es : List PortEvent) : Prop :=
  ∀ e ∈ es, ∀ a, e.address? = some a → ∃ n, n < Config.nBlocks ∧ a = base + 16 * n

theorem pendingEvents_within (s : State) : EventsWithin s.spBase (pendingEvents s) := by
  unfold EventsWithin pendingEvents
  split
  · simp
  · rename_i i _
    obtain ⟨es, h1, h2⟩ := (commandRun_within i { s with port := { s.port with trace := [] } }).trace
    simp only [List.append_nil] at h1
    intro e he
    rw [h1] at he
    exact h2 e (by simpa using he)

/-- A command whose descriptor does not fit the 64-bit space accesses nothing. -/
theorem pendingEvents_fits (s : State) :
    (∀ e ∈ pendingEvents s, e.address? = none) ∨ s.spBase + Config.spSize ≤ 2 ^ 64 := by
  cases hc : checkDescriptor s with
  | none => exact .inr ((checkDescriptor_eq_none s).1 hc).2.2
  | some c =>
    left
    have hc' : checkDescriptor { s with port := { s.port with trace := [] } } = some c := hc
    unfold pendingEvents
    split
    · simp
    · rename_i i _
      cases i with
      | nop => simp [commandRun]
      | check => simp [commandRun]
      | round => simp [commandRun]
      | keyexp _ => simp [commandRun]
      | permute => simp [commandRun, permuteWork, PortEvent.address?]
      | select => simp [commandRun, selectWork, PortEvent.address?]
      | expand => simp [commandRun, expandRun, checked_fault _ hc']
      | mix => simp [commandRun, mixRun, checked_fault _ hc']
      | absorb => simp [commandRun, absorbRun, checked_fault _ hc']
      | run => simp [commandRun, runRun, checked_fault _ hc']

/-! Each event changes the port as the access it stands for did, so replaying all of a run's events gives the port the
run left: its memory, the host's caches, and the number of the next free value. -/

theorem portRead_did (addr : Nat) (w : Work) : (portRead addr w).work.port = w.port.did (.read addr) := by
  rcases portRead_cases addr w with ⟨_, h⟩ | ⟨_, h⟩ | ⟨_, h⟩ <;> rw [h] <;> rfl

theorem portWrite_did (addr : Nat) (v : Block) (w : Work) :
    ∃ x, (portWrite addr v w).work.port = w.port.did (.write addr x) := by
  rcases portWrite_cases addr v w with ⟨_, h⟩ | ⟨_, h⟩ | ⟨_, h⟩ <;> rw [h] <;> exact ⟨_, rfl⟩

theorem Port.replay_append (es fs : List PortEvent) : ∀ p : Port, p.replay (es ++ fs) = (p.replay es).replay fs := by
  induction es with
  | nil => intro p; rfl
  | cons e es ih => intro p; exact ih (p.did e)

theorem Port.did_trace (e : PortEvent) (p : Port) : (p.did e).trace = e :: p.trace := by cases e <;> rfl

theorem Port.replay_trace (es : List PortEvent) : ∀ p : Port, (p.replay es).trace = es.reverse ++ p.trace := by
  induction es with
  | nil => intro p; rfl
  | cons e es ih =>
    intro p
    rw [Port.replay, ih, Port.did_trace, List.reverse_cons, List.append_assoc]
    rfl

/-- Some events, each as its access did, lead from one port to the other. -/
def Port.Replays (p q : Port) : Prop := ∃ es, q = p.replay es

theorem Port.Replays.refl (p : Port) : Port.Replays p p := ⟨[], rfl⟩

theorem Port.Replays.trans {p q r : Port} : Port.Replays p q → Port.Replays q r → Port.Replays p r := by
  rintro ⟨es, rfl⟩ ⟨fs, rfl⟩
  exact ⟨es ++ fs, (Port.replay_append es fs p).symm⟩

theorem portRead_replays (addr : Nat) (w : Work) : Port.Replays w.port (portRead addr w).work.port :=
  ⟨[.read addr], portRead_did addr w⟩

theorem portWrite_replays (addr : Nat) (v : Block) (w : Work) :
    Port.Replays w.port (portWrite addr v w).work.port := by
  obtain ⟨x, h⟩ := portWrite_did addr v w
  exact ⟨[.write addr x], h⟩

theorem andThen_replays {α β : Type} (r : Run α) (f : α → Work → Run β) (w : Work)
    (hr : Port.Replays w.port r.work.port) (hf : ∀ x w', Port.Replays w'.port (f x w').work.port) :
    Port.Replays w.port (r.andThen f).work.port :=
  andThen_rel (fun u v => Port.Replays u.port v.port) (fun _ _ _ => .trans) r f w hr hf

theorem loop_replays (f : Nat → Work → Run Unit) (h : ∀ k w, Port.Replays w.port (f k w).work.port) (n i : Nat)
    (w : Work) : Port.Replays w.port (loop f n i w).work.port :=
  loop_rel (fun u v => Port.Replays u.port v.port) (fun _ => .refl _) (fun _ _ _ => .trans) f n i w fun k w _ _ => h k w

theorem expandPhase_replays (st : Bytes 200) (base : Nat) (w : Work) :
    Port.Replays w.port (expandPhase st base w).work.port := by
  refine loop_replays (expandChunk base) (fun I w => ?_) Config.nChunks 0 (expandStart st w)
  exact loop_replays (expandBlock base I) (fun j w => portWrite_replays _ _ (w.setText j _)) 8 0 (w.setI I)

theorem mixFirst_replays (base : Nat) (w : Work) : Port.Replays w.port (mixFirst base w).work.port :=
  andThen_replays _ _ w (portRead_replays _ w) fun x w =>
    portWrite_replays _ _ (w.setC1 (aesRound x w.eng.a))

theorem mixSecond_replays (base : Nat) (w : Work) : Port.Replays w.port (mixSecond base w).work.port := by
  refine andThen_replays _ _ w (portRead_replays _ w) fun y w => ?_
  exact andThen_replays _ _ w (portWrite_replays _ _ w) fun _ w => .refl w.port

theorem mixPhase_replays (st : Bytes 200) (base : Nat) (w : Work) :
    Port.Replays w.port (mixPhase st base w).work.port := by
  refine loop_replays (mixIteration base) (fun I w => ?_) Config.mixIter 0 (mixStart st w)
  exact andThen_replays _ _ (w.setI I) (mixFirst_replays base _) fun _ w => mixSecond_replays base w

theorem absorbPhase_replays (st : Bytes 200) (base : Nat) (w : Work) :
    Port.Replays w.port (absorbPhase st base w).work.port := by
  unfold absorbPhase
  refine andThen_replays _ _ w ?_ fun _ w => by rw [Run.work_ok, Work.setFW_port]; exact .refl _
  refine loop_replays (absorbChunk base) (fun I w => ?_) Config.nChunks 0 (absorbStart st w)
  refine loop_replays (absorbBlock base I) (fun j w => ?_) 8 0 (w.setI I)
  exact andThen_replays _ _ w (portRead_replays _ w) fun _ w => .refl w.port

theorem permuteWork_replays (u : PermUnit) (f : Bytes 200) (w : Work) :
    Port.Replays w.port (permuteWork u f w).port := ⟨[.permute], rfl⟩

theorem selectWork_replays (f : Bytes 200) (w : Work) : Port.Replays w.port (selectWork f w).port :=
  ⟨[.hash (hashOf (selector f))], rfl⟩

theorem runPhase_replays (u : PermUnit) (st : Bytes 200) (base : Nat) (w : Work) :
    Port.Replays w.port (runPhase u st base w).work.port :=
  andThen_replays _ _ w (expandPhase_replays st base w) fun _ w =>
    andThen_replays _ _ w (mixPhase_replays st base w) fun _ w =>
      andThen_replays _ _ w (absorbPhase_replays st base w) fun _ w =>
        (permuteWork_replays u _ w).trans (selectWork_replays _ _)

theorem checked_replays (s : State) (body : Work → Run Unit) (h : ∀ w, Port.Replays w.port (body w).work.port) :
    Port.Replays s.port (checked s body).work.port := by
  unfold checked
  split
  · exact .refl _
  · exact h s.work

theorem commandRun_replays (i : Instr) (s : State) : Port.Replays s.port (commandRun i s).work.port := by
  cases i with
  | nop => exact .refl _
  | check => exact .refl _
  | round => exact .refl _
  | keyexp _ => exact .refl _
  | permute => exact permuteWork_replays _ _ s.work
  | select => exact selectWork_replays _ s.work
  | expand => exact checked_replays s _ (expandPhase_replays _ _)
  | mix => exact checked_replays s _ (mixPhase_replays _ _)
  | absorb => exact checked_replays s _ (absorbPhase_replays _ _)
  | run => exact checked_replays s _ (runPhase_replays _ _ _)

/-- Replaying all of the executing command's events leaves the port its run would leave: a reset that comes after the
last of them and before the commit finds every byte, free values included, as the run made it. -/
theorem replay_pendingEvents {s : State} {i : Instr} (h : decode s.eng.cw = .ok i) :
    Port.replay { s.port with trace := [] } (pendingEvents s) =
      (commandRun i { s with port := { s.port with trace := [] } }).work.port := by
  obtain ⟨es, he⟩ := commandRun_replays i { s with port := { s.port with trace := [] } }
  have ht := Port.replay_trace es { s.port with trace := [] }
  simp only [pendingEvents, h]
  rw [he, ht, List.append_nil, List.reverse_reverse]

theorem Port.did_within {base : Nat} {e : PortEvent} (p : Port)
    (h : ∀ a, e.address? = some a → ∃ n, n < Config.nBlocks ∧ a = base + 16 * n) : Port.Within base p (p.did e) := by
  cases e with
  | write a v =>
    obtain ⟨n, hn, rfl⟩ := h a rfl
    exact Port.put_within base n v p hn
  | read a => exact Port.note_within base _ _ _ h rfl
  | permute => exact Port.note_within base _ _ _ h rfl
  | hash _ => exact Port.note_within base _ _ _ h rfl

theorem Port.replay_within (base : Nat) (es : List PortEvent) : ∀ p : Port, EventsWithin base es →
    Port.Within base p (p.replay es) := by
  induction es with
  | nil => intro p _; exact .refl _ _
  | cons e es ih =>
    intro p h
    exact (Port.did_within p (h e List.mem_cons_self)).trans (ih _ fun e he => h e (List.mem_cons_of_mem _ he))

/-- Counting free values changes nothing else. -/
theorem Port.Within.recount {base : Nat} {p q : Port} (n : Nat) (h : Port.Within base p q) :
    Port.Within base p { q with freeCount := n } :=
  ⟨h.map_eq, h.outside, h.wf, h.below, h.trace, h.coh_eq, h.keys, h.kept, h.coherent⟩

/-- Events without an address store nothing. -/
theorem Port.replay_held (es : List PortEvent) : ∀ p : Port, (∀ e ∈ es, e.address? = none) →
    (p.replay es).held = p.held := by
  induction es with
  | nil => intro p _; rfl
  | cons e es ih =>
    intro p h
    have h0 := h e List.mem_cons_self
    refine (ih (p.did e) fun e he => h e (List.mem_cons_of_mem _ he)).trans ?_
    cases e with
    | write a v => simp [PortEvent.address?] at h0
    | read a => rfl
    | permute => rfl
    | hash _ => rfl

/-- What an abandoned command leaves (R240): no more than it could do itself. -/
theorem abandonedPort_within (k : Nat) (b : Bool) (s : State) :
    Port.Within s.spBase { s.port with trace := [] } (abandonedPort k b s) := by
  have h := pendingEvents_within s
  have h2 := Port.replay_within s.spBase ((pendingEvents s).take k) { s.port with trace := [] }
    fun e he => h e (List.mem_of_mem_take he)
  unfold abandonedPort
  simp only
  split
  · rename_i a v hv
    refine (h2.trans (Port.did_within _ ?_)).recount _
    intro a' ha
    exact h (.write a v) (List.mem_of_getElem? hv) a' ha
  · exact h2.recount _

theorem abandonedPort_map (k : Nat) (b : Bool) (s : State) : (abandonedPort k b s).map = s.port.map :=
  (abandonedPort_within k b s).map_eq

theorem abandonedPort_outside (k : Nat) (b : Bool) (s : State) (x : Nat)
    (hx : x < s.spBase ∨ s.spBase + Config.spSize ≤ x) : (abandonedPort k b s).mem.byte x = s.port.mem.byte x :=
  (abandonedPort_within k b s).outside x hx

theorem abandonedPort_wf (k : Nat) (b : Bool) (s : State) (h : s.port.mem.wf) : (abandonedPort k b s).mem.wf :=
  (abandonedPort_within k b s).wf h

/-- A command that makes no access leaves the memory as it was. -/
theorem abandonedPort_held {k : Nat} {b : Bool} {s : State} (h : ∀ e ∈ pendingEvents s, e.address? = none) :
    (abandonedPort k b s).held = s.port.held := by
  have h2 := Port.replay_held ((pendingEvents s).take k) { s.port with trace := [] }
    fun e he => h e (List.mem_of_mem_take he)
  unfold abandonedPort
  simp only
  split
  · rename_i a v hv
    exact absurd (h _ (List.mem_of_getElem? hv)) (by simp [PortEvent.address?])
  · exact h2

theorem abandonedPort_inSpace (k : Nat) (b : Bool) (s : State) (h : ∀ c ∈ s.port.mem, c.1 < 2 ^ 64) :
    ∀ c ∈ (abandonedPort k b s).mem, c.1 < 2 ^ 64 := by
  rcases pendingEvents_fits s with h0 | hfit
  · have e : (abandonedPort k b s).mem = s.port.mem := congrArg Prod.fst (abandonedPort_held h0)
    rw [e]; exact h
  · exact (abandonedPort_within k b s).below _ hfit h

/-! ### Acceptance -/

/-- What an accepted word does (R33): the latched word, LASTOP, BUSY and DONE, and the record of the ports. -/
structure Accepted (w : Word) (s t : State) : Prop where
  ph        : t.ph = .exec
  done      : t.done = false
  lastop    : t.lastop = w.extractLsb' 0 8
  cw        : t.eng.cw = w
  dataRegs  : t.dataRegs = s.dataRegs
  latch     : t.latch = s.latch
  selection : t.selection = s.selection
  ovr       : t.ovr = s.ovr
  moves     : t.moves = s.moves
  hwCap     : t.hwCap = s.hwCap
  accel     : t.accelBuild = s.accelBuild
  port      : t.port = { s.port with trace := [] }

theorem latchCommand_accepted (w : Word) (s : State) : Accepted w s (latchCommand w s) :=
  ⟨rfl, rfl, rfl, rfl, rfl, rfl, rfl, rfl, rfl, rfl, rfl, rfl⟩

/-! ### The step in all its cases -/

/-- A host write to a register, in all its cases. -/
inductive Written (r : Reg) (val : Word) (s : State) : State → Prop where
  | unchanged : Written r val s s
  | dropped : Written r val s (dropWrite s)
  | reset : r = .ctrl → val.getLsbD 0 = true → s.ph = .idle → Written r val s (softReset s)
  | accepted (t : State) : r = .cmd → s.ph = .idle → s.faulted = false → Accepted val s t → Written r val s t
  | data (t : State) : s.ph = .idle → t.surroundings = s.surroundings → t.latch = s.latch → t.selection = s.selection →
      t.ph = .idle → t.done = s.done → t.port = s.port → t.eng = s.eng → Written r val s t

theorem writeRW_written {r : Reg} {val : Word} (f : State → State) (s : State)
    (h : s.ph = .idle → Written r val s (f s)) : Written r val s (writeRW f s) := by
  unfold writeRW State.busy
  cases hp : s.ph with
  | idle => simpa using h hp
  | exec => simpa using Written.dropped

theorem written_spBaseLo {r : Reg} {val : Word} (s : State) (x : Word) (h : s.ph = .idle) :
    Written r val s { s with spBaseLo := x } :=
  .data _ h rfl rfl rfl h rfl rfl rfl
theorem written_spBaseHi {r : Reg} {val : Word} (s : State) (x : Word) (h : s.ph = .idle) :
    Written r val s { s with spBaseHi := x } :=
  .data _ h rfl rfl rfl h rfl rfl rfl
theorem written_spLen {r : Reg} {val : Word} (s : State) (x : Word) (h : s.ph = .idle) :
    Written r val s { s with spLen := x } :=
  .data _ h rfl rfl rfl h rfl rfl rfl
theorem written_st {r : Reg} {val : Word} (s : State) (x : Bytes 200) (h : s.ph = .idle) :
    Written r val s { s with st := x } :=
  .data _ h rfl rfl rfl h rfl rfl rfl
theorem written_rin {r : Reg} {val : Word} (s : State) (x : Block) (h : s.ph = .idle) :
    Written r val s { s with rin := x } :=
  .data _ h rfl rfl rfl h rfl rfl rfl
theorem written_rkey {r : Reg} {val : Word} (s : State) (x : Block) (h : s.ph = .idle) :
    Written r val s { s with rkey := x } :=
  .data _ h rfl rfl rfl h rfl rfl rfl
theorem written_fst {r : Reg} {val : Word} (s : State) (x : Bytes 200) (h : s.ph = .idle) :
    Written r val s { s with fst := x } :=
  .data _ h rfl rfl rfl h rfl rfl rfl

theorem writeReg_written (r : Reg) (val : Word) (s : State) : Written r val s (writeReg r val s) := by
  cases r with
  | ctrl =>
    refine writeRW_written _ s fun h => ?_
    unfold writeCtrl
    split
    · rename_i hv; exact .reset rfl hv h
    · exact .unchanged
  | cmd =>
    unfold writeReg writeCmd State.busy
    cases hp : s.ph with
    | exec => simpa using Written.dropped
    | idle =>
      cases hf : s.faulted with
      | true => simpa using Written.dropped
      | false => simpa using Written.accepted _ rfl hp hf (latchCommand_accepted val s)
  | spBaseLo => unfold writeReg; exact writeRW_written _ s fun h => written_spBaseLo s _ h
  | spBaseHi => unfold writeReg; exact writeRW_written _ s fun h => written_spBaseHi s _ h
  | spLen => unfold writeReg; exact writeRW_written _ s fun h => written_spLen s _ h
  | st w => unfold writeReg; exact writeRW_written _ s fun h => written_st s _ h
  | rin w => unfold writeReg; exact writeRW_written _ s fun h => written_rin s _ h
  | rkey w => unfold writeReg; exact writeRW_written _ s fun h => written_rkey s _ h
  | fst w => unfold writeReg; exact writeRW_written _ s fun h => written_fst s _ h
  | id => exact .unchanged
  | cap => exact .unchanged
  | status => exact .unchanged
  | fault => exact .unchanged
  | spsz => exact .unchanged
  | iter => exact .unchanged
  | align => exact .unchanged
  | digest w => exact .unchanged
  | rout w => exact .unchanged
  | rk w => exact .unchanged
  | reserved => exact .unchanged

/-- The engine's turn, in all its cases. -/
theorem engineTurn_cases {s t : State} (h : engineTurn s = .next t) :
    (s.ph = .idle ∧ t = s) ∨
    (s.ph = .exec ∧ ∃ i, decode s.eng.cw = .ok i ∧ exec i s = .next t) ∨
    (s.ph = .exec ∧ ∃ r, decode s.eng.cw = .error r ∧ t = faultEntry .badCmd s) := by
  unfold engineTurn at h
  split at h
  · rename_i hp
    injection h with h
    exact .inl ⟨hp, h.symm⟩
  · rename_i hp
    unfold runCommand at h
    split at h
    · rename_i i hd
      exact .inr (.inl ⟨hp, i, hd, h⟩)
    · rename_i r hd
      injection h with h
      exact .inr (.inr ⟨hp, r, hd, h.symm⟩)

/-- A step of the machine, in all its cases; `u` is the state with the move taken off the schedule. -/
inductive Stepped (u : State) : Option Move → State → Prop where
  | engine (t : State) (m : Option Move) : m = none ∨ m = some .engine → engineTurn u = .next t → Stepped u m t
  | elsewhere (m : Move) : Stepped u (some m) u
  | read (a w : Nat) (d : HostData) : Stepped u (some (.busRead a w)) { u with readback := d }
  | write (off : Nat) (val : Word) : off < 4096 → off % 4 = 0 →
      Stepped u (some (.busWrite (u.regBase + off) 32 val)) (writeReg (regAt off) val u)
  | store (a : Nat) (bs : List Byte) : a + bs.length ≤ 2 ^ 64 → u.port.coherent = true →
      Stepped u (some (.memStore a bs)) { u with port := { u.port with mem := u.port.mem.storeBytes a bs } }
  | storeCached (a : Nat) (bs : List Byte) : a + bs.length ≤ 2 ^ 64 → u.port.coherent = false →
      Stepped u (some (.memStore a bs)) { u with
        port := { u.port with cache := { u.port.cache with dirty := u.port.cache.dirty.storeBytes a bs } } }
  | load (a n : Nat) (d : HostData) : Stepped u (some (.memLoad a n))
      { u with readback := d, port := { u.port with freeCount := u.port.freeCount + 1 } }
  | writeBack (a n : Nat) : u.port.coherent = false →
      Stepped u (some (.cacheWriteBack a n)) { u with port := u.port.writeBack a n }
  | invalidate (a n : Nat) : u.port.coherent = false →
      Stepped u (some (.cacheInvalidate a n)) { u with port := u.port.invalidate a n }
  | input (b : Bool) : Stepped u (some (.hwCapInput b)) { u with hwCapPin := b }
  | reset (k : Nat) (b : Bool) : Stepped u (some (.hardReset k b)) (hardReset k b u)

theorem targetOf_offset {base addr width off : Nat} (h : targetOf base addr width = .offset off) :
    addr = base + off ∧ width = 32 ∧ off < 4096 ∧ off % 4 = 0 := by
  unfold targetOf at h
  split at h
  · cases h
  · split at h
    · rename_i h1 h2
      injection h with h
      simp only [Config.regWindow] at h1
      omega
    · cases h

theorem hostAccess_inSpace {s : State} {a n : Nat} (h : hostAccessRefused s a n = none) : a + n ≤ 2 ^ 64 := by
  unfold hostAccessRefused at h
  split at h
  · cases h
  · rename_i h1
    simp only [Config.paSpace] at h1
    omega

/-- Cache maintenance, in all its cases (R80). -/
theorem maintain_next {f : Port → Port} {a n : Nat} {s t : State} (h : maintain f a n s = .next t) :
    (s.port.coherent = true ∧ t = s) ∨ (s.port.coherent = false ∧ t = { s with port := f s.port }) := by
  unfold maintain at h
  split at h
  · rename_i hc
    injection h with h
    exact .inl ⟨hc, h.symm⟩
  · rename_i hc
    split at h
    · cases h
    · injection h with h
      exact .inr ⟨by simpa using hc, h.symm⟩

/-- What a step can do, said once: the move taken, and its effect. -/
theorem step_cases {s t : State} (h : step s = .next t) :
    (s.moves = [] ∧ Stepped s none t) ∨
    ∃ m ms, s.moves = m :: ms ∧ Stepped { s with moves := ms } (some m) t := by
  unfold step nextMove at h
  split at h
  · rename_i hm
    exact .inl ⟨hm, .engine _ _ (.inl rfl) h⟩
  · rename_i m ms hm
    refine .inr ⟨m, ms, hm, ?_⟩
    cases m with
    | engine => exact .engine _ _ (.inr rfl) h
    | busRead a w =>
      change busRead a w _ = _ at h
      unfold busRead at h
      split at h
      · injection h with h; subst h; exact .elsewhere _
      · injection h with h; subst h; exact .read _ _ _
      · cases h
    | busWrite a w v =>
      change busWrite a w v _ = _ at h
      unfold busWrite at h
      split at h
      · injection h with h; subst h; exact .elsewhere _
      · rename_i off ht
        injection h with h; subst h
        obtain ⟨rfl, rfl, h1, h2⟩ := targetOf_offset ht
        exact .write off v h1 h2
      · cases h
    | memStore a bs =>
      change memStore a bs _ = _ at h
      unfold memStore at h
      split at h
      · cases h
      · rename_i hn
        split at h
        · rename_i hc
          injection h with h; subst h
          exact .store a bs (hostAccess_inSpace hn) hc
        · rename_i hc
          injection h with h; subst h
          exact .storeCached a bs (hostAccess_inSpace hn) (by simpa using hc)
    | memLoad a n =>
      change memLoad a n _ = _ at h
      unfold memLoad at h
      split at h
      · cases h
      · injection h with h; subst h; exact .load a n _
    | cacheWriteBack a n =>
      rcases maintain_next (f := Port.writeBack a n) h with ⟨_, rfl⟩ | ⟨hc, rfl⟩
      · exact .elsewhere _
      · exact .writeBack a n hc
    | cacheInvalidate a n =>
      rcases maintain_next (f := Port.invalidate a n) h with ⟨_, rfl⟩ | ⟨hc, rfl⟩
      · exact .elsewhere _
      · exact .invalidate a n hc
    | hwCapInput b => injection h with h; subst h; exact .input b
    | hardReset k b => injection h with h; subst h; exact .reset k b

end Sys2Proof.Machine
end

