-- ==== Sys2Proof/Tests/Slice0.lean ====
section
/-! SUPPORT. Tests against the spec's own values (95_test_vectors.md, cited as TV) and words written out from
30_encoding.md, the smoke test of the well-formedness checks, and witnesses for the statements' hypotheses. -/

namespace Sys2Proof.Tests

/-! The kernel evaluates these tests one after another, so that few wait in memory at a time. -/
set_option Elab.async false

open Sys2Proof.Machine

/-! ### Small states -/

/-- A CNE after reset on a platform with every parameter chosen: the window at 0x40000000, a coherent port that serves
every access, the expected permutation unit, and the given variant. -/
def fresh (accel : Bool) : State :=
  { State.reset with
    regBase := 0x40000000
    accelBuild := accel
    hwCapPin := accel
    hwCap := accel
    permUnit := .keccakF1600
    port := { State.reset.port with map := [], coherent := true } }

/-- `fresh` with a descriptor. -/
def described (accel : Bool) (len : Word) (base : BitVec 64) : State :=
  { fresh accel with spLen := len, spBaseLo := base.extractLsb' 0 32, spBaseHi := base.extractLsb' 32 32 }

/-- A valid descriptor at 0x80000000. -/
def ready : State := described true 0x00200000 0x80000000

/-- `ready` with a command word latched. -/
def latched (w : Word) : State := latchCommand w ready

/-- `ready` on a memory system that ends every access in a bus error. -/
def barred : State :=
  { ready with port := { ready.port with map := [⟨0, 2 ^ 64, .busError⟩] } }

/-- `ready` on a memory system that never answers. -/
def mute : State :=
  { ready with port := { ready.port with map := [⟨0, 2 ^ 64, .noAnswer⟩] } }

/-- `ready` on a platform that is not coherent, with moves to come. -/
def incoherent (ms : List Move) : State := { ready with port := { ready.port with coherent := false }, moves := ms }

/-- STATUS and FAULT after an outcome that goes on. -/
def flags (o : Host.Outcome State Machine.Fault Refusal) : Option (Word × Word) :=
  match o with
  | .next t => some (statusWord t, faultWord t)
  | .fault _ => none
  | .refused _ => none

/-- STATUS and FAULT after the host has written the word to CMD and the engine has had its turn. -/
def issued (w : Word) (s : State) : Option (Word × Word) :=
  flags (Sys2Proof.core.run 2 { s with moves := [wr32 s.regBase 0x014 w, .engine] })

/-- One field of the next state. -/
def field {α : Type} (f : State → α) (o : Host.Outcome State Machine.Fault Refusal) : Option α :=
  match o with
  | .next t => some (f t)
  | .fault _ => none
  | .refused _ => none

/-! ### Decoding: the words of R91 and R96, bit by bit -/

theorem test_decode_nop : decode 0b00000000000000000000000000000000#32 = .ok .nop := by decide
theorem test_decode_check : decode 0b00000000000000000000000000000001#32 = .ok .check := by decide
theorem test_decode_round : decode 0b00000000000000000000000000000010#32 = .ok .round := by decide
theorem test_decode_keyexp_0 : decode 0b00000000000000000000000000000011#32 = .ok (.keyexp 0) := by decide
theorem test_decode_keyexp_1 : decode 0b00000000000000000000000100000011#32 = .ok (.keyexp 1) := by decide
theorem test_decode_expand : decode 0b00000000000000000000000000000100#32 = .ok .expand := by decide
theorem test_decode_mix : decode 0b00000000000000000000000000000101#32 = .ok .mix := by decide
theorem test_decode_absorb : decode 0b00000000000000000000000000000110#32 = .ok .absorb := by decide
theorem test_decode_permute : decode 0b00000000000000000000000000000111#32 = .ok .permute := by decide
theorem test_decode_select : decode 0b00000000000000000000000000001000#32 = .ok .select := by decide
theorem test_decode_run : decode 0b00000000000000000000000000001001#32 = .ok .run := by decide

/-- The illegal words of TV §6.2. -/
theorem test_decode_rejects :
    decode 0x0000000A = .error .undefinedOpcode ∧ decode 0x000000FF = .error .undefinedOpcode ∧
    decode 0x00000102 = .error .strayK ∧ decode 0x00000105 = .error .strayK ∧
    decode 0x00000200 = .error .reservedBits ∧ decode 0x80000009 = .error .reservedBits ∧
    decode 0xFFFFFFFF = .error .undefinedOpcode := by decide

theorem test_decodeTableWord : decodeTableWord 32 0x103 = some (.keyexp 1) ∧ decodeTableWord 32 0x109 = none := by
  decide

/-! ### Well-formedness of lines (R100) -/

theorem test_asm_keyexp : (AsmLine.mk "cne.keyexp" (some 1)).assemble = some 0x00000103 := by decide
theorem test_asm_unknown_mnemonic :
    (AsmLine.mk "cne.halt" none).mnemonicKnown = false ∧ (AsmLine.mk "cne.halt" none).wellFormed = false ∧
    (AsmLine.mk "cne.halt" none).assemble = none := by decide
theorem test_asm_missing_operand :
    (AsmLine.mk "cne.keyexp" none).operandPresence = false ∧ (AsmLine.mk "cne.keyexp" none).wellFormed = false ∧
    (AsmLine.mk "cne.keyexp" none).assemble = none := by decide
theorem test_asm_extra_operand :
    (AsmLine.mk "cne.mix" (some 0)).operandPresence = false ∧ (AsmLine.mk "cne.mix" (some 0)).wellFormed = false ∧
    (AsmLine.mk "cne.mix" (some 0)).assemble = none := by decide
theorem test_asm_operand_range :
    (AsmLine.mk "cne.keyexp" (some 2)).operandRange = false ∧
    (AsmLine.mk "cne.keyexp" (some 2)).wellFormed = false ∧
    (AsmLine.mk "cne.keyexp" (some 2)).assemble = none := by decide

/-! ### The block-round engine (TV §2) -/

/-- TV §2.1. -/
theorem test_field : xtime 0x57 = 0xAE ∧ xtime 0xAE = 0x47 ∧ gmul 0x57 0x13 = 0xFE ∧
    sbox 0x00 = 0x63 ∧ sbox 0x01 = 0x7C ∧ sbox 0x53 = 0xED ∧ sbox 0xFF = 0x16 := by decide

/-- TV §2.2, last row (FIPS-197). -/
def fipsRin : Block := #v[0x19, 0x3d, 0xe3, 0xbe, 0xa0, 0xf4, 0xe2, 0x2b, 0x9a, 0xc6, 0x8d, 0x2a, 0xe9, 0xf8, 0x48, 0x08]
/-- The same row's RKEY. -/
def fipsRkey : Block := #v[0xa0, 0xfa, 0xfe, 0x17, 0x88, 0x54, 0x2c, 0xb1, 0x23, 0xa3, 0x39, 0x39, 0x2a, 0x6c, 0x76, 0x05]

theorem test_round_fips : field State.rout (exec .round { fresh true with rin := fipsRin, rkey := fipsRkey }) =
    some #v[0xa4, 0x9c, 0x7f, 0xf2, 0x68, 0x9f, 0x35, 0x2b, 0x6b, 0x5b, 0xea, 0x43, 0x02, 0x6a, 0x50, 0x49] := by
  decide +kernel

/-- TV §2.2, row 4. -/
theorem test_round_one_byte : field State.rout (exec .round
      { fresh false with rin := #v[1, 0, 0, 0, 0, 0, 0, 0, 0, 0, 0, 0, 0, 0, 0, 0] }) =
    some #v[0x5d, 0x7c, 0x7c, 0x42, 0x63, 0x63, 0x63, 0x63, 0x63, 0x63, 0x63, 0x63, 0x63, 0x63, 0x63, 0x63] := by
  decide +kernel

/-- The FIPS-197 AES-256 key of TV §2.3. -/
def fipsKey : Bytes 32 :=
  (#v[0x60, 0x3d, 0xeb, 0x10, 0x15, 0xca, 0x71, 0xbe, 0x2b, 0x73, 0xae, 0xf0, 0x85, 0x7d, 0x77, 0x81] : Block) ++
  (#v[0x1f, 0x35, 0x2c, 0x07, 0x3b, 0x61, 0x08, 0xd7, 0x2d, 0x98, 0x10, 0xa3, 0x09, 0x14, 0xdf, 0xf4] : Block)

/-- A state whose ST has the FIPS key at bytes 32..63 and zero elsewhere. -/
def fipsInSt : State :=
  { fresh true with st := Vector.ofFn fun i => if i.val < 32 then 0 else fipsKey.toList.getD (i.val - 32) 0 }

/-- TV §2.3: the FIPS key's RK[9], through KEYEXP 1. -/
theorem test_keyexp_1 : field (fun t => t.rk[9]) (exec (.keyexp 1) fipsInSt) =
    some #v[0xc8, 0x14, 0xe2, 0x04, 0x76, 0xa9, 0xfb, 0x8a, 0x50, 0x25, 0xc0, 0x2d, 0x59, 0xc5, 0x82, 0x39] := by
  decide +kernel

/-- TV §2.3: the zero key's RK[3], through KEYEXP 0 on the same state. -/
theorem test_keyexp_0 : field (fun t => t.rk[3]) (exec (.keyexp 0) fipsInSt) =
    some #v[0xaa, 0xfb, 0xfb, 0xfb, 0xaa, 0xfb, 0xfb, 0xfb, 0xaa, 0xfb, 0xfb, 0xfb, 0xaa, 0xfb, 0xfb, 0xfb] := by
  decide +kernel

/-! ### The expander and the absorber (TV §4.1, §4.3) -/

/-- The all-zero key's schedule, TV §2.3. -/
def zeroKeys : KeySchedule :=
  #v[Vector.replicate 16 0, Vector.replicate 16 0,
    #v[0x62, 0x63, 0x63, 0x63, 0x62, 0x63, 0x63, 0x63, 0x62, 0x63, 0x63, 0x63, 0x62, 0x63, 0x63, 0x63],
    #v[0xaa, 0xfb, 0xfb, 0xfb, 0xaa, 0xfb, 0xfb, 0xfb, 0xaa, 0xfb, 0xfb, 0xfb, 0xaa, 0xfb, 0xfb, 0xfb],
    #v[0x6f, 0x6c, 0x6c, 0xcf, 0x0d, 0x0f, 0x0f, 0xac, 0x6f, 0x6c, 0x6c, 0xcf, 0x0d, 0x0f, 0x0f, 0xac],
    #v[0x7d, 0x8d, 0x8d, 0x6a, 0xd7, 0x76, 0x76, 0x91, 0x7d, 0x8d, 0x8d, 0x6a, 0xd7, 0x76, 0x76, 0x91],
    #v[0x53, 0x54, 0xed, 0xc1, 0x5e, 0x5b, 0xe2, 0x6d, 0x31, 0x37, 0x8e, 0xa2, 0x3c, 0x38, 0x81, 0x0e],
    #v[0x96, 0x8a, 0x81, 0xc1, 0x41, 0xfc, 0xf7, 0x50, 0x3c, 0x71, 0x7a, 0x3a, 0xeb, 0x07, 0x0c, 0xab],
    #v[0x9e, 0xaa, 0x8f, 0x28, 0xc0, 0xf1, 0x6d, 0x45, 0xf1, 0xc6, 0xe3, 0xe7, 0xcd, 0xfe, 0x62, 0xe9],
    #v[0x2b, 0x31, 0x2b, 0xdf, 0x6a, 0xcd, 0xdc, 0x8f, 0x56, 0xbc, 0xa6, 0xb5, 0xbd, 0xbb, 0xaa, 0x1e]]

/-- The work at the start of a phase with the zero schedule and zero texts. -/
def zeroWork : Work :=
  ready.work.setKeysText zeroKeys (Vector.replicate 8 (Vector.replicate 16 0))

/-- The memory a piece of pseudocode leaves, if it completed. -/
def leaves (r : Run Unit) : Option Work :=
  match r with
  | .ok _ w => some w
  | .stop _ _ => none

/-- TV §4.1: SP[0x70], chunk 0's last block, on the zero ST. -/
theorem test_expand_block : (leaves (expandBlock 0x80000000 0 7 zeroWork)).map (·.port.mem.readBlock 0x80000070) =
    some #v[0xa4, 0x73, 0xad, 0x45, 0xd0, 0x6d, 0xc2, 0xe9, 0xdf, 0x7a, 0x79, 0x0a, 0x0d, 0x69, 0xba, 0xdf] := by
  decide +kernel

/-- TV §2.4, row 2, as ABSORB's block: zero text with the block of row 1 in memory at chunk 1, block 0. -/
theorem test_absorb_block : (leaves (absorbBlock 0x80000000 1 0 (zeroWork.put 0x80000080
      #v[0xa4, 0x73, 0xad, 0x45, 0xd0, 0x6d, 0xc2, 0xe9, 0xdf, 0x7a, 0x79, 0x0a, 0x0d, 0x69, 0xba, 0xdf]))).map
      (·.eng.text[0]) =
    some #v[0x9c, 0x52, 0xe6, 0xc9, 0xc1, 0x46, 0x20, 0x3b, 0x55, 0x6c, 0xb3, 0xd8, 0x64, 0x17, 0xf7, 0x13] := by
  decide +kernel

/-! ### The mixer (TV §3) -/

/-- A block whose first four bytes are given. -/
def idx (a b c d : Byte) : Block := #v[a, b, c, d, 0xff, 0xff, 0xff, 0xff, 0, 0, 0, 0, 0, 0, 0, 0]

/-- TV §3.1. -/
theorem test_spIndex : spIndex (idx 0 0 0 0) = 0 ∧ spIndex (idx 0xff 0xff 0xff 0xff) = 0x1FFFF0 ∧
    spIndex (idx 0x0f 0x00 0xe0 0xff) = 0 ∧ spIndex (idx 0x10 0x11 0x12 0x13) = 0x121110 ∧
    spIndex (idx 0xfb 0xfb 0xfb 0xfb) = 0x1BFBF0 := by decide +kernel

/-- TV §3.2. -/
theorem test_mul128 : hi64 (mul128 0xFFFFFFFFFFFFFFFF 0xFFFFFFFFFFFFFFFF) = 0xFFFFFFFFFFFFFFFE ∧
    hi64 (mul128 0x0123456789ABCDEF 0xFEDCBA9876543210) = 0x0121FA00AD77D742 ∧
    lo64 (mul128 0x0123456789ABCDEF 0xFEDCBA9876543210) = 0x2236D88FE5618CF0 ∧
    add64 0xFFFFFFFFFFFFFFFF 1 = 0 := by decide +kernel

/-- TV §3.3: the start of the aliasing MixStep. -/
def aliasing : Work :=
  (ready.work.setAB
    #v[0x10, 0x11, 0x12, 0x13, 0x14, 0x15, 0x16, 0x17, 0x18, 0x19, 0x1a, 0x1b, 0x1c, 0x1d, 0x1e, 0x1f]
    #v[0xa0, 0xa1, 0xa2, 0xa3, 0xa4, 0xa5, 0xa6, 0xa7, 0xa8, 0xa9, 0xaa, 0xab, 0xac, 0xad, 0xae, 0xaf]).put 0x80121110
    #v[0xba, 0xa6, 0x9c, 0xeb, 0xe8, 0x2f, 0xfb, 0x5e, 0x36, 0x47, 0xbf, 0xc7, 0x7f, 0x80, 0xe0, 0xc7]

theorem test_mixStep_aliasing_a : (leaves (mixStep 0x80000000 aliasing)).map (·.eng.a) =
    some #v[0x47, 0x8d, 0x7b, 0xce, 0xe8, 0xcb, 0x2e, 0xa0, 0xec, 0x42, 0xf1, 0x25, 0xad, 0x3d, 0x9b, 0x2e] := by
  decide +kernel

theorem test_mixStep_aliasing_mem :
    (leaves (mixStep 0x80000000 aliasing)).map (·.port.mem.readBlock 0x80121110) =
    some #v[0xf5, 0x3d, 0x6b, 0xf3, 0x86, 0x6a, 0x5c, 0x2e, 0x9c, 0x57, 0xc6, 0x39, 0x07, 0xc0, 0x92, 0x4f] := by
  decide +kernel

/-! ### The finalizer (TV §4.4) -/

/-- R189: FST[0] = 0xE7 gives sel = 3, and STATUS shows SELV and SEL (R25). -/
theorem test_select : flags (exec .select { fresh true with fst := Vector.replicate 200 0xE7 }) =
    some (0x00000072, 0) := by decide +kernel

theorem test_hashOf : hashOf 0 = .blake256 ∧ hashOf 1 = .groestl256 ∧ hashOf 2 = .jh256 ∧ hashOf 3 = .skein512_256 := by
  decide

/-! ### STATUS and FAULT (TV §6) -/

/-- TV §6.2: completing words. -/
theorem test_issue_completes : issued 0x00000000 (fresh true) = some (0x00000002, 0) ∧
    issued 0x00000103 (fresh true) = some (0x00000302, 0) := by decide +kernel

/-- TV §6.2: BAD_CMD words. -/
theorem test_issue_bad_words : issued 0x0000000A ready = some (0x00000A04, 0x0A01) ∧
    issued 0x00000102 ready = some (0x00000204, 0x0201) ∧ issued 0x00000105 (fresh true) = some (0x00000504, 0x0501) ∧
    issued 0x00000200 ready = some (0x00000004, 0x0001) ∧ issued 0x80000009 ready = some (0x00000904, 0x0901) ∧
    issued 0xFFFFFFFF ready = some (0x0000FF04, 0xFF01) := by decide +kernel

/-- TV §6.1, CAP.ACCEL = 1. -/
theorem test_check_accelerated :
    issued 1 (fresh true) = some (0x104, 0x102) ∧
    issued 1 (described true 0x001FFFFF 0x80000000) = some (0x104, 0x102) ∧
    issued 1 (described true 0x00200000 0x80000000) = some (0x102, 0) ∧
    issued 1 (described true 0x00200000 0x10000008) = some (0x104, 0x103) ∧
    issued 1 (described true 0x00200000 0xFFFFFFFFFFE00000) = some (0x102, 0) ∧
    issued 1 (described true 0x00200000 0xFFFFFFFFFFE00010) = some (0x104, 0x104) ∧
    issued 1 (described true 0x00200000 0xFFFFFFFFFFE00008) = some (0x104, 0x103) ∧
    issued 1 (described true 0x00000000 0xFFFFFFFFFFFFFFF8) = some (0x104, 0x102) := by decide +kernel

/-- TV §6.1, CAP.ACCEL = 0. -/
theorem test_check_portable :
    issued 1 (described false 0x00200000 0x10000001) = some (0x102, 0) ∧
    issued 1 (described false 0x00200000 0xFFFFFFFFFFE00008) = some (0x104, 0x104) := by decide +kernel

/-- TV §6.1: the scratchpad commands report the same code under their own opcode. -/
theorem test_descriptor_faults : issued 4 (fresh true) = some (0x404, 0x402) ∧
    issued 5 (fresh true) = some (0x504, 0x502) ∧ issued 6 (fresh true) = some (0x604, 0x602) ∧
    issued 9 (fresh true) = some (0x904, 0x902) := by decide +kernel

/-- TV §6.3: MIX, ABSORB and RUN on a memory system that refuses every access, and EXPAND likewise. -/
theorem test_bus_errors : issued 4 barred = some (0x404, 0x405) ∧ issued 5 barred = some (0x504, 0x505) ∧
    issued 6 barred = some (0x604, 0x605) ∧ issued 9 barred = some (0x904, 0x905) := by decide +kernel

/-- TV §6.3: MIX has read once and memory is as it was. -/
theorem test_mix_bus_error : field (fun t => (t.port.mem, t.port.trace)) (exec .mix barred) =
    some ([], [.read 0x80000000]) := by decide +kernel

/-- R252: an access that is never answered. -/
theorem test_unanswered : (match exec .expand mute with | .fault f => some f | .next _ => none | .refused _ => none) =
    some .scratchpadNeverAnswers := by decide +kernel

/-! ### The window (TV §6.4, R20, R21) -/

/-- One host write to `fresh`. -/
def written (off : Nat) (val : Word) (s : State) : Host.Outcome State Machine.Fault Refusal :=
  step { s with moves := [wr32 0x40000000 off val] }

/-- TV §6.4: with a fault latched a CMD write is dropped and sets OVR; an SP_LEN write is accepted. -/
theorem test_write_while_faulted :
    flags (written 0x014 0 (faultEntry .spSize (fresh true))) = some (0x0000000C, 0x00000002) ∧
    field (·.spLen) (written 0x020 0x00200000 (faultEntry .spSize (fresh true))) = some 0x00200000 := by decide +kernel

/-- TV §6.4: with BUSY = 1 a write to ST and a write to CTRL are dropped. -/
theorem test_write_while_busy :
    field (fun t => (t.st[0], t.ovr)) (written 0x100 0xFFFFFFFF (latched 5)) = some (0, true) ∧
    field (fun t => (t.ph, t.ovr)) (written 0x008 1 (latched 5)) = some (.exec, true) := by decide +kernel

/-- TV §6.4: a write to ID is ignored, and R24: a write of 2 to CTRL resets nothing. -/
theorem test_write_ignored : flags (written 0x000 1 (complete (fresh true))) = some (2, 0) ∧
    flags (written 0x008 2 (complete (fresh true))) = some (2, 0) := by decide +kernel

/-- TV P3: the soft reset clears the latch and SP_LEN. -/
theorem test_soft_reset : flags (written 0x008 1 (faultEntry .spSize ready)) = some (0, 0) ∧
    field (·.spLen) (written 0x008 1 (faultEntry .spSize ready)) = some 0 := by decide +kernel

/-- TV §5.1: ST word 0 is 0x0146D2C5 for bytes c5 d2 46 01; TV P1: the last word of RIN. -/
theorem test_write_bytes :
    field (fun t => (t.st[0], t.st[1], t.st[2], t.st[3])) (written 0x100 0x0146D2C5 (fresh true)) =
      some (0xc5, 0xd2, 0x46, 0x01) ∧
    field (fun t => t.rin[15]) (written 0x24C 0x0848F8E9 (fresh true)) = some 0x08 := by decide +kernel

/-- TV P1: ROUT read as words. -/
theorem test_read_bytes : field (·.readback) (step { fresh true with
      rout := #v[0xa4, 0x9c, 0x7f, 0xf2, 0x68, 0x9f, 0x35, 0x2b, 0x6b, 0x5b, 0xea, 0x43, 0x02, 0x6a, 0x50, 0x49]
      moves := [rd32 0x40000000 0x26C] }) = some (.word 0x49506A02) := by decide +kernel

/-- R22, R36 to R38 and the window's last word. -/
theorem test_read_constants : readReg (fresh true) (regAt 0x000) = 0x434E4501 ∧
    readReg (fresh true) (regAt 0x024) = 0x00200000 ∧ readReg (fresh true) (regAt 0x028) = 0x00080000 ∧
    readReg (fresh true) (regAt 0x02C) = 16 ∧ readReg (fresh false) (regAt 0x02C) = 1 ∧
    readReg (fresh true) (regAt 0x004) = 7 ∧ readReg (fresh true) (regAt 0xFFC) = 0 := by decide +kernel

/-- R62: a 16-bit access and an odd offset are refused; one below the window is not the CNE's. -/
theorem test_window_edges :
    (match busRead 0x40000000 16 (fresh true) with | .refused r => some r | .next _ => none | .fault _ => none) =
      some .undefinedAccess ∧
    (match busRead 0x40000FFE 32 (fresh true) with | .refused r => some r | .next _ => none | .fault _ => none) =
      some .undefinedAccess ∧
    flags (busRead 0x3FFFFFFC 32 (fresh true)) = some (0, 0) ∧ flags (busRead 0x40001000 32 (fresh true)) = some (0, 0)
    := by decide +kernel

/-! ### Steps, hosts and resets -/

/-- `withFetchWord` from the reset state: CHECK with SP_LEN = 0 (TV §6.1), and NOP (R198). -/
theorem test_fetch_check : field (fun t => (t.code, t.fop, t.done)) (step (State.reset.withFetchWord 32 1)) =
    some (.spSize, 1, false) := by decide +kernel
theorem test_fetch_nop : field (fun t => (t.done, t.faulted, t.lastop)) (step (State.reset.withFetchWord 32 0)) =
    some (true, false, 0) := by decide +kernel

/-- R64, R75: a host store while idle, and the same store refused while MIX owns the region. -/
theorem test_host_store : field (·.port.mem) (memStore 0x80000010 [0xAB, 0xCD] ready) =
    some [(0x80000010, 0xAB), (0x80000011, 0xCD)] := by decide +kernel
theorem test_host_store_owned :
    (match memStore 0x80000010 [0xAB] (latched 5) with | .refused r => some r | .next _ => none | .fault _ => none) =
      some .ownedRegion := by decide +kernel

/-- R80, R221: without coherence a store waits in the host's caches; a MIX that faults at its check (SP_SIZE, TV §6.1)
touches nothing, so the write-back after it puts the host's byte in memory. -/
theorem test_failed_check_keeps_the_host_byte :
    field (fun t => (t.port.mem, t.port.cache.dirty, t.faulted)) (Sys2Proof.core.run 4 { incoherent [] with
      spLen := 0
      moves := [.memStore 0x80000010 [0xAB], cmd 0x40000000 .mix, .engine, .cacheWriteBack 0x80000000 2097152] }) =
      some ([(0x80000010, 0xAB)], [], true) := by decide +kernel

/-- R80: what is invalidated is no longer stale, and the rest is. -/
theorem test_invalidate_part : field (fun t => t.port.cache.stale) (cacheInvalidate 0x80000000 8
      { incoherent [] with port :=
        { ready.port with coherent := false, cache := { dirty := [], stale := [(0x80000000, 16)] } } }) =
    some [(0x80000008, 8)] := by decide +kernel

/-- R240: a hardware reset samples HW_CAP and leaves memory. -/
theorem test_hard_reset :
    field (fun t => (t.hwCap, t.spLen, t.port.mem)) (step { ready with
      hwCapPin := false
      port := { ready.port with mem := [(5, 1)] }
      moves := [.hardReset 0 false] }) = some (false, 0, [(5, 1)]) := by decide +kernel

/-! ### Witnesses: states and operands that meet each statement's hypotheses together -/

theorem ready_descriptorOk : ready.DescriptorOk := ⟨by decide, by decide, by decide⟩

/-- The highest region of the space, at 2^64 - 2^21. -/
def highest : State := described true 0x00200000 0xFFFFFFFFFFE00000

theorem highest_descriptorOk : highest.DescriptorOk := ⟨by decide, by decide, by decide⟩

theorem ready_served : ready.RegionServed := fun _ _ => rfl
theorem ready_handedOver : ready.HandedOver := fun _ _ _ => rfl
theorem highest_handedOver : highest.HandedOver := fun _ _ _ => rfl
/-- Without coherence, a host that has written everything back has handed the region over. -/
theorem incoherent_handedOver : (incoherent []).HandedOver := fun _ _ _ => rfl
theorem highest_served : highest.RegionServed := fun _ _ => rfl
theorem ready_answered : ready.RegionAnswered := fun n hn => by rw [ready_served n hn]; decide

/-- `ready` with moves to come. -/
def moving (ms : List Move) : State := { ready with moves := ms }

/-- The executing state with moves to come. -/
def busyMoving (w : Word) (ms : List Move) : State := { latched w with moves := ms }

/-- `IllegalWordRaisesBadCmd`: each clause at a boundary: OP = 0x0A, bits 9 and 31, bit 8 with OP = 0 and 4. -/
theorem witness_IllegalWordRaisesBadCmd :
    ((busyMoving 0x0A [.engine]).moves = .engine :: [] ∧ (busyMoving 0x0A [.engine]).ph = .exec) ∧
    ((latched 0x0A).moves = [] ∧ (latched 0x0A).ph = .exec ∧
      9 < ((latched 0x0A).eng.cw.extractLsb' 0 8).toNat) ∧
    ((latched 0x80000000).ph = .exec ∧ (latched 0x80000000).eng.cw.extractLsb' 9 23 ≠ 0) ∧
    ((latched 0x200).eng.cw.extractLsb' 9 23 ≠ 0) ∧
    ((latched 0x104).ph = .exec ∧ (latched 0x104).eng.cw.extractLsb' 8 1 = 1 ∧
      (latched 0x104).eng.cw.extractLsb' 0 8 ≠ 3) := by decide

/-- `StepRunsTheDecodedCommand`: its three clauses. -/
theorem witness_StepRunsTheDecodedCommand :
    ((latched 3).moves = [] ∧ (latched 3).ph = .exec ∧ decode (latched 3).eng.cw = .ok (.keyexp 0)) ∧
    ((busyMoving 9 [.engine]).moves = .engine :: [] ∧ (busyMoving 9 [.engine]).ph = .exec ∧
      decode (busyMoving 9 [.engine]).eng.cw = .ok .run) ∧
    decode 0x103#32 = .ok (.keyexp 1) := by decide

/-- `CmdWriteIsAcceptedOrDropped`: busy, faulted, and idle without a fault. -/
theorem witness_CmdWriteIsAcceptedOrDropped :
    ((busyMoving 5 [wr32 0x40000000 0x014 0]).moves =
      wr32 (busyMoving 5 []).regBase 0x014 0 :: [] ∧ (busyMoving 5 []).ph = .exec) ∧
    (faultEntry .badCmd (moving [wr32 0x40000000 0x014 0])).faulted = true ∧
    ((moving [wr32 0x40000000 0x014 0]).moves = wr32 ready.regBase 0x014 0 :: [] ∧ ready.ph = .idle ∧
      ready.faulted = false) := by decide

theorem witness_IssueIsTwoSteps : ready.ph = .idle ∧ ready.faulted = false ∧
    (moving [cmd 0x40000000 .mix, .engine]).moves = cmd ready.regBase .mix :: .engine :: [] := by decide

/-- `BusyRegisterWritesAreDropped`: both ends of every range. -/
theorem witness_BusyRegisterWritesAreDropped :
    ∀ off ∈ [0x008, 0x018, 0x01C, 0x020, 0x100, 0x1C4, 0x240, 0x24C, 0x250, 0x25C, 0x400, 0x4C4],
      ∃ (s : State) (ms : List Move) (val : Word), s.ph = .exec ∧ s.moves = wr32 s.regBase off val :: ms ∧
        (off = 0x008 ∨ off = 0x018 ∨ off = 0x01C ∨ off = 0x020 ∨
          (off % 4 = 0 ∧ (0x100 ≤ off ∧ off ≤ 0x1C7 ∨ 0x240 ≤ off ∧ off ≤ 0x24F ∨ 0x250 ≤ off ∧ off ≤ 0x25F ∨
            0x400 ≤ off ∧ off ≤ 0x4C7))) := by
  intro off h
  exact ⟨busyMoving 5 [wr32 0x40000000 off 1], [], 1, rfl, rfl, by revert off; decide⟩

/-- `ReadOnlyAndReservedWritesAreIgnored`: both ends of every range. -/
theorem witness_ReadOnlyAndReservedWritesAreIgnored :
    ∀ off ∈ [0x000, 0x004, 0x00C, 0x010, 0x024, 0x0FC, 0x1C8, 0x23C, 0x260, 0x3FC, 0x4C8, 0xFFC],
      ∃ (s : State) (ms : List Move) (val : Word), s.moves = wr32 s.regBase off val :: ms ∧ off % 4 = 0 ∧
        (off = 0x000 ∨ off = 0x004 ∨ off = 0x00C ∨ off = 0x010 ∨ (0x024 ≤ off ∧ off ≤ 0x0FF) ∨
          (0x1C8 ≤ off ∧ off ≤ 0x23F) ∨ (0x260 ≤ off ∧ off ≤ 0x3FF) ∨ (0x4C8 ≤ off ∧ off ≤ 0xFFF)) := by
  intro off h
  exact ⟨moving [wr32 0x40000000 off 1], [], 1, rfl, by revert off; decide⟩

/-- `IdleWriteThenReadReturnsTheWord`: both ends of every range, with another offset to compare. -/
theorem witness_IdleWriteThenReadReturnsTheWord :
    ∀ off ∈ [0x018, 0x020, 0x100, 0x1C4, 0x240, 0x25C, 0x400, 0x4C4],
      ∃ (s : State) (ms : List Move) (val : Word), s.ph = .idle ∧ s.moves = wr32 s.regBase off val :: ms ∧ off % 4 = 0 ∧
        ((0x018 ≤ off ∧ off ≤ 0x020) ∨ (0x100 ≤ off ∧ off ≤ 0x1C7) ∨ (0x240 ≤ off ∧ off ≤ 0x25F) ∨
          (0x400 ≤ off ∧ off ≤ 0x4C7)) ∧ ∃ off', off' % 4 = 0 ∧ off' < 4096 ∧ off' ≠ off := by
  intro off h
  refine ⟨moving [wr32 0x40000000 off 1], [], 1, rfl, rfl, ?_, ?_, 0, ?_⟩ <;> revert off <;> decide

/-- `ByteArraysReadLittleEndian`: the last byte of each array. -/
theorem witness_ByteArraysReadLittleEndian : (3 < 4 ∧ 4 * 49 + 3 < 200) ∧ 4 * 7 + 3 < 32 ∧ 4 * 3 + 3 < 16 ∧
    4 * 39 + 3 < 160 := by decide

/-- `RegisterReadsHaveNoSideEffect`: both ends of every range. -/
theorem witness_RegisterReadsHaveNoSideEffect :
    ∀ off ∈ [0x008, 0x014, 0x030, 0x0FC, 0x1C8, 0x1FC, 0x220, 0x23C, 0x270, 0x27C, 0x320, 0x3FC, 0x4C8, 0xFFC],
      ∃ (s : State) (ms : List Move), s.moves = rd32 s.regBase off :: ms ∧ off % 4 = 0 ∧ off < 4096 ∧
        (off = 0x008 ∨ off = 0x014 ∨ (0x030 ≤ off ∧ off ≤ 0x0FF) ∨ (0x1C8 ≤ off ∧ off ≤ 0x1FF) ∨
          (0x220 ≤ off ∧ off ≤ 0x23F) ∨ (0x270 ≤ off ∧ off ≤ 0x27F) ∨ (0x320 ≤ off ∧ off ≤ 0x3FF) ∨
          (0x4C8 ≤ off ∧ off ≤ 0xFFF)) := by
  intro off h
  exact ⟨moving [rd32 0x40000000 off], [], rfl, by revert off; decide⟩

/-- `UndefinedAccessesAreRefused`: a byte at the window's start, a word at its last byte, 64 bits at its last word. -/
theorem witness_UndefinedAccessesAreRefused :
    ∀ p ∈ ([(0x000, 8), (0xFFF, 32), (0xFFC, 64), (0x001, 32)] : List (Nat × Nat)),
      (∃ (s : State) (ms : List Move), s.moves = .busRead (s.regBase + p.1) p.2 :: ms) ∧
      (∃ (s : State) (ms : List Move) (val : Word), s.moves = .busWrite (s.regBase + p.1) p.2 val :: ms) ∧
      p.1 < 4096 ∧ 0 < p.2 ∧ (p.2 ≠ 32 ∨ p.1 % 4 ≠ 0) := by
  intro p h
  exact ⟨⟨moving [.busRead (0x40000000 + p.1) p.2], [], rfl⟩,
    ⟨moving [.busWrite (0x40000000 + p.1) p.2 0], [], 0, rfl⟩, by revert p; decide⟩

/-- `StatusFaultCapFields`: a state for each code. -/
theorem witness_StatusFaultCapFields : ready.code = .noFault ∧
    ∀ c ∈ [FaultCode.badCmd, .spSize, .spAlign, .spRange, .busErr], (faultEntry c ready).code = c :=
  ⟨rfl, fun _ _ => rfl⟩

/-- `AlignIsWhatCheckRequires`: both variants, at the highest region. -/
theorem witness_AlignIsWhatCheckRequires :
    (readReg highest (regAt 0x004)).getLsbD 2 = true ∧ (readReg (fresh false) (regAt 0x004)).getLsbD 2 = false ∧
    highest.spLen = 0x00200000#32 ∧ highest.spBase + 2097152 ≤ 2 ^ 64 := by decide +kernel

/-- `DescriptorCheckComesFirst`: each clause at its boundary (TV §6.1). -/
theorem witness_DescriptorCheckComesFirst :
    Instr.mix ∈ [Instr.check, .expand, .mix, .absorb, .run] ∧
    (described true 0x00200001 0).spLen ≠ 0x00200000#32 ∧
    ((described true 0x00200000 0x10000008).spLen = 0x00200000#32 ∧
      (described true 0x00200000 0x10000008).accelBuild = true ∧
      (described true 0x00200000 0x10000008).hwCap = true ∧
      (described true 0x00200000 0x10000008).spBaseLo.toNat % 16 ≠ 0) ∧
    ((described true 0x00200000 0xFFFFFFFFFFE00010).spBaseLo.toNat % 16 = 0 ∧
      2 ^ 64 < (described true 0x00200000 0xFFFFFFFFFFE00010).spBaseHi.toNat * 2 ^ 32 +
        (described true 0x00200000 0xFFFFFFFFFFE00010).spBaseLo.toNat + 2097152) ∧
    ((described false 0x00200000 0xFFFFFFFFFFE00001).accelBuild = false ∧
      2 ^ 64 < (described false 0x00200000 0xFFFFFFFFFFE00001).spBaseHi.toNat * 2 ^ 32 +
        (described false 0x00200000 0xFFFFFFFFFFE00001).spBaseLo.toNat + 2097152) ∧
    (highest.spLen = 0x00200000#32 ∧ highest.spBaseLo.toNat % 16 = 0 ∧
      highest.spBaseHi.toNat * 2 ^ 32 + highest.spBaseLo.toNat + 2097152 = 2 ^ 64) := by decide

/-- Its fourth clause: a descriptor that passes, at the highest region. -/
theorem witness_DescriptorCheckComesFirst_passing : ∃ t, exec .check highest = .next t := ⟨complete highest, rfl⟩

/-- `FaultEntryCommitsNothing`. -/
theorem witness_FaultEntryCommitsNothing : ∃ t, (fresh true).faulted = false ∧ exec .check (fresh true) = .next t ∧
    t.faulted = true := ⟨faultEntry .spSize (fresh true), rfl, rfl, rfl⟩

/-- `CommandsEnd`, both clauses; `ready_answered` is the second's. -/
theorem witness_CommandsEnd : (∃ t, exec .nop ready = .next t) ∧ ready.RegionAnswered := ⟨⟨_, rfl⟩, ready_answered⟩

theorem mute_descriptorOk : mute.DescriptorOk := ⟨by decide, by decide, by decide⟩

/-- `UnansweredAccessIsStuck`, both clauses. -/
theorem witness_UnansweredAccessIsStuck : mute.DescriptorOk ∧ replyAt mute.port.map mute.spBase = .noAnswer ∧
    replyAt mute.port.map (mute.spBase + spIndex (startA mute.st)) = .noAnswer :=
  ⟨mute_descriptorOk, by decide, by decide +kernel⟩

/-- `CheckCompletesOnValidDescriptor`, both clauses; the valid ones at the ends of the space. -/
theorem witness_CheckCompletesOnValidDescriptor : ready.DescriptorOk ∧ highest.DescriptorOk ∧
    ¬ (fresh true).DescriptorOk := ⟨ready_descriptorOk, highest_descriptorOk, fun h => absurd h.1 (by decide)⟩

/-- `KeyexpResult`: a K for each clause, and every K is one of the two. -/
theorem witness_KeyexpResult : ∀ k : BitVec 1, k = 0 ∨ k = 1 := by decide

/-- `PermuteResult`: a state for each unit, and the rounds, lanes and bytes at their ends. -/
theorem witness_PermuteResult : ready.permUnit = .keccakF1600 ∧
    ({ ready with permUnit := .other } : State).permUnit = .other ∧
    (4 < 5 ∧ 7 < 8 ∧ 8 * (4 + 5 * 4) + 7 < 200) ∧ (0 < 24 ∧ 23 < 24) := ⟨rfl, rfl, by decide, by decide⟩

/-- `SelectResult`: a byte 0 for each of the four branches, with the algorithm that meets the premises. -/
theorem witness_SelectResult : (0x04#8).toNat % 4 = 0 ∧ (0xFD#8).toNat % 4 = 1 ∧ (0x02#8).toNat % 4 = 2 ∧
    (0xFF#8).toNat % 4 = 3 ∧
    (∃ alg : HashAlg, ((0xFF#8).toNat % 4 = 0 → alg = .blake256) ∧ ((0xFF#8).toNat % 4 = 1 → alg = .groestl256) ∧
      ((0xFF#8).toNat % 4 = 2 → alg = .jh256) ∧ ((0xFF#8).toNat % 4 = 3 → alg = .skein512_256)) :=
  ⟨by decide, by decide, by decide, by decide, .skein512_256, by decide, by decide, by decide, by decide⟩

/-- `NoScratchpadAccess`, its three clauses. -/
theorem witness_NoScratchpadAccess : (∃ t, Instr.usesScratchpad .select = false ∧ exec .select ready = .next t) ∧
    (∃ t, ¬ (fresh true).DescriptorOk ∧ exec .run (fresh true) = .next t ∧ Instr.usesScratchpad .run = true) ∧
    (∃ t, decode (latched 0x0A).eng.cw = .error .undefinedOpcode ∧ engineTurn (latched 0x0A) = .next t) :=
  ⟨⟨_, rfl, rfl⟩, ⟨faultEntry .spSize (fresh true), fun h => absurd h.1 (by decide), rfl, rfl⟩,
    ⟨faultEntry .badCmd (latched 0x0A), rfl, rfl⟩⟩

/-- `AesRoundBytes`, `AesRoundIsInjective`, `SboxIsAffineOfInverse`. -/
theorem witness_AesRound : (3 < 4) ∧ aesRound fipsRin fipsRkey = aesRound fipsRin fipsRkey ∧ (0x53 : Byte) ≠ 0 :=
  ⟨by decide, rfl, by decide⟩

/-- `KeyScheduleRecurrence`: an index for each of its four cases, the first and the last of each. -/
theorem witness_KeyScheduleRecurrence : (7 < 40 ∧ 7 < 8) ∧ (8 ≤ 8 ∧ 8 % 8 = 0) ∧ (32 < 40 ∧ 32 % 8 = 0) ∧
    (12 % 8 = 4) ∧ (36 < 40 ∧ 36 % 8 = 4) ∧ (9 % 8 ≠ 0 ∧ 9 % 8 ≠ 4) ∧ (39 < 40 ∧ 39 % 8 ≠ 0 ∧ 39 % 8 ≠ 4) := by decide

/-- The statements whose hypotheses are a valid descriptor and a served region, handed over where they ask it:
`ExpandClosedForm`, `ExpandWritesEachBlockOnce`, `ExpandIgnoresThePrefill`, `MixRefinesTheMixingStep`, `AbsorbResult`,
`AbsorbReadsEachBlockOnce`, `RunComputesTheDigest`, `RunCallsEachPortOnce`, `RunIgnoresPriorContents`, and, with no
fault latched, `StepwiseEqualsRun`; the chunk and block numbers at their ends. -/
theorem witness_served_commands :
    (ready.DescriptorOk ∧ ready.HandedOver ∧ ready.RegionServed ∧ ready.faulted = false) ∧
    (highest.DescriptorOk ∧ highest.HandedOver ∧ highest.RegionServed ∧ highest.faulted = false) ∧
    ((incoherent []).DescriptorOk ∧ (incoherent []).HandedOver ∧ (incoherent []).RegionServed) ∧
    (16383 < 16384 ∧ 7 < 8 ∧ 64 + 16 * 7 + 16 ≤ 200) :=
  ⟨⟨ready_descriptorOk, ready_handedOver, ready_served, rfl⟩,
    ⟨highest_descriptorOk, highest_handedOver, highest_served, rfl⟩,
    ⟨ready_descriptorOk, incoherent_handedOver, ready_served⟩, by decide⟩

/-- `MixStepEffect`; the second clauses of `ExpandWritesEachBlockOnce` and `AbsorbReadsEachBlockOnce` too. -/
theorem witness_MixStepEffect : (∀ n, n < 131072 → replyAt ready.work.port.map (0x80000000 + 16 * n) = .served) ∧
    (∀ x, 0x80000000 ≤ x → x < 0x80000000 + 2097152 → ready.work.port.unsure x = false) :=
  ⟨fun _ _ => rfl, fun _ _ _ => rfl⟩

/-- `ready` on a memory system that ends the access to one block in a bus error. -/
def barredAt (n : Nat) : State :=
  { ready with port := { ready.port with map := [⟨0x80000000 + 16 * n, 0x80000000 + 16 * n, .busError⟩] } }

theorem replyAt_barredAt (n m : Nat) :
    replyAt (barredAt n).port.map ((barredAt n).spBase + 16 * m) = if m = n then .busError else .served := by
  have hb : (barredAt n).spBase = 0x80000000 := (by decide : ready.spBase = 0x80000000)
  rw [hb]
  simp only [barredAt, replyAt, List.find?]
  by_cases h : m = n
  · subst h; simp
  · rw [if_neg h]
    have : decide (0x80000000 + 16 * n ≤ 0x80000000 + 16 * m ∧ 0x80000000 + 16 * m ≤ 0x80000000 + 16 * n) = false := by
      simp; omega
    simp only [this]

/-- `ExpandBusErrorKeepsEarlierWrites`, its first clause, and `AbsorbBusErrorChangesNothing`: the first, an inner
(TV §6.3) and the last block. -/
theorem witness_bus_error : ∀ n ∈ [0, 8, 131071], (barredAt n).DescriptorOk ∧ n < 131072 ∧
    (∀ m, m < n → replyAt (barredAt n).port.map ((barredAt n).spBase + 16 * m) = .served) ∧
    replyAt (barredAt n).port.map ((barredAt n).spBase + 16 * n) = .busError := by
  intro n h
  refine ⟨ready_descriptorOk, ?_, fun m hm => ?_, ?_⟩
  · revert n; decide
  · rw [replyAt_barredAt, if_neg (by omega)]
  · rw [replyAt_barredAt, if_pos rfl]

/-- `barredAt` with a block of zeros at the region's start. -/
def barredWithZeros (n : Nat) : State :=
  { barredAt n with port := { (barredAt n).port with mem := Memory.writeBlock [] 0x80000000 (Vector.replicate 16 0) } }

/-- The mixer's start as `ExpandBusErrorKeepsEarlierWrites` writes it. -/
def mixerAt (s : State) : MixView :=
  { a := Vector.ofFn fun m : Fin 16 => s.st[m.val] ^^^ s.st[32 + m.val]
    b := Vector.ofFn fun m : Fin 16 => s.st[16 + m.val] ^^^ s.st[48 + m.val]
    sp := fun m => s.port.mem.readBlock (s.spBase + 16 * m) }

/-- `ExpandBusErrorKeepsEarlierWrites`, its second clause, at K = 0: the zero ST and the zero block read block 0
first and block 0x3636 (bytes 63 63 63 63, R155) second; each of the two reads can be the one that is not served. -/
theorem witness_mix_bus_error :
    ∀ n, (barredWithZeros n).DescriptorOk ∧ (barredWithZeros n).HandedOver ∧ (barredWithZeros n).spBase = 0x80000000 ∧
      0 < 524288 :=
  fun _ => ⟨ready_descriptorOk, fun _ _ _ => rfl, (by decide : ready.spBase = 0x80000000), by decide⟩

theorem witness_mix_first_read :
    replyAt (barredWithZeros 0).port.map (0x80000000 + spIndex (MixView.steps 0 (mixerAt (barredWithZeros 0))).a) =
      .busError := by decide +kernel

theorem witness_mix_second_read :
    replyAt (barredWithZeros 0x3636).port.map
      (0x80000000 + spIndex (MixView.steps 0 (mixerAt (barredWithZeros 0x3636))).a) = .served ∧
    replyAt (barredWithZeros 0x3636).port.map
      (0x80000000 + spIndex (MixView.steps 0 (mixerAt (barredWithZeros 0x3636))).c1) = .busError := by decide +kernel

/-- `CommandFrame` and `AccessesStayInTheRegion`; a scratchpad command that ends stands in `witness_bus_error`'s
states and, completed, in `witness_served_commands`. -/
theorem witness_CommandFrame : ∃ t, exec .round ready = .next t := ⟨_, rfl⟩

/-- `VariantChangesNoValue`. -/
theorem witness_VariantChangesNoValue : ∃ t, ready.DescriptorOk ∧ State.DescriptorOk { ready with hwCap := false } ∧
    exec .nop ready = .next t := ⟨_, ready_descriptorOk, ⟨by decide, by decide, by decide⟩, rfl⟩

/-- `SoftReset`, its three clauses; a word with other bits set is one too. -/
theorem witness_SoftReset : (0xFFFFFFFF#32).getLsbD 0 = true ∧
    (moving [wr32 0x40000000 0x008 0xFFFFFFFF]).moves = wr32 ready.regBase 0x008 0xFFFFFFFF :: [] ∧
    (moving []).ph = .idle ∧ (0xFFFFFFFE#32).getLsbD 0 = false ∧
    (moving [wr32 0x40000000 0x008 0xFFFFFFFE]).moves = wr32 ready.regBase 0x008 0xFFFFFFFE :: [] ∧
    (busyMoving 9 [wr32 0x40000000 0x008 1]).moves = wr32 ready.regBase 0x008 1 :: [] ∧ (busyMoving 9 []).ph = .exec := by
  decide

/-- `HardReset`: idle, and while NOP executes. -/
theorem witness_HardReset : (moving [.hardReset 0 true]).moves = .hardReset 0 true :: [] ∧
    (moving [.hardReset 0 true]).ph = .idle ∧
    (busyMoving 0 [.hardReset 0 true]).moves = .hardReset 0 true :: [] ∧ (busyMoving 0 []).ph = .exec ∧
    decode (busyMoving 0 []).eng.cw = .ok .nop ∧ Instr.usesScratchpad .nop = false := by decide

/-- `HardResetKeepsPerformedWrites`: none, some and all of the writes performed, and one in progress. -/
theorem witness_HardResetKeepsPerformedWrites : ∀ b, ∀ k ∈ (if b then [0, 8, 131071] else [0, 8, 131072]),
    (busyMoving 4 [.hardReset k b]).moves = .hardReset k b :: [] ∧ (busyMoving 4 []).ph = .exec ∧
    decode (busyMoving 4 [.hardReset k b]).eng.cw = .ok .expand ∧
    (busyMoving 4 [.hardReset k b]).DescriptorOk ∧ (busyMoving 4 [.hardReset k b]).RegionServed ∧
    (b = false → k ≤ 131072) ∧ (b = true → k < 131072) := by
  intro b k h
  exact ⟨rfl, rfl, (by decide : decode 0x04#32 = .ok .expand), ready_descriptorOk, ready_served,
    by revert k; revert b; decide, by revert k; revert b; decide⟩

/-- `CapChangesOnlyAtHardwareReset`: its three clauses. -/
theorem witness_CapChangesOnlyAtHardwareReset :
    (∃ t, step (moving []) = .next t ∧ ∀ k b ms, (moving []).moves ≠ .hardReset k b :: ms) ∧
    (∃ t, step (moving [.hardReset 0 false]) = .next t ∧
      (moving [.hardReset 0 false]).moves = .hardReset 0 false :: []) ∧
    (∃ t, step (moving [.hwCapInput false]) = .next t ∧
      (moving [.hwCapInput false]).moves = .hwCapInput false :: []) :=
  ⟨⟨_, rfl, by intro k b ms h; cases h⟩, ⟨_, rfl, rfl⟩, ⟨_, rfl, rfl⟩⟩

/-- `LatchesClearOnlyByReset`: a faulted idle CNE with OVR set, and a host read to come. -/
theorem witness_LatchesClearOnlyByReset : ∃ s t : State, s.ovr = true ∧ s.faulted = true ∧ s.ph = .idle ∧
    step s = .next t ∧ (∀ k b ms, s.moves ≠ .hardReset k b :: ms) ∧
    (∀ val ms, val.getLsbD 0 = true → s.moves ≠ wr32 s.regBase 0x008 val :: ms) :=
  ⟨dropWrite (faultEntry .badCmd (moving [.cacheInvalidate 0 16])), _, rfl, rfl, rfl, rfl,
    (by intro k b ms h; cases h), (by intro val ms _ h; cases h)⟩

/-- `OwnedRegionIsRefused`: a store that ends on the region's first byte, a load that begins on its last; and, without
coherence, maintenance of its last byte. -/
theorem witness_OwnedRegionIsRefused : (busyMoving 5 []).ph = .exec ∧ decode (busyMoving 5 []).eng.cw = .ok .mix ∧
    Instr.usesScratchpad .mix = true ∧
    ((busyMoving 5 [.memStore 0x7FFFFFFF [1, 2]]).moves = .memStore 0x7FFFFFFF [1, 2] :: [] ∧
      0x7FFFFFFF + [1, 2].length ≤ 2 ^ 64 ∧ 0x7FFFFFFF < (busyMoving 5 []).spBase + 2097152 ∧
      (busyMoving 5 []).spBase < 0x7FFFFFFF + [1, 2].length) ∧
    ((busyMoving 5 [.memLoad 0x801FFFFF 1]).moves = .memLoad 0x801FFFFF 1 :: [] ∧
      0x801FFFFF < (busyMoving 5 []).spBase + 2097152 ∧ (busyMoving 5 []).spBase < 0x801FFFFF + 1) ∧
    (∀ m ∈ [Move.cacheWriteBack 0x801FFFFF 1, .cacheInvalidate 0x801FFFFF 1],
      ({ latchCommand 5 (incoherent []) with moves := [m] } : State).moves = m :: [] ∧
      (latchCommand 5 (incoherent [])).ph = .exec ∧ (latchCommand 5 (incoherent [])).port.coherent = false) :=
  ⟨by decide, by decide, by decide, by decide, by decide, fun _ _ => ⟨rfl, rfl, rfl⟩⟩

/-- `HostStoreAndLoad`: a store and a load of the last byte of the space, with and without coherence. -/
theorem witness_HostStoreAndLoad : ready.ph = .idle ∧
    (moving [.memStore 0xFFFFFFFFFFFFFFFF [7]]).moves = .memStore 0xFFFFFFFFFFFFFFFF [7] :: [] ∧
    0xFFFFFFFFFFFFFFFF + [7].length ≤ 2 ^ 64 ∧
    (moving [.memLoad 0xFFFFFFFFFFFFFFFF 1]).moves = .memLoad 0xFFFFFFFFFFFFFFFF 1 :: [] ∧
    ready.port.coherent = true ∧ (incoherent []).port.coherent = false ∧ (incoherent []).ph = .idle ∧
    (incoherent [.memStore 0xFFFFFFFFFFFFFFFF [7], .cacheWriteBack 0xFFFFFFFFFFFFFFFF 1]).moves =
      .memStore 0xFFFFFFFFFFFFFFFF [7] :: .cacheWriteBack 0xFFFFFFFFFFFFFFFF [7].length :: [] ∧
    (incoherent []).port.cache.dirty.wf ∧
    (incoherent [.cacheInvalidate 0xFFFFFFFFFFFFFFFF 1, .memLoad 0xFFFFFFFFFFFFFFFF 1]).moves =
      .cacheInvalidate 0xFFFFFFFFFFFFFFFF 1 :: .memLoad 0xFFFFFFFFFFFFFFFF 1 :: [] ∧
    (incoherent []).port.cache.dirty.find 0xFFFFFFFFFFFFFFFF = none := by decide

/-- `StepKeepsLegal`: a legal state whose step goes on. -/
theorem witness_StepKeepsLegal : ∃ t, ready.Legal ∧ step ready = .next t :=
  ⟨ready, by constructor <;> decide, rfl⟩

/-! ### The longest evaluation, last -/

/-- TV §4.4: KeccakF(00×200), FST bytes 0 and 199. -/
theorem test_permute : field (fun t => (t.fst[0], t.fst[199])) (exec .permute (fresh true)) = some (0xe7, 0xea) := by
  decide +kernel

end Sys2Proof.Tests
end

section
/-! PROOF. 10_state.md: the register window.  What a write does to each kind of register (R21, R33, R48), which
offsets name that kind (R20), and where the fields of STATUS, FAULT and CAP stand (R23, R25, R32). -/

namespace Sys2Proof.Machine

/-! ### The kinds of registers -/

/-- The RW registers of R48 other than CTRL: the ones a write stores its value in. -/
def Reg.isData : Reg → Bool
  | .spBaseLo | .spBaseHi | .spLen | .st _ | .rin _ | .rkey _ | .fst _ => true
  | .id | .cap | .ctrl | .status | .fault | .cmd | .spsz | .iter | .align | .digest _ | .rout _ | .rk _
  | .reserved => false

/-- The read-only registers and the reserved offsets (R21(c) to R21(e)). -/
def Reg.ignoresWrites : Reg → Bool
  | .id | .cap | .status | .fault | .spsz | .iter | .align | .digest _ | .rout _ | .rk _ | .reserved => true
  | .ctrl | .cmd | .spBaseLo | .spBaseHi | .spLen | .st _ | .rin _ | .rkey _ | .fst _ => false

/-- Where R20 puts the data registers, by word. -/
theorem regAt_isData_words : ∀ w, w < 1024 →
    ((6 ≤ w ∧ w ≤ 8) ∨ (0x40 ≤ w ∧ w ≤ 0x71) ∨ (0x90 ≤ w ∧ w ≤ 0x97) ∨ (0x100 ≤ w ∧ w ≤ 0x131)) →
    (regAt (4 * w)).isData = true := by decide +kernel

theorem regAt_isData {off : Nat} (h4 : off % 4 = 0)
    (h : (0x018 ≤ off ∧ off ≤ 0x020) ∨ (0x100 ≤ off ∧ off ≤ 0x1C7) ∨ (0x240 ≤ off ∧ off ≤ 0x25F) ∨
      (0x400 ≤ off ∧ off ≤ 0x4C7)) : (regAt off).isData = true := by
  have := regAt_isData_words (off / 4) (by omega) (by omega)
  rwa [show 4 * (off / 4) = off by omega] at this

/-- Where R20 puts the read-only registers and the reserved offsets, by word. -/
theorem regAt_ignoresWrites_words : ∀ w, w < 1024 →
    (w = 0 ∨ w = 1 ∨ w = 3 ∨ w = 4 ∨ (9 ≤ w ∧ w ≤ 0x3F) ∨ (0x72 ≤ w ∧ w ≤ 0x8F) ∨ (0x98 ≤ w ∧ w ≤ 0xFF) ∨
      0x132 ≤ w) →
    (regAt (4 * w)).ignoresWrites = true := by decide +kernel

theorem regAt_ignoresWrites {off : Nat} (h4 : off % 4 = 0)
    (h : off = 0x000 ∨ off = 0x004 ∨ off = 0x00C ∨ off = 0x010 ∨ (0x024 ≤ off ∧ off ≤ 0x0FF) ∨
      (0x1C8 ≤ off ∧ off ≤ 0x23F) ∨ (0x260 ≤ off ∧ off ≤ 0x3FF) ∨ (0x4C8 ≤ off ∧ off ≤ 0xFFF)) :
    (regAt off).ignoresWrites = true := by
  have := regAt_ignoresWrites_words (off / 4) (by omega) (by omega)
  rwa [show 4 * (off / 4) = off by omega] at this

theorem regAt_inArray {off : Nat} (h : off < 4096) (h4 : off % 4 = 0) : (regAt off).inArray = true := by
  have := (regAt_map (off / 4) (by omega)).1
  rwa [show 4 * (off / 4) = off by omega] at this

/-! ### What a write does -/

theorem writeRW_idle {s : State} (f : State → State) (h : s.ph = .idle) : writeRW f s = f s := by
  simp [writeRW, (busy_eq_false s).2 h]

theorem writeRW_exec {s : State} (f : State → State) (h : s.ph = .exec) : writeRW f s = dropWrite s := by
  simp [writeRW, (busy_eq_true s).2 h]

theorem writeCmd_dropped {s : State} (val : Word) (h : s.ph = .exec ∨ s.faulted = true) :
    writeCmd val s = dropWrite s := by
  unfold writeCmd
  rcases h with h | h
  · simp [(busy_eq_true s).2 h]
  · simp [h]

theorem writeCmd_accepted {s : State} (val : Word) (h : s.ph = .idle) (hf : s.faulted = false) :
    writeCmd val s = latchCommand val s := by
  simp [writeCmd, (busy_eq_false s).2 h, hf]

/-- A word stored in a data register; the other registers store nothing. -/
def storeWord (r : Reg) (val : Word) (s : State) : State :=
  match r with
  | .spBaseLo => { s with spBaseLo := val }
  | .spBaseHi => { s with spBaseHi := val }
  | .spLen => { s with spLen := val }
  | .st w => { s with st := setWordAt s.st w val }
  | .rin w => { s with rin := setWordAt s.rin w val }
  | .rkey w => { s with rkey := setWordAt s.rkey w val }
  | .fst w => { s with fst := setWordAt s.fst w val }
  | .id | .cap | .ctrl | .status | .fault | .cmd | .spsz | .iter | .align | .digest _ | .rout _ | .rk _ | .reserved => s

/-- A write to a data register stores its word, unless it is dropped. -/
theorem writeReg_isData {r : Reg} (h : r.isData = true) (val : Word) (s : State) :
    writeReg r val s = writeRW (storeWord r val) s := by
  cases r with
  | spBaseLo | spBaseHi | spLen | st _ | rin _ | rkey _ | fst _ => rfl
  | _ => cases h

/-- A write to a read-only register or a reserved offset does nothing (R21(c) to R21(e)). -/
theorem writeReg_ignored {r : Reg} (h : r.ignoresWrites = true) (val : Word) (s : State) : writeReg r val s = s := by
  cases r with
  | ctrl | cmd | spBaseLo | spBaseHi | spLen | st _ | rin _ | rkey _ | fst _ => cases h
  | _ => rfl

/-- A write to an RW register is dropped while a command executes (R48). -/
theorem writeReg_busy {r : Reg} {s : State} (h : r = .ctrl ∨ r.isData = true) (val : Word) (hs : s.ph = .exec) :
    writeReg r val s = dropWrite s := by
  rcases h with rfl | h
  · exact writeRW_exec _ hs
  · rw [writeReg_isData h, writeRW_exec _ hs]

/-! ### What a stored word changes -/

@[simp] theorem storeWord_port (r : Reg) (val : Word) (s : State) : (storeWord r val s).port = s.port := by
  cases r <;> simp only [storeWord]
@[simp] theorem storeWord_moves (r : Reg) (val : Word) (s : State) : (storeWord r val s).moves = s.moves := by
  cases r <;> simp only [storeWord]
@[simp] theorem storeWord_latch (r : Reg) (val : Word) (s : State) : (storeWord r val s).latch = s.latch := by
  cases r <;> simp only [storeWord, State.latch]
@[simp] theorem storeWord_selection (r : Reg) (val : Word) (s : State) :
    (storeWord r val s).selection = s.selection := by
  cases r <;> simp only [storeWord, State.selection]
@[simp] theorem storeWord_surroundings (r : Reg) (val : Word) (s : State) :
    (storeWord r val s).surroundings = s.surroundings := by
  cases r <;> simp only [storeWord, State.surroundings]

/-- The stored word is read back (R21(b)). -/
theorem readReg_storeWord_same {r : Reg} (h : r.isData = true) (hr : r.inArray = true) (val : Word) (s : State) :
    readReg (storeWord r val s) r = val := by
  cases r with
  | spBaseLo | spBaseHi | spLen => rfl
  | st w | rin w | rkey w | fst w =>
    have hw := of_decide_eq_true hr
    exact wordAt_setWordAt_same _ _ _ (by omega)
  | _ => cases h

/-! No register but its own reads a byte array; the array is any one, so that no proof computes with its bytes. -/

theorem readReg_setSt (s : State) (v : Bytes 200) {r : Reg} (h : ∀ w, r ≠ .st w) :
    readReg { s with st := v } r = readReg s r := by
  cases r with
  | st w => exact absurd rfl (h w)
  | _ => rfl

theorem readReg_setRin (s : State) (v : Block) {r : Reg} (h : ∀ w, r ≠ .rin w) :
    readReg { s with rin := v } r = readReg s r := by
  cases r with
  | rin w => exact absurd rfl (h w)
  | _ => rfl

theorem readReg_setRkey (s : State) (v : Block) {r : Reg} (h : ∀ w, r ≠ .rkey w) :
    readReg { s with rkey := v } r = readReg s r := by
  cases r with
  | rkey w => exact absurd rfl (h w)
  | _ => rfl

theorem readReg_setFst (s : State) (v : Bytes 200) {r : Reg} (h : ∀ w, r ≠ .fst w) :
    readReg { s with fst := v } r = readReg s r := by
  cases r with
  | fst w => exact absurd rfl (h w)
  | _ => rfl

/-- No other word of the window changes. -/
theorem readReg_storeWord_other {r r' : Reg} (hr : r'.inArray = true) (hne : r' ≠ r) (val : Word) (s : State) :
    readReg (storeWord r val s) r' = readReg s r' := by
  cases r with
  | spBaseLo =>
    cases r' with
    | spBaseLo => exact absurd rfl hne
    | _ => rfl
  | spBaseHi =>
    cases r' with
    | spBaseHi => exact absurd rfl hne
    | _ => rfl
  | spLen =>
    cases r' with
    | spLen => exact absurd rfl hne
    | _ => rfl
  | st w =>
    cases r' with
    | st u =>
      have hu := of_decide_eq_true hr
      exact wordAt_setWordAt_other _ _ _ _ (by omega) fun e => hne (e ▸ rfl)
    | _ => exact readReg_setSt s _ nofun
  | rin w =>
    cases r' with
    | rin u =>
      have hu := of_decide_eq_true hr
      exact wordAt_setWordAt_other _ _ _ _ (by omega) fun e => hne (e ▸ rfl)
    | _ => exact readReg_setRin s _ nofun
  | rkey w =>
    cases r' with
    | rkey u =>
      have hu := of_decide_eq_true hr
      exact wordAt_setWordAt_other _ _ _ _ (by omega) fun e => hne (e ▸ rfl)
    | _ => exact readReg_setRkey s _ nofun
  | fst w =>
    cases r' with
    | fst u =>
      have hu := of_decide_eq_true hr
      exact wordAt_setWordAt_other _ _ _ _ (by omega) fun e => hne (e ▸ rfl)
    | _ => exact readReg_setFst s _ nofun
  | _ => rfl

/-! ### The fields of STATUS, FAULT and CAP -/

/-- STATUS bit by bit (R25). -/
theorem statusWord_bit (s : State) (i : Nat) : (statusWord s).getLsbD i =
    if i < 1 then s.busy else if i < 2 then s.done else if i < 3 then s.faulted else if i < 4 then s.ovr
    else if i < 6 then s.sel.getLsbD (i - 4) else if i < 7 then s.selv else if i < 8 then false
    else s.lastop.getLsbD (i - 8) := by
  show BitVec.getLsbD (w := 16 + 8 + 1 + 1 + 2 + 1 + 1 + 1 + 1) (statusWord s) i = _
  simp only [statusWord, BitVec.getLsbD_append, Nat.sub_sub]
  by_cases h : i < 8
  · interval_cases i <;> simp
  · simp (disch := omega) only [if_neg]
    split
    · rfl
    · rw [BitVec.getLsbD_of_ge s.lastop _ (by omega)]
      exact BitVec.getLsbD_zero

/-- FAULT bit by bit (R32). -/
theorem faultWord_bit (s : State) (i : Nat) : (faultWord s).getLsbD i =
    if i < 8 then s.code.toByte.getLsbD i else s.fop.getLsbD (i - 8) := by
  show BitVec.getLsbD (w := 16 + 8 + 8) (faultWord s) i = _
  simp only [faultWord, BitVec.getLsbD_append]
  by_cases h : i - 8 < 8
  · rw [if_pos h]
  · rw [if_neg h, BitVec.getLsbD_of_ge s.fop _ (by omega)]
    simp

/-- CAP bit by bit (R23). -/
theorem capWord_bit (s : State) (i : Nat) : (capWord s).getLsbD i =
    if i < 1 then s.accelBuild else if i < 2 then s.hwCap else if i < 3 then s.accel else false := by
  show BitVec.getLsbD (w := 29 + 1 + 1 + 1) (capWord s) i = _
  simp only [capWord, BitVec.getLsbD_append, Nat.sub_sub]
  by_cases h : i < 3
  · interval_cases i <;> simp
  · simp (disch := omega) only [if_neg]
    exact BitVec.getLsbD_zero

/-- A field of a word, bit by bit. -/
theorem extractLsb'_eq_of_bits {w n k : Nat} {x : BitVec w} {y : BitVec n}
    (h : ∀ i, i < n → x.getLsbD (k + i) = y.getLsbD i) : x.extractLsb' k n = y := by
  apply BitVec.eq_of_getLsbD_eq
  intro i hi
  rw [BitVec.getLsbD_extractLsb', decide_eq_true hi, Bool.true_and, h i hi]

theorem statusWord_sel (s : State) : (statusWord s).extractLsb' 4 2 = s.sel := by
  refine extractLsb'_eq_of_bits fun i hi => ?_
  rw [statusWord_bit]
  simp (disch := omega) only [if_neg, if_pos, Nat.add_sub_cancel_left]

theorem statusWord_lastop (s : State) : (statusWord s).extractLsb' 8 8 = s.lastop := by
  refine extractLsb'_eq_of_bits fun i hi => ?_
  rw [statusWord_bit]
  simp (disch := omega) only [if_neg, Nat.add_sub_cancel_left]

theorem statusWord_reserved (s : State) : (statusWord s).extractLsb' 16 16 = 0 := by
  refine extractLsb'_eq_of_bits fun i hi => ?_
  rw [statusWord_bit]
  simp (disch := omega) only [if_neg, BitVec.getLsbD_of_ge]
  exact BitVec.getLsbD_zero.symm

theorem faultWord_code (s : State) : (faultWord s).extractLsb' 0 8 = s.code.toByte := by
  refine extractLsb'_eq_of_bits fun i hi => ?_
  rw [faultWord_bit, Nat.zero_add, if_pos hi]

theorem faultWord_fop (s : State) : (faultWord s).extractLsb' 8 8 = s.fop := by
  refine extractLsb'_eq_of_bits fun i hi => ?_
  rw [faultWord_bit, if_neg (by omega), Nat.add_sub_cancel_left]

theorem faultWord_reserved (s : State) : (faultWord s).extractLsb' 16 16 = 0 := by
  refine extractLsb'_eq_of_bits fun i hi => ?_
  rw [faultWord_bit, if_neg (by omega), BitVec.getLsbD_of_ge _ _ (by omega)]
  exact BitVec.getLsbD_zero.symm

theorem capWord_reserved (s : State) : (capWord s).extractLsb' 3 29 = 0 := by
  refine extractLsb'_eq_of_bits fun i hi => ?_
  rw [capWord_bit]
  simp (disch := omega) only [if_neg]
  exact BitVec.getLsbD_zero.symm

end Sys2Proof.Machine
end

section
/-! PROOF. 10_state.md: every step keeps a state legal.  The invariant is the legality of two parts that change apart
from one another: the memory system, and the fields of STATUS and FAULT. -/

namespace Sys2Proof.Machine

/-- The part of `State.Legal` that speaks of the memory system. -/
structure Port.Legal (p : Port) : Prop where
  memWf         : p.mem.wf
  memInSpace    : ∀ c ∈ p.mem, c.1 < 2 ^ 64
  dirtyWf       : p.cache.dirty.wf
  dirtyInSpace  : ∀ c ∈ p.cache.dirty, c.1 < 2 ^ 64
  coherentClean : p.coherent = true → p.cache = { dirty := [], stale := [] }

/-- The fields of STATUS and FAULT (R25, R32), PH, and the latched opcode byte. -/
structure Status where
  ph      : Phase
  done    : Bool
  faulted : Bool
  code    : FaultCode
  fop     : BitVec 8
  sel     : BitVec 2
  selv    : Bool
  lastop  : BitVec 8
  opByte  : BitVec 8

/-- The status fields of a state. -/
def State.status (s : State) : Status where
  ph      := s.ph
  done    := s.done
  faulted := s.faulted
  code    := s.code
  fop     := s.fop
  sel     := s.sel
  selv    := s.selv
  lastop  := s.lastop
  opByte  := s.eng.cw.extractLsb' 0 8

/-- The part of `State.Legal` that speaks of the status fields. -/
structure Status.Legal (c : Status) : Prop where
  busyNotDone    : c.ph = .exec → c.done = false
  busyNotFaulted : c.ph = .exec → c.faulted = false
  doneNotFaulted : c.done = true → c.faulted = false
  codeIffFault   : c.code ≠ .noFault ↔ c.faulted = true
  fopOfFault     : c.faulted = true → c.fop = c.lastop
  fopClear       : c.faulted = false → c.fop = 0
  selClear       : c.selv = false → c.sel = 0
  lastopOfExec   : c.ph = .exec → c.lastop = c.opByte

theorem State.legal_iff (s : State) : s.Legal ↔ s.port.Legal ∧ s.status.Legal := by
  constructor
  · intro h
    exact ⟨⟨h.memWf, h.memInSpace, h.dirtyWf, h.dirtyInSpace, h.coherentClean⟩,
      ⟨h.busyNotDone, h.busyNotFaulted, h.doneNotFaulted, h.codeIffFault, h.fopOfFault, h.fopClear, h.selClear,
        h.lastopOfExec⟩⟩
  · rintro ⟨hp, hc⟩
    exact ⟨hp.memWf, hp.memInSpace, hp.dirtyWf, hp.dirtyInSpace, hp.coherentClean, hc.busyNotDone, hc.busyNotFaulted,
      hc.doneNotFaulted, hc.codeIffFault, hc.fopOfFault, hc.fopClear, hc.selClear, hc.lastopOfExec⟩

/-! ### The memory system -/

/-- The counter of free values and the port record do not matter. -/
theorem Port.Legal.of_held {p q : Port} (h : p.Legal) (hh : q.held = p.held) (hc : q.coherent = p.coherent) :
    q.Legal := by
  obtain ⟨hm, hk⟩ := Prod.mk.inj hh
  constructor
  · rw [hm]; exact h.memWf
  · rw [hm]; exact h.memInSpace
  · rw [hk]; exact h.dirtyWf
  · rw [hk]; exact h.dirtyInSpace
  · rw [hk, hc]; exact h.coherentClean

/-- What a scratchpad command does in its region keeps the memory system legal, when the region fits the space. -/
theorem Port.Legal.of_within {base : Nat} {p q : Port} (h : p.Legal) (hw : Port.Within base p q)
    (hq : ∀ c ∈ q.mem, c.1 < 2 ^ 64) : q.Legal where
  memWf := hw.wf h.memWf
  memInSpace := hq
  dirtyWf := hw.dirtyWf h.dirtyWf
  dirtyInSpace := hw.dirtyBelow _ h.dirtyInSpace
  coherentClean hc := by
    have hp : p.coherent = true := hw.coh_eq ▸ hc
    rw [hw.coherent hp, h.coherentClean hp]

/-- A host store on a coherent platform. -/
theorem Port.Legal.storeMem {p : Port} (h : p.Legal) {a : Nat} {bs : List Byte} (ha : a + bs.length ≤ 2 ^ 64) :
    ({ p with mem := p.mem.storeBytes a bs } : Port).Legal :=
  { h with
    memWf := Memory.storeBytes_wf _ _ _ h.memWf
    memInSpace := Memory.storeBytes_below _ _ _ _ h.memInSpace ha }

/-- A host store that stays in the host's caches. -/
theorem Port.Legal.storeDirty {p : Port} (h : p.Legal) {a : Nat} {bs : List Byte} (ha : a + bs.length ≤ 2 ^ 64)
    (hc : p.coherent = false) :
    ({ p with cache := { p.cache with dirty := p.cache.dirty.storeBytes a bs } } : Port).Legal :=
  { h with
    dirtyWf := Memory.storeBytes_wf _ _ _ h.dirtyWf
    dirtyInSpace := Memory.storeBytes_below _ _ _ _ h.dirtyInSpace ha
    coherentClean := fun hc' => absurd (hc.symm.trans hc') Bool.false_ne_true }

theorem Port.Legal.writeBack {p : Port} (h : p.Legal) (a n : Nat) (hc : p.coherent = false) :
    (p.writeBack a n).Legal where
  memWf := p.writeBack_wf a n h.memWf
  memInSpace := p.writeBack_below _ a n h.memInSpace h.dirtyInSpace
  dirtyWf := p.writeBack_dirty_wf a n h.dirtyWf
  dirtyInSpace := p.writeBack_dirty_below _ a n h.dirtyInSpace
  coherentClean hc' := absurd (hc.symm.trans hc') Bool.false_ne_true

theorem Port.Legal.invalidate {p : Port} (h : p.Legal) (a n : Nat) (hc : p.coherent = false) :
    (p.invalidate a n).Legal where
  memWf := p.invalidate_wf a n h.memWf
  memInSpace := p.invalidate_below _ a n h.memInSpace h.dirtyInSpace
  dirtyWf := p.invalidate_dirty_wf a n h.dirtyWf
  dirtyInSpace := p.invalidate_dirty_below _ a n h.dirtyInSpace
  coherentClean hc' := absurd (hc.symm.trans hc') Bool.false_ne_true

/-- The port a hardware reset leaves, whatever it interrupts (R240). -/
theorem portAtReset_legal {s : State} (h : s.port.Legal) (k : Nat) (b : Bool) : (portAtReset k b s).Legal := by
  unfold portAtReset
  cases s.ph with
  | idle => exact h
  | exec =>
    have h' : ({ s.port with trace := [] } : Port).Legal := h.of_held rfl rfl
    exact h'.of_within (abandonedPort_within k b s) (abandonedPort_inSpace k b s h.memInSpace)

/-! ### The status fields -/

/-- Both resets leave the status fields clear. -/
theorem Status.Legal.cleared (op : BitVec 8) :
    (⟨.idle, false, false, .noFault, 0, 0, false, 0, op⟩ : Status).Legal := by
  constructor <;> simp

/-- Fault entry (R220), when the command's opcode byte is LASTOP. -/
theorem Status.Legal.faultEntry {s : State} (h : s.status.Legal) (hop : s.lastop = s.eng.cw.extractLsb' 0 8)
    {c : FaultCode} (hc : c ≠ .noFault) : (faultEntry c s).status.Legal where
  busyNotDone _ := rfl
  busyNotFaulted hp := by cases hp
  doneNotFaulted hd := by cases hd
  codeIffFault := iff_of_true hc rfl
  fopOfFault _ := hop.symm
  fopClear hf := by cases hf
  selClear := h.selClear
  lastopOfExec hp := by cases hp

theorem State.latch_eq {s t : State} (h : t.latch = s.latch) :
    t.faulted = s.faulted ∧ t.code = s.code ∧ t.fop = s.fop := by
  simpa [State.latch] using h

/-- A next state that keeps the fault latch is legal when its other status fields are. -/
theorem Status.Legal.of_latch {s t : State} (h : s.status.Legal) (hl : t.latch = s.latch)
    (hbusy : t.ph = .exec → t.done = false ∧ s.faulted = false ∧ t.lastop = t.eng.cw.extractLsb' 0 8)
    (hdone : t.done = true → s.faulted = false) (hlast : s.faulted = true → t.lastop = s.lastop)
    (hsel : t.selv = false → t.sel = 0) : t.status.Legal := by
  obtain ⟨hf, hc, hfop⟩ := State.latch_eq hl
  exact {
    busyNotDone := fun hp => (hbusy hp).1
    busyNotFaulted := fun hp => hf.trans (hbusy hp).2.1
    doneNotFaulted := fun hd => hf.trans (hdone hd)
    codeIffFault := by
      show t.code ≠ .noFault ↔ t.faulted = true
      rw [hc, hf]; exact h.codeIffFault
    fopOfFault := fun ht => by
      have hs : s.faulted = true := hf.symm.trans ht
      exact hfop.trans ((h.fopOfFault hs).trans (hlast hs).symm)
    fopClear := fun ht => hfop.trans (h.fopClear (hf.symm.trans ht))
    selClear := hsel
    lastopOfExec := fun hp => (hbusy hp).2.2 }

theorem Status.Legal.selClear_of_eq {s t : State} (h : s.status.Legal) (hs : t.selection = s.selection)
    (hv : t.selv = false) : t.sel = 0 := by
  obtain ⟨hsel, hselv⟩ := Prod.mk.inj hs
  exact hsel.trans (h.selClear (hselv.symm.trans hv))

/-- A host write to any register. -/
theorem Written.status_legal {r : Reg} {val : Word} {s t : State} (hw : Written r val s t) (h : s.status.Legal) :
    t.status.Legal := by
  cases hw with
  | unchanged => exact h
  | dropped => exact h
  | reset => exact .cleared _
  | accepted _ _ _ hf ha =>
    exact h.of_latch ha.latch (fun _ => ⟨ha.done, hf, by rw [ha.lastop, ha.cw]⟩) (fun _ => hf)
      (fun ht => absurd (hf.symm.trans ht) Bool.false_ne_true) (h.selClear_of_eq ha.selection)
  | data _ _ hsur hl hsel hph hdone =>
    exact h.of_latch hl (fun hp => absurd (hph.symm.trans hp) (by decide))
      (fun hd => h.doneNotFaulted (hdone.symm.trans hd)) (fun _ => congrArg Surroundings.lastop hsur)
      (h.selClear_of_eq hsel)

/-- A host write touches no memory and no cache. -/
theorem Written.port_legal {r : Reg} {val : Word} {s t : State} (hw : Written r val s t) (h : s.port.Legal) :
    t.port.Legal := by
  cases hw with
  | unchanged => exact h
  | dropped => exact h
  | reset => exact h
  | accepted _ _ _ _ ha => rw [ha.port]; exact h.of_held rfl rfl
  | data _ _ _ _ _ _ _ hp => rw [hp]; exact h

/-- A command that ends has completed or raised a fault (R33, R220). -/
theorem Ended.status_legal {i : Instr} {s t : State} (he : Ended i s t) (h : s.status.Legal) (hx : s.ph = .exec) :
    t.status.Legal := by
  have hidle : ¬ t.ph = .exec := by rw [he.idle]; decide
  have hlast : t.lastop = s.lastop := congrArg Surroundings.lastop he.surroundings
  rcases he.outcome with ⟨_, hl, hsel⟩ | ⟨hdone, _, hsel, c, hc, hl⟩
  · refine h.of_latch hl (fun hp => absurd hp hidle) (fun _ => h.busyNotFaulted hx) (fun _ => hlast) fun hv => ?_
    rcases hsel with hsel | hsel
    · exact h.selClear_of_eq hsel hv
    · exact absurd (hsel.symm.trans hv) (by decide)
  · have hfault := h.faultEntry (h.lastopOfExec hx) hc
    refine hfault.of_latch (s := Machine.faultEntry c s) hl (fun hp => absurd hp hidle)
      (fun hd => absurd (hdone.symm.trans hd) Bool.false_ne_true) (fun _ => hlast) ?_
    exact h.selClear_of_eq hsel

/-! ### The step -/

theorem exec_legal {i : Instr} {s t : State} (h : s.Legal) (hx : s.ph = .exec) (he : exec i s = .next t) : t.Legal := by
  obtain ⟨hp, hc⟩ := s.legal_iff.1 h
  have hend := exec_ended he
  exact t.legal_iff.2 ⟨hp.of_within hend.port (exec_memInSpace he hp.memInSpace), hend.status_legal hc hx⟩

theorem engineTurn_legal {s t : State} (h : s.Legal) (ht : engineTurn s = .next t) : t.Legal := by
  rcases engineTurn_cases ht with ⟨_, rfl⟩ | ⟨hx, i, _, he⟩ | ⟨hx, _, _, rfl⟩
  · exact h
  · exact exec_legal h hx he
  · obtain ⟨hp, hc⟩ := s.legal_iff.1 h
    exact (State.legal_iff _).2 ⟨hp, hc.faultEntry (hc.lastopOfExec hx) (by decide)⟩

/-- One move keeps a state legal. -/
theorem Stepped.legal {u t : State} {m : Option Move} (hs : Stepped u m t) (h : u.Legal) : t.Legal := by
  obtain ⟨hp, hc⟩ := u.legal_iff.1 h
  rw [State.legal_iff]
  cases hs with
  | engine _ _ _ ht => exact t.legal_iff.1 (engineTurn_legal h ht)
  | elsewhere => exact ⟨hp, hc⟩
  | read => exact ⟨hp, hc⟩
  | write off val =>
    have hw := writeReg_written (regAt off) val u
    exact ⟨hw.port_legal hp, hw.status_legal hc⟩
  | store _ _ ha => exact ⟨hp.storeMem ha, hc⟩
  | storeCached _ _ ha hcoh => exact ⟨hp.storeDirty ha hcoh, hc⟩
  | load => exact ⟨hp.of_held rfl rfl, hc⟩
  | writeBack a n hcoh => exact ⟨hp.writeBack a n hcoh, hc⟩
  | invalidate a n hcoh => exact ⟨hp.invalidate a n hcoh, hc⟩
  | input => exact ⟨hp, hc⟩
  | reset k b => exact ⟨portAtReset_legal hp k b, .cleared _⟩

/-- Legality does not depend on the schedule. -/
theorem State.Legal.setMoves {s : State} (h : s.Legal) (ms : List Move) : State.Legal { s with moves := ms } :=
  (State.legal_iff _).2 (s.legal_iff.1 h)

end Sys2Proof.Machine
end

section
/-! PROOF. 10_state.md: the fault latch and OVR are cleared by a reset only, and the engine's turn runs the command the
latched word decodes to. -/

namespace Sys2Proof.Machine

/-! ### The latches -/

/-- What every step but a reset keeps of FAULT and OVR (R28, R29, R223). -/
structure LatchesKept (s t : State) : Prop where
  ovr     : s.ovr = true → t.ovr = true
  faulted : s.faulted = true → t.faulted = true
  idle    : s.faulted = true → s.ph = .idle → t.latch = s.latch ∧ t.ph = .idle

theorem LatchesKept.refl (s : State) : LatchesKept s s := ⟨id, id, fun _ h => ⟨rfl, h⟩⟩

/-- A step that leaves OVR, the fault latch and PH alone keeps the latches. -/
theorem LatchesKept.of_eq {s t : State} (ho : t.ovr = s.ovr) (hl : t.latch = s.latch) (hp : t.ph = s.ph) :
    LatchesKept s t where
  ovr h := ho.trans h
  faulted h := (State.latch_eq hl).1.trans h
  idle _ h := ⟨hl, hp.trans h⟩

/-- A host write keeps the latches, unless it is a soft reset. -/
theorem Written.latchesKept {r : Reg} {val : Word} {s t : State} (h : Written r val s t)
    (hr : ¬ (r = .ctrl ∧ val.getLsbD 0 = true)) : LatchesKept s t := by
  cases h with
  | unchanged => exact .refl s
  | dropped => exact ⟨fun _ => rfl, id, fun _ h => ⟨rfl, h⟩⟩
  | reset hc hv => exact absurd ⟨hc, hv⟩ hr
  | accepted _ _ _ hf ha =>
    have hn : s.faulted ≠ true := by simp [hf]
    exact ⟨fun h => ha.ovr.trans h, fun h => absurd h hn, fun h => absurd h hn⟩
  | data _ hi hsur hl _ hp => exact .of_eq (congrArg Surroundings.ovr hsur) hl (hp.trans hi.symm)

/-- The engine's turn keeps the latches: a command leaves the fault latch as it is or sets it. -/
theorem engineTurn_latchesKept {s t : State} (h : engineTurn s = .next t) : LatchesKept s t := by
  have busy : s.ph = .exec → s.ph ≠ .idle := fun hp => by simp [hp]
  rcases engineTurn_cases h with ⟨_, rfl⟩ | ⟨hx, i, _, he⟩ | ⟨hx, _, _, rfl⟩
  · exact .refl _
  · have hend := exec_ended he
    refine ⟨(congrArg Surroundings.ovr hend.surroundings).trans, fun hf => ?_, fun _ hi => absurd hi (busy hx)⟩
    rcases hend.outcome with ⟨_, hl, _⟩ | ⟨_, _, _, c, _, hl⟩
    · exact (State.latch_eq hl).1.trans hf
    · exact congrArg Prod.fst hl
  · exact ⟨id, fun _ => rfl, fun _ hi => absurd hi (busy hx)⟩

/-- Every move but a hardware reset and a soft reset keeps the latches. -/
theorem Stepped.latchesKept {u t : State} {m : Option Move} (h : Stepped u m t)
    (hh : ∀ k b, m ≠ some (.hardReset k b))
    (hs : ∀ val, val.getLsbD 0 = true → m ≠ some (wr32 u.regBase 0x008 val)) : LatchesKept u t := by
  cases h with
  | engine _ _ _ ht => exact engineTurn_latchesKept ht
  | write off val hoff h4 =>
    refine (writeReg_written (regAt off) val u).latchesKept fun ⟨hc, hv⟩ => ?_
    have hoff8 : off = 0x008 := regAt_injective hoff (by decide) h4 (by decide) (hc.trans rfl) (by simp [hc])
    exact hs val hv (by rw [hoff8]; rfl)
  | reset k b => exact absurd rfl (hh k b)
  | elsewhere | read | store | storeCached | load | writeBack | invalidate | input => exact .of_eq rfl rfl rfl

/-! ### The engine's turn -/

theorem engineTurn_exec {s : State} {i : Instr} (hp : s.ph = .exec) (hd : decode s.eng.cw = .ok i) :
    engineTurn s = exec i s := by
  simp only [engineTurn, hp, runCommand, hd]

theorem step_of_no_move {s : State} (h : s.moves = []) : step s = engineTurn s := by
  simp only [step, nextMove, h]

theorem step_of_engine {s : State} {ms : List Move} (h : s.moves = .engine :: ms) :
    step s = engineTurn { s with moves := ms } := by
  simp only [step, nextMove, h, perform]

theorem decode_encode (i : Instr) : decode (encode i) = .ok i := by
  cases i with
  | nop => exact Laws.DecodeEncode.nop.1
  | check => exact Laws.DecodeEncode.check.1
  | round => exact Laws.DecodeEncode.round.1
  | keyexp k => exact (Laws.DecodeEncode.keyexp k).1
  | expand => exact Laws.DecodeEncode.expand.1
  | mix => exact Laws.DecodeEncode.mix.1
  | absorb => exact Laws.DecodeEncode.absorb.1
  | permute => exact Laws.DecodeEncode.permute.1
  | select => exact Laws.DecodeEncode.select.1
  | run => exact Laws.DecodeEncode.run.1

theorem withFetchWord_32 (s : State) (w : Word) : s.withFetchWord 32 w.toNat = latchNext w s := by
  unfold State.withFetchWord
  rw [Nat.mod_eq_of_lt w.isLt, BitVec.ofNat_toNat, BitVec.setWidth_eq]

/-- CHECK completes exactly when the descriptor passes (R154). -/
theorem exec_check_completes_iff (s : State) : (∃ t, exec .check s = .next t ∧ t.Completed) ↔ s.DescriptorOk := by
  rw [← checkDescriptor_eq_none]
  cases hc : checkDescriptor s with
  | none => exact iff_of_true ⟨complete s, by simp only [exec, execCheck, hc], rfl, rfl⟩ rfl
  | some c =>
    refine iff_of_false ?_ nofun
    rintro ⟨t, ht, _, hdone⟩
    rw [exec_descriptor_fault (.inl rfl) hc] at ht
    cases ht
    cases hdone

end Sys2Proof.Machine
end

section
/-! PROOF. The obligations of 10_state.md. -/

namespace Sys2Proof.Machine

/-- Settles O60: the move taken off the schedule keeps the memory system and the status fields legal. -/
theorem stepKeepsLegal : Obligations.StepKeepsLegal := by
  unfold Obligations.StepKeepsLegal
  intro s t h ht
  rcases step_cases ht with ⟨_, hs⟩ | ⟨_, ms, _, hs⟩
  · exact hs.legal h
  · exact hs.legal (h.setMoves ms)

/-- Settles O7: a write at CMD's offset is `writeCmd`, which drops the word or latches it. -/
theorem cmdWriteIsAcceptedOrDropped : Obligations.CmdWriteIsAcceptedOrDropped := by
  unfold Obligations.CmdWriteIsAcceptedOrDropped
  intro s ms W hm
  have hstep : step s = .next (writeCmd W { s with moves := ms }) := step_wr32 s ms 0x014 W (by decide) (by decide) hm
  constructor
  · intro h
    rw [hstep, writeCmd_dropped W (s := { s with moves := ms }) h]
    rfl
  · intro hp hf
    have ha := latchCommand_accepted W { s with moves := ms }
    rw [writeCmd_accepted W (s := { s with moves := ms }) hp hf] at hstep
    exact ⟨_, hstep, ha.ph, ha.done, ha.lastop, ha.cw, ha.moves, ha.dataRegs, ha.latch, ha.selection, ha.ovr, ha.port⟩

/-- Settles O9: each of these offsets names CTRL or a data register, and both drop the write. -/
theorem busyRegisterWritesAreDropped : Obligations.BusyRegisterWritesAreDropped := by
  unfold Obligations.BusyRegisterWritesAreDropped
  intro s ms off val hp hoff hm
  have h4 : off % 4 = 0 := by omega
  have hreg : regAt off = .ctrl ∨ (regAt off).isData = true := by
    by_cases h8 : off = 0x008
    · exact .inl (by rw [h8]; rfl)
    · exact .inr (regAt_isData h4 (by omega))
  rw [step_wr32 s ms off val (by omega) h4 hm, writeReg_busy hreg val (s := { s with moves := ms }) hp]
  rfl

/-- Settles O10: each of these offsets names a register that ignores writes. -/
theorem readOnlyAndReservedWritesAreIgnored : Obligations.ReadOnlyAndReservedWritesAreIgnored := by
  unfold Obligations.ReadOnlyAndReservedWritesAreIgnored
  intro s ms off val h4 hoff hm
  rw [step_wr32 s ms off val (by omega) h4 hm, writeReg_ignored (regAt_ignoresWrites h4 hoff)]

/-- Settles O11: each of these offsets names a data register, which stores the word; two offsets never name one
register. -/
theorem idleWriteThenReadReturnsTheWord : Obligations.IdleWriteThenReadReturnsTheWord := by
  unfold Obligations.IdleWriteThenReadReturnsTheWord
  intro s ms off val hp h4 hoff hm
  have hdata := regAt_isData h4 hoff
  have hlt : off < 4096 := by omega
  refine ⟨storeWord (regAt off) val { s with moves := ms }, ?_, storeWord_moves _ _ _, storeWord_port _ _ _,
    storeWord_latch _ _ _, storeWord_selection _ _ _, storeWord_surroundings _ _ _,
    readReg_storeWord_same hdata (regAt_inArray hlt h4) _ _, ?_⟩
  · rw [step_wr32 s ms off val hlt h4 hm, writeReg_isData hdata,
      writeRW_idle (s := { s with moves := ms }) _ hp]
  · intro off' h4' hlt' hne
    have hreg : regAt off' ≠ regAt off := fun e =>
      hne (regAt_injective hlt hlt' h4 h4' e.symm fun hr => by rw [hr] at hdata; cases hdata).symm
    rw [readReg_storeWord_other (regAt_inArray hlt' h4') hreg, readReg_moves]

/-- Settles O17: bit 2 of CAP is ACCEL, and CHECK completes exactly when the descriptor passes. -/
theorem alignIsWhatCheckRequires : Obligations.AlignIsWhatCheckRequires := by
  unfold Obligations.AlignIsWhatCheckRequires
  intro s
  have hcap : (readReg s (regAt 0x004)).getLsbD 2 = s.accel := capWord_bit s 2
  have halign : readReg s (regAt 0x02C) = if s.accel then 16#32 else 1#32 := rfl
  rw [hcap, halign]
  refine ⟨fun h => by rw [h]; rfl, fun h => by rw [h]; rfl, fun hlen hfit => ?_⟩
  have hok : s.DescriptorOk ↔ (s.accel = true → s.spBase % 16 = 0) := ⟨fun h => h.2.1, fun h => ⟨hlen, h, hfit⟩⟩
  rw [exec_check_completes_iff, hok]
  cases s.accel with
  | true => simp
  | false => simp [Nat.mod_one]

/-- Settles O48, from what every command that ends has in common. -/
theorem commandFrame : Obligations.CommandFrame := by
  unfold Obligations.CommandFrame
  intro i s t h
  have he := exec_ended h
  exact ⟨he.surroundings, he.spBaseLo, he.spBaseHi, he.spLen, he.st, he.rin, he.rkey, he.rout, he.rk, he.fst, he.digest,
    he.port.outside, he.port.coherent, he.cache, he.port.kept⟩

/-- Settles O56: only the two resets clear a latch, and the hypotheses exclude both. -/
theorem latchesClearOnlyByReset : Obligations.LatchesClearOnlyByReset := by
  unfold Obligations.LatchesClearOnlyByReset
  intro s t h hhard hsoft
  have kept : LatchesKept s t := by
    rcases step_cases h with ⟨_, hs⟩ | ⟨m, ms, hm, hs⟩
    · exact hs.latchesKept nofun nofun
    · obtain ⟨ho, hf, hi⟩ := hs.latchesKept (fun k b e => hhard k b ms (hm.trans (by rw [Option.some.inj e])))
        (fun val hv e => hsoft val ms hv (hm.trans (by rw [Option.some.inj e])))
      exact ⟨ho, hf, hi⟩
  exact ⟨kept.ovr, kept.faulted, kept.idle⟩

/-- Settles O6: the schedule gives the engine its turn, and the latched word decodes. -/
theorem stepRunsTheDecodedCommand : Obligations.StepRunsTheDecodedCommand := by
  unfold Obligations.StepRunsTheDecodedCommand
  intro s i
  refine ⟨fun hm hp hd => ?_, fun ms hm hp hd => ?_, fun w hd => ?_⟩
  · rw [step_of_no_move hm, engineTurn_exec hp hd]
  · rw [step_of_engine hm]
    exact engineTurn_exec (s := { s with moves := ms }) hp hd
  · refine ⟨{ latchNext w s with moves := s.moves }, ?_, rfl, rfl, rfl, rfl, rfl, rfl⟩
    rw [withFetchWord_32, step_of_engine (ms := s.moves) rfl]
    exact engineTurn_exec (s := { latchNext w s with moves := s.moves }) rfl hd

/-- Settles O8: the CMD write latches the word, and the engine's turn runs it. -/
theorem issueIsTwoSteps : Obligations.IssueIsTwoSteps := by
  unfold Obligations.IssueIsTwoSteps
  intro s ms i hp hf hm
  have hwrite : step s = .next (latchCommand (encode i) { s with moves := .engine :: ms }) := by
    rw [step_wr32 s (.engine :: ms) 0x014 (encode i) (by decide) (by decide) hm]
    exact congrArg _ (writeCmd_accepted (encode i) (s := { s with moves := .engine :: ms }) hp hf)
  rw [run_two _ hwrite, step_of_engine (ms := ms) rfl]
  exact engineTurn_exec rfl (decode_encode i)

/-- Settles O15: the three registers read constants of R8 and R22, whatever the state. -/
theorem constantRegistersRead : Obligations.ConstantRegistersRead := by
  unfold Obligations.ConstantRegistersRead
  exact fun _ => ⟨rfl, rfl, rfl⟩

/-- Settles O16, from the three words' layouts bit by bit. -/
theorem statusFaultCapFields : Obligations.StatusFaultCapFields := by
  unfold Obligations.StatusFaultCapFields
  intro s
  have hcode {c : FaultCode} (h : s.code = c) : (faultWord s).extractLsb' 0 8 = c.toByte := h ▸ faultWord_code s
  have hbusy : (statusWord s).getLsbD 0 = s.busy := statusWord_bit s 0
  exact ⟨by rw [← busy_eq_true, ← hbusy]; rfl, statusWord_bit s 1, statusWord_bit s 2, statusWord_bit s 3,
    statusWord_sel s, statusWord_bit s 6, statusWord_bit s 7, statusWord_lastop s, statusWord_reserved s,
    hcode, hcode, hcode, hcode, hcode, hcode, faultWord_fop s, faultWord_reserved s,
    capWord_bit s 0, capWord_bit s 1, capWord_bit s 2, capWord_reserved s⟩

/-- Settles O51: no field these registers show is one that R52 leaves open. -/
theorem resetRegisters : Obligations.ResetRegisters := by
  unfold Obligations.ResetRegisters
  exact ⟨rfl, rfl, rfl, rfl, rfl⟩

/-- Settles O59: nothing is written yet, nothing is held back, and the status fields are clear. -/
theorem resetIsLegal : Obligations.ResetIsLegal := by
  unfold Obligations.ResetIsLegal
  exact (State.legal_iff _).2 ⟨⟨.nil, by simp [State.reset], .nil, by simp [State.reset], fun _ => rfl⟩, .cleared _⟩

end Sys2Proof.Machine
end

section
/-! PROOF. 20_memory.md: host accesses to the register window.  Which registers read 0 (R21), and which accesses are
undefined (R62). -/

namespace Sys2Proof.Machine

theorem keyBytes_getElem (ks : KeySchedule) (i : Nat) (h : i < 160) : (keyBytes ks)[i] = ks[i / 16][i % 16] := by
  simp [keyBytes]

/-- The registers that read 0 in every state (R21(c), R21(d), R24). -/
def Reg.readsZero : Reg → Bool
  | .ctrl | .cmd | .reserved => true
  | .id | .cap | .status | .fault | .spBaseLo | .spBaseHi | .spLen | .spsz | .iter | .align | .st _ | .digest _
  | .rin _ | .rkey _ | .rout _ | .rk _ | .fst _ => false

theorem readReg_readsZero {r : Reg} (h : r.readsZero = true) (s : State) : readReg s r = 0 := by
  cases r with
  | ctrl | cmd | reserved => rfl
  | _ => cases h

/-- Where R20 puts CTRL, CMD and the reserved offsets, by word. -/
theorem regAt_readsZero_words : ∀ w, w < 1024 →
    (w = 2 ∨ w = 5 ∨ (0x0C ≤ w ∧ w ≤ 0x3F) ∨ (0x72 ≤ w ∧ w ≤ 0x7F) ∨ (0x88 ≤ w ∧ w ≤ 0x8F) ∨
      (0x9C ≤ w ∧ w ≤ 0x9F) ∨ (0xC8 ≤ w ∧ w ≤ 0xFF) ∨ 0x132 ≤ w) →
    (regAt (4 * w)).readsZero = true := by decide +kernel

theorem regAt_readsZero {off : Nat} (h4 : off % 4 = 0)
    (h : off = 0x008 ∨ off = 0x014 ∨ (0x030 ≤ off ∧ off ≤ 0x0FF) ∨ (0x1C8 ≤ off ∧ off ≤ 0x1FF) ∨
      (0x220 ≤ off ∧ off ≤ 0x23F) ∨ (0x270 ≤ off ∧ off ≤ 0x27F) ∨ (0x320 ≤ off ∧ off ≤ 0x3FF) ∨
      (0x4C8 ≤ off ∧ off ≤ 0xFFF)) : (regAt off).readsZero = true := by
  have := regAt_readsZero_words (off / 4) (by omega) (by omega)
  rwa [show 4 * (off / 4) = off by omega] at this

/-- An access that begins in the window and is not a whole aligned word is undefined (R62). -/
theorem targetOf_undefined {base off width : Nat} (h : off < 4096) (hw : 0 < width)
    (hu : width ≠ 32 ∨ off % 4 ≠ 0) : targetOf base (base + off) width = .undefined := by
  unfold targetOf
  rw [if_neg (by simp only [Config.regWindow]; omega), if_neg (by omega)]

/-- A step whose schedule is not empty performs the first move. -/
theorem step_of_move {s : State} {m : Move} {ms : List Move} (h : s.moves = m :: ms) :
    step s = perform m { s with moves := ms } := by
  simp only [step, nextMove, h]

end Sys2Proof.Machine
end

section
/-! PROOF. 20_memory.md: the scratchpad accesses of each command.  Which commands make none (R72), what the record of
EXPAND and of ABSORB holds (R69, R71), and that RUN's result is a function of ST alone (R85). -/

namespace Sys2Proof.Machine

/-! ### Commands that make no access -/

/-- A command that does not use the scratchpad leaves the port alone, or calls the permutation unit or one hash unit
(R72). -/
theorem exec_without_scratchpad {i : Instr} {s t : State} (hi : i.usesScratchpad = false) (h : exec i s = .next t) :
    t.port = s.port ∨ ∃ e : PortEvent, e.isAccess = false ∧ t.port = s.port.note e := by
  cases i with
  | nop | round | keyexp k => cases h; exact .inl rfl
  | check =>
    refine .inl ?_
    change execCheck s = _ at h
    unfold execCheck at h
    split at h <;> cases h <;> rfl
  | permute => cases h; exact .inr ⟨.permute, rfl, rfl⟩
  | select => cases h; exact .inr ⟨.hash (hashOf (selector s.fst)), rfl, rfl⟩
  | expand | mix | absorb | run => cases hi

/-- A scratchpad command with an invalid descriptor leaves the port alone (R150). -/
theorem exec_invalid_descriptor_port {i : Instr} {s t : State} (hi : i.usesScratchpad = true) (hd : ¬ s.DescriptorOk)
    (h : exec i s = .next t) : t.port = s.port := by
  obtain ⟨c, hc⟩ := Option.ne_none_iff_exists'.1 (mt (checkDescriptor_eq_none s).1 hd)
  rw [exec_descriptor_fault (.inr hi) hc] at h
  cases h
  rfl

theorem PortEvent.address?_of_not_isAccess {e : PortEvent} (h : e.isAccess = false) : e.address? = none := by
  cases e with
  | read _ | write _ _ => cases h
  | permute | hash _ => rfl

/-- Each access of a command that ends is to a block of its region, which then fits the 64-bit space (R73, R152). -/
theorem exec_accesses {i : Instr} {s t : State} (h : exec i s = .next t) :
    ∃ es, t.port.trace = es ++ s.port.trace ∧ ∀ e ∈ es, ∀ a, e.address? = some a →
      (∃ n, n < Config.nBlocks ∧ a = s.spBase + 16 * n) ∧ s.spBase + Config.spSize ≤ 2 ^ 64 := by
  by_cases hd : s.DescriptorOk
  · obtain ⟨es, ht, hes⟩ := (exec_ended h).port.trace
    exact ⟨es, ht, fun e he a ha => ⟨hes e he a ha, hd.2.2⟩⟩
  · cases hi : i.usesScratchpad with
    | true => exact ⟨[], by rw [exec_invalid_descriptor_port hi hd h]; rfl, nofun⟩
    | false =>
      rcases exec_without_scratchpad hi h with hp | ⟨e, he, hp⟩
      · exact ⟨[], by rw [hp]; rfl, nofun⟩
      · refine ⟨[e], by rw [hp]; rfl, fun e' he' a ha => ?_⟩
        rw [List.mem_singleton.1 he', PortEvent.address?_of_not_isAccess he] at ha
        cases ha

/-! ### The records of EXPAND and ABSORB -/

/-- The expansion with every access served writes the blocks of R142, each once and in order (R69). -/
theorem expandPhase_writes (st : Bytes 200) (base : Nat) (w : Work) (hs : Served base w.port.map) :
    ∃ w', expandPhase st base w = .ok () w' ∧ w'.port.trace =
      ((List.range Config.nBlocks).map fun n => PortEvent.write (base + 16 * n) (expandedBlock st n)).reverse ++
        w.port.trace := by
  obtain ⟨w', h, hw⟩ := expandPhase_ok st base w hs
  exact ⟨w', h, by rw [hw.trace, expandTrace_eq]⟩

/-- The absorption with every access served reads each block once and in order, and stores nothing (R71). -/
theorem absorbPhase_reads_in_order (st : Bytes 200) (base : Nat) (w : Work) (hs : Served base w.port.map) :
    ∃ w', absorbPhase st base w = .ok () w' ∧ w'.port.mem = w.port.mem ∧ w'.port.trace =
      ((List.range Config.nBlocks).map fun n => PortEvent.read (base + 16 * n)).reverse ++ w.port.trace := by
  obtain ⟨w', h, -, ht⟩ := absorbPhase_reads st base w hs
  have hmem := absorbPhase_mem st base w
  rw [h, Run.work_ok] at hmem
  exact ⟨w', h, hmem, by rw [ht, absorbTrace_eq]⟩

/-- ABSORB's pseudocode stores nothing and leaves the host's caches, however it ends (R71). -/
theorem absorbRun_held (s : State) : (absorbRun s).work.port.held = s.port.held := by
  unfold absorbRun checked
  cases checkDescriptor s with
  | none => exact absorbPhase_held s.st s.spBase s.work
  | some c => rfl

theorem execAbsorb_held {s t : State} (h : execAbsorb s = .next t) : t.port.held = s.port.held := by
  have hheld := absorbRun_held s
  rcases finish_next h with ⟨w, hr, rfl⟩ | ⟨c, w, hr, rfl⟩ <;> rw [hr] at hheld <;> exact hheld

/-! ### RUN's result -/

/-- A byte of the region lies in one of its blocks. -/
theorem byte_eq_spBlock (m : Memory) (base d : Nat) : m.byte (base + d) = (spBlock m base (d / 16))[d % 16] := by
  simp only [spBlock, Memory.readBlock, Vector.getElem_ofFn]
  congr 1
  omega

/-- Two memories with the same blocks in the region have the same bytes there. -/
theorem byte_eq_of_spBlocks {m m' : Memory} {base x : Nat}
    (h : ∀ n, n < Config.nBlocks → spBlock m base n = spBlock m' base n) (hx : base ≤ x)
    (hx' : x < base + Config.spSize) : m.byte x = m'.byte x := by
  have hx'' : x < base + 2097152 := hx'
  have hn : (x - base) / 16 < 131072 := by omega
  rw [show x = base + (x - base) by omega, byte_eq_spBlock, byte_eq_spBlock, h _ hn]

/-- What a completed RUN leaves: a function of ST, but for the registers it does not write (R196). -/
structure RunResult (s t : State) : Prop where
  completed    : t.Completed
  dataRegs     : t.dataRegs = { s.dataRegs with
    rk := keyExp10 (slice s.st 32 32)
    fst := finalState s.permUnit s.st
    digest := Config.hashPort (hashOf (selector (finalState s.permUnit s.st))) (finalState s.permUnit s.st) }
  selection    : t.selection = (selector (finalState s.permUnit s.st), true)
  latch        : t.latch = s.latch
  surroundings : t.surroundings = s.surroundings
  blocks       : ∀ n, n < Config.nBlocks → spBlock t.port.mem s.spBase n = mixedBlock s.st (expandedBlock s.st) n

theorem exec_run_result {s : State} (hd : s.DescriptorOk) (hh : s.HandedOver) (hs : s.RegionServed) :
    ∃ t, exec .run s = .next t ∧ RunResult s t := by
  obtain ⟨w, hw, hks, hfw, hdw, hsp, -⟩ := runPhase_ok s.permUnit s.st s.spBase s.work hh hs
  have h := exec_run_ok hd
  rw [hw, finish_ok] at h
  exact ⟨_, h, ⟨rfl, rfl⟩, by simp [State.dataRegs, hks, hfw, hdw], by simp [State.selection, hfw], rfl,
    (exec_ended h).surroundings, hsp⟩

end Sys2Proof.Machine
end

section
/-! PROOF. 20_memory.md: the host's loads, stores and cache maintenance.  When the model refuses one (R75), and what one
does while the engine is idle (R76, R80). -/

namespace Sys2Proof.Machine

/-- While the engine is idle a host access within the 64-bit space is not refused (R65). -/
theorem hostAccessRefused_idle {s : State} {a n : Nat} (hp : s.ph = .idle) (h : a + n ≤ 2 ^ 64) :
    hostAccessRefused s a n = none := by
  unfold hostAccessRefused State.owning
  rw [if_neg (by simp only [Config.paSpace]; omega), (busy_eq_false s).2 hp]
  rfl

/-- While a scratchpad command executes a host access that meets its region is refused (R75). -/
theorem hostAccessRefused_owned {s : State} {i : Instr} {a n : Nat} (hp : s.ph = .exec)
    (hd : decode s.eng.cw = .ok i) (hi : i.usesScratchpad = true) (h : a + n ≤ 2 ^ 64)
    (h1 : a < s.spBase + Config.spSize) (h2 : s.spBase < a + n) : hostAccessRefused s a n = some .ownedRegion := by
  have hown : s.owning = true := by simp [State.owning, (busy_eq_true s).2 hp, wordUsesScratchpad, hd, hi]
  have hmeets : meetsRegion s.spBase a n = true := decide_eq_true ⟨h1, h2⟩
  unfold hostAccessRefused
  rw [if_neg (by simp only [Config.paSpace]; omega), hown, hmeets]
  rfl

section
variable {s : State} {a n : Nat} {bytes : List Byte} {f : Port → Port} {r : Refusal}

theorem memStore_refused (h : hostAccessRefused s a bytes.length = some r) : memStore a bytes s = .refused r := by
  simp only [memStore, h]

theorem memLoad_refused (h : hostAccessRefused s a n = some r) : memLoad a n s = .refused r := by
  simp only [memLoad, h]

theorem maintain_refused (hc : s.port.coherent = false) (h : hostAccessRefused s a n = some r) :
    maintain f a n s = .refused r := by
  simp [maintain, hc, h]

end

/-! One step of an idle engine's host (R65). -/

section
variable {s : State} {ms : List Move} {a n : Nat} {bytes : List Byte}

theorem step_memStore_coherent (hm : s.moves = .memStore a bytes :: ms) (hp : s.ph = .idle)
    (ha : a + bytes.length ≤ 2 ^ 64) (hc : s.port.coherent = true) :
    step s = .next { s with moves := ms, port := { s.port with mem := s.port.mem.storeBytes a bytes } } := by
  rw [step_of_move hm]
  simp [perform, memStore, hostAccessRefused_idle (s := { s with moves := ms }) hp ha, hc]

theorem step_memStore_cached (hm : s.moves = .memStore a bytes :: ms) (hp : s.ph = .idle)
    (ha : a + bytes.length ≤ 2 ^ 64) (hc : s.port.coherent = false) :
    step s = .next { s with
      moves := ms
      port := { s.port with cache := { s.port.cache with dirty := s.port.cache.dirty.storeBytes a bytes } } } := by
  rw [step_of_move hm]
  simp [perform, memStore, hostAccessRefused_idle (s := { s with moves := ms }) hp ha, hc]

theorem step_memLoad (hm : s.moves = .memLoad a n :: ms) (hp : s.ph = .idle) (ha : a + n ≤ 2 ^ 64) :
    step s = .next { s with
      moves := ms
      readback := .bytes ((List.range n).map fun k => s.port.hostByte (a + k))
      port := { s.port with freeCount := s.port.freeCount + 1 } } := by
  rw [step_of_move hm]
  simp only [perform, memLoad, hostAccessRefused_idle (s := { s with moves := ms }) hp ha]

theorem step_cacheWriteBack (hm : s.moves = .cacheWriteBack a n :: ms) (hp : s.ph = .idle) (ha : a + n ≤ 2 ^ 64)
    (hc : s.port.coherent = false) :
    step s = .next { s with moves := ms, port := s.port.writeBack a n } := by
  rw [step_of_move hm]
  simp [perform, cacheWriteBack, maintain, hostAccessRefused_idle (s := { s with moves := ms }) hp ha, hc]

theorem step_cacheInvalidate (hm : s.moves = .cacheInvalidate a n :: ms) (hp : s.ph = .idle) (ha : a + n ≤ 2 ^ 64)
    (hc : s.port.coherent = false) :
    step s = .next { s with moves := ms, port := s.port.invalidate a n } := by
  rw [step_of_move hm]
  simp [perform, cacheInvalidate, maintain, hostAccessRefused_idle (s := { s with moves := ms }) hp ha, hc]

end

/-- A store and the write-back of its bytes leave in memory what a store on a coherent platform does (R80). -/
theorem storeCached_writeBack_byte {p : Port} (a : Nat) (bytes : List Byte) (hwf : p.cache.dirty.wf) (x : Nat) :
    (Port.writeBack a bytes.length
      { p with cache := { p.cache with dirty := p.cache.dirty.storeBytes a bytes } }).mem.byte x =
    (p.mem.storeBytes a bytes).byte x := by
  rw [Port.writeBack_byte _ _ _ (Memory.storeBytes_wf _ _ _ hwf)]
  by_cases hx : a ≤ x ∧ x < a + bytes.length
  · obtain ⟨k, rfl⟩ := Nat.exists_eq_add_of_le hx.1
    have hk : k < bytes.length := by omega
    rw [if_pos ((inRange_iff _ _ _).2 hx), Memory.find_storeBytes_inside _ _ _ _ hk,
      Memory.byte_storeBytes_inside _ _ _ _ hk]
    rfl
  · rw [if_neg (mt (inRange_iff _ _ _).1 hx), Memory.byte_storeBytes_outside _ _ _ _ (by omega)]

/-- After an invalidation of bytes that all were written back, a load of them finds what memory holds (R80). -/
theorem invalidate_hostByte {p : Port} {a n : Nat} (hd : ∀ x, a ≤ x → x < a + n → p.cache.dirty.find x = none)
    {x : Nat} (h1 : a ≤ x) (h2 : x < a + n) : (p.invalidate a n).hostByte x = p.mem.byte x := by
  have hin : inRange a n x = true := (inRange_iff _ _ _).2 ⟨h1, h2⟩
  have hclean : (p.invalidate a n).cache.dirty.find x = none := by
    refine (dirty_outside_find a n p.cache.dirty x).trans ?_
    rw [if_pos hin]
  have hfresh : (p.invalidate a n).cache.staleAt x = false := by
    rw [Port.invalidate_staleAt, hin, Bool.not_true, Bool.and_false]
  rw [Port.hostByte_eq _ _ (.inr ⟨hclean, hfresh⟩), Port.invalidate_mem _ _ _ hd]

end Sys2Proof.Machine
end

section
/-! PROOF. The obligations of 20_memory.md. -/

namespace Sys2Proof.Machine

/-- Settles O12: each offset names its array's word, whose bytes are the array's, the lowest first. -/
theorem byteArraysReadLittleEndian : Obligations.ByteArraysReadLittleEndian := by
  unfold Obligations.ByteArraysReadLittleEndian
  intro s w k hk
  refine ⟨fun h => ?_, fun h => ?_, fun h => ?_, fun h => ?_, fun h => ?_, fun h => ?_, fun h => ?_⟩
  · rw [regAt_st w (by omega)]; exact wordAt_byte s.st w k hk h
  · rw [regAt_digest w (by omega)]; exact wordAt_byte s.digest w k hk h
  · rw [regAt_rin w (by omega)]; exact wordAt_byte s.rin w k hk h
  · rw [regAt_rkey w (by omega)]; exact wordAt_byte s.rkey w k hk h
  · rw [regAt_rout w (by omega)]; exact wordAt_byte s.rout w k hk h
  · rw [regAt_rk w (by omega)]; exact (wordAt_byte (keyBytes s.rk) w k hk h).trans (keyBytes_getElem _ _ h)
  · rw [regAt_fst w (by omega)]; exact wordAt_byte s.fst w k hk h

/-- Settles O13: a read at a defined offset only sets what the host holds; the listed offsets name registers that read
0. -/
theorem registerReadsHaveNoSideEffect : Obligations.RegisterReadsHaveNoSideEffect := by
  unfold Obligations.RegisterReadsHaveNoSideEffect
  intro s ms off h4 h hm
  exact ⟨step_rd32 s ms off h h4 hm, fun hz => readReg_readsZero (regAt_readsZero h4 hz) s⟩

/-- Settles O28: the six commands call a permutation or hash unit at most, and a fault entry leaves the port alone. -/
theorem noScratchpadAccess : Obligations.NoScratchpadAccess := by
  unfold Obligations.NoScratchpadAccess
  refine ⟨fun i s t hi h => ?_, fun i s t hd h hi => exec_invalid_descriptor_port hi hd h, fun s t r hr h => ?_⟩
  · rcases exec_without_scratchpad hi h with hp | ⟨e, he, hp⟩
    · exact ⟨by rw [hp], [], by rw [hp]; rfl, nofun⟩
    · exact ⟨by rw [hp]; rfl, [e], by rw [hp]; rfl, fun e' he' => by rw [List.mem_singleton.1 he', he]⟩
  · rcases engineTurn_cases h with ⟨_, rfl⟩ | ⟨_, i, hi, _⟩ | ⟨_, _, _, rfl⟩
    · rfl
    · rw [hr] at hi; cases hi
    · rfl

/-- Settles O34: EXPAND's writes are those of its expansion, and the blocks are R142's. -/
theorem expandWritesEachBlockOnce : Obligations.ExpandWritesEachBlockOnce := by
  unfold Obligations.ExpandWritesEachBlockOnce
  constructor
  · intro s hd hs
    obtain ⟨w, hw, ht⟩ := expandPhase_writes s.st s.spBase s.work hs
    exact ⟨_, by rw [exec_expand_ok hd, hw, finish_ok], expandedBlock s.st, ht⟩
  · intro st base w hs
    obtain ⟨w', hw, ht⟩ := expandPhase_writes st base w hs
    exact ⟨w', expandedBlock st, hw, ht⟩

/-- Settles O42: ABSORB's reads are those of its absorption, which stores nothing. -/
theorem absorbReadsEachBlockOnce : Obligations.AbsorbReadsEachBlockOnce := by
  unfold Obligations.AbsorbReadsEachBlockOnce
  refine ⟨fun s t h => Prod.mk.inj (execAbsorb_held h), fun s hd hs => ?_, absorbPhase_reads_in_order⟩
  obtain ⟨w, hw, -, ht⟩ := absorbPhase_reads_in_order s.st s.spBase s.work hs
  exact ⟨_, by rw [exec_absorb_ok hd, hw, finish_ok], ht⟩

/-- Settles O45: both runs complete with the result R196 gives, in which no byte of the old memory occurs. -/
theorem runIgnoresPriorContents : Obligations.RunIgnoresPriorContents := by
  unfold Obligations.RunIgnoresPriorContents
  intro s m hd hh hs
  obtain ⟨t, ht, r⟩ := exec_run_result hd hh hs
  obtain ⟨t', ht', r'⟩ := exec_run_result (s := { s with port := { s.port with mem := m } }) hd hh hs
  exact ⟨t, t', ht, ht', r.completed, r'.completed, r'.dataRegs.trans r.dataRegs.symm,
    r'.selection.trans r.selection.symm, r'.latch.trans r.latch.symm, r'.surroundings.trans r.surroundings.symm,
    fun x h1 h2 => byte_eq_of_spBlocks (fun n hn => (r'.blocks n hn).trans (r.blocks n hn).symm) h1 h2⟩

/-- Settles O49: an access is at a block of the region, and a command whose region does not fit makes none. -/
theorem accessesStayInTheRegion : Obligations.AccessesStayInTheRegion := by
  unfold Obligations.AccessesStayInTheRegion
  intro i s t h
  obtain ⟨es, ht, hes⟩ := exec_accesses h
  refine ⟨es, ht, fun e he a ha => ?_⟩
  obtain ⟨⟨n, hn, rfl⟩, hfit⟩ := hes e he a ha
  have hn' : n < 131072 := hn
  have hfit' : s.spBase + 2097152 ≤ 2 ^ 64 := hfit
  exact ⟨16 * n, rfl, by omega, by omega, by omega⟩

/-- Settles O58: while the engine is idle no such move is refused, and each has the effect R76 or R80 gives it. -/
theorem hostStoreAndLoad : Obligations.HostStoreAndLoad := by
  unfold Obligations.HostStoreAndLoad
  intro s ms a hp
  refine ⟨fun bytes hm ha hc => ?_, fun bytes hm ha hc hwf => ?_, fun n hm ha hc => ?_, fun n hm ha hc hd => ?_⟩
  · exact ⟨_, step_memStore_coherent hm hp ha hc, ⟨rfl, rfl, rfl, hp⟩,
      Memory.byte_storeBytes_inside _ _ _, Memory.byte_storeBytes_outside _ _ _⟩
  · refine ⟨_, _, step_memStore_cached hm hp ha hc, ⟨rfl, rfl, rfl, hp⟩, rfl, step_cacheWriteBack rfl hp ha hc,
      ⟨rfl, rfl, rfl, hp⟩, fun k hk => ⟨?_, ?_⟩, fun x hx => ?_⟩
    · exact (storeCached_writeBack_byte a bytes hwf _).trans (Memory.byte_storeBytes_inside _ _ _ _ hk)
    · refine (Port.writeBack_unsure _ _ _ _).trans ?_
      rw [(inRange_iff _ _ _).2 (by omega), Bool.not_true, Bool.and_false]
    · exact (storeCached_writeBack_byte a bytes hwf x).trans (Memory.byte_storeBytes_outside _ _ _ _ hx)
  · refine ⟨_, step_memLoad hm hp ha, congrArg HostData.bytes (List.map_congr_left fun k _ => ?_), rfl,
      rfl, rfl, rfl, hp⟩
    exact Port.hostByte_eq _ _ (.inl hc)
  · refine ⟨_, _, step_cacheInvalidate hm hp ha hc, step_memLoad rfl hp ha,
      congrArg HostData.bytes (List.map_congr_left fun k hk => ?_), fun x => ?_, rfl, rfl, rfl, hp⟩
    · have hk' := List.mem_range.1 hk
      exact invalidate_hostByte hd (by omega) (by omega)
    · exact congrArg (fun m => Memory.byte m x) (Port.invalidate_mem _ _ _ hd)

/-- Settles O14: the access touches the window and is none that R62 defines. -/
theorem undefinedAccessesAreRefused : Obligations.UndefinedAccessesAreRefused := by
  unfold Obligations.UndefinedAccessesAreRefused
  intro s ms off width val h hw hu
  have ht : targetOf s.regBase (s.regBase + off) width = .undefined := targetOf_undefined h hw hu
  constructor
  · intro hm
    rw [step_of_move hm]
    simp only [perform, busRead, ht]
  · intro hm
    rw [step_of_move hm]
    simp only [perform, busWrite, ht]

/-- Settles O57: the engine owns the region, and each of these moves asks whether it may touch it. -/
theorem ownedRegionIsRefused : Obligations.OwnedRegionIsRefused := by
  unfold Obligations.OwnedRegionIsRefused
  intro s ms i a bytes n hp hd hi
  have refused : ∀ k, a + k ≤ 2 ^ 64 → a < s.spBase + 2097152 → s.spBase < a + k →
      hostAccessRefused { s with moves := ms } a k = some .ownedRegion :=
    fun _ => hostAccessRefused_owned (s := { s with moves := ms }) hp hd hi
  refine ⟨fun hm h h1 h2 => ?_, fun hm h h1 h2 => ?_, fun hm hc h h1 h2 => ?_⟩
  · exact (step_of_move hm).trans (memStore_refused (refused _ h h1 h2))
  · exact (step_of_move hm).trans (memLoad_refused (refused _ h h1 h2))
  · rcases hm with hm | hm
    · exact (step_of_move hm).trans (maintain_refused hc (refused _ h h1 h2))
    · exact (step_of_move hm).trans (maintain_refused hc (refused _ h h1 h2))

end Sys2Proof.Machine
end

section
/-! PROOF. 30_encoding.md: the decoder and the assembler.  When a word decodes (R95, R96), the word put together again
from its fields (R91), and the lines the assembler accepts (R100, R102). -/

namespace Sys2Proof.Machine

/-! ### Words and commands -/

/-- A word is its fields RSV, K and OP, the highest first (R91). -/
theorem rsvField_append_kField_append_opField (w : Word) : rsvField w ++ kField w ++ opField w = w := by
  unfold rsvField kField opField
  rw [BitVec.extractLsb'_append_extractLsb'_eq_extractLsb' (start₁ := 8) (len₁ := 1) rfl,
    BitVec.extractLsb'_append_extractLsb'_eq_extractLsb' (start₁ := 0) (len₁ := 8) rfl]
  exact BitVec.extractLsb'_eq_self

/-- A word decodes to a command exactly when R95's three tests pass and the opcode map names that command. -/
theorem decode_eq_ok_iff {w : Word} {i : Instr} :
    decode w = .ok i ↔
      commandOf (opField w) (kField w) = some i ∧ rsvField w = 0 ∧ (kField w = 1 → opField w = 0x03) := by
  unfold decode
  cases commandOf (opField w) (kField w) with
  | none => exact iff_of_false nofun fun h => nomatch h.1
  | some j =>
    dsimp only
    split_ifs with hrsv hstray
    · exact iff_of_false nofun fun h => hrsv h.2.1
    · exact iff_of_false nofun fun h => hstray.2 (h.2.2 hstray.1)
    · rw [Except.ok.injEq, Option.some.injEq, iff_self_and]
      exact fun _ => ⟨not_not.1 hrsv, not_and_not_right.1 hstray⟩

/-- The opcode map of R96 names no command twice: OP is the opcode of the command it names. -/
theorem opcode_of_commandOf {op : BitVec 8} {k : BitVec 1} {i : Instr} (h : commandOf op k = some i) :
    opcode i = op := by
  unfold commandOf at h
  split at h <;> cases h <;> exact (BitVec.eq_of_toNat_eq ‹_›).symm

/-- K reaches the command for KEYEXP only (R93, R94). -/
theorem kBit_of_commandOf {k : BitVec 1} {i : Instr} (h : commandOf (opcode i) k = some i) :
    kBit i = if opcode i = 0x03 then k else 0 := by
  cases i with
  | keyexp k' => cases h; rfl
  | _ => rfl

/-- A word that decodes has RSV = 0 and the command's own OP and K, so it is the command's word. -/
theorem encode_of_decode {w : Word} {i : Instr} (h : decode w = .ok i) : encode i = w := by
  obtain ⟨hcmd, hrsv, hstray⟩ := decode_eq_ok_iff.1 h
  have hop : opcode i = opField w := opcode_of_commandOf hcmd
  have hk : kBit i = kField w := by
    rw [← hop] at hcmd hstray
    rw [kBit_of_commandOf hcmd]
    split
    next => rfl
    next hne => exact (BitVec.eq_zero_or_eq_one _).elim Eq.symm fun h1 => absurd (hstray h1) hne
  calc encode i = rsvField w ++ kField w ++ opField w := by rw [encode, hop, hk, hrsv]
    _ = w := rsvField_append_kField_append_opField w

theorem decode_eq_ok_iff_encode_eq (w : Word) (i : Instr) : decode w = .ok i ↔ encode i = w :=
  ⟨encode_of_decode, fun h => h ▸ decode_encode i⟩

/-! ### The assembler's lines -/

/-- The lines of R100 and the one-command pseudo-instructions of R102: no operand, but for `cne.keyexp`. -/
def acceptedLines : List AsmLine :=
  plainMnemonics.map (⟨·, none⟩) ++ [⟨"cne.keyexp", some 0⟩, ⟨"cne.keyexp", some 1⟩]

theorem parse_isSome_iff (l : AsmLine) : l.parse.isSome ↔ l ∈ acceptedLines := by
  constructor
  · obtain ⟨m, o⟩ := l
    intro h
    unfold AsmLine.parse at h
    dsimp only at h
    split at h
    case h_15 => cases h
    all_goals decide
  · exact (by decide : ∀ l ∈ acceptedLines, l.parse.isSome) l

theorem wellFormed_iff (l : AsmLine) : l.wellFormed ↔ l ∈ acceptedLines := by
  constructor
  · obtain ⟨m, o⟩ := l
    intro h
    simp only [AsmLine.wellFormed, Bool.and_eq_true] at h
    obtain ⟨⟨hknown, hpresence⟩, hrange⟩ := h
    cases o with
    | none =>
      have hne : m ≠ "cne.keyexp" := by simpa [AsmLine.operandPresence] using hpresence
      have hm : m ∈ plainMnemonics := by simpa [AsmLine.mnemonicKnown, hne] using hknown
      exact List.mem_append_left _ (List.mem_map_of_mem hm)
    | some n =>
      have hm : m = "cne.keyexp" := by simpa [AsmLine.operandPresence] using hpresence
      have hn : n = 0 ∨ n = 1 := by simpa [AsmLine.operandRange] using hrange
      subst hm
      rcases hn with rfl | rfl <;> decide
  · exact (by decide : ∀ l ∈ acceptedLines, l.wellFormed) l

theorem assemble_isSome (l : AsmLine) : l.assemble.isSome = l.wellFormed := by
  rw [AsmLine.assemble, Option.isSome_map, Bool.eq_iff_iff, parse_isSome_iff, wellFormed_iff]

end Sys2Proof.Machine
end

section
/-! PROOF. The obligations of 30_encoding.md. -/

namespace Sys2Proof.Machine

/-- Settles O3: each field of a word that decodes is the one the encoder writes. -/
theorem decodeAgreesWithEncode : Obligations.DecodeAgreesWithEncode := by
  unfold Obligations.DecodeAgreesWithEncode
  exact decode_eq_ok_iff_encode_eq

/-- Settles O2: by O3's equivalence the pairs are the commands with their encodings, of which there are eleven. -/
theorem legalWordsAreExactlyEleven : Obligations.LegalWordsAreExactlyEleven := by
  unfold Obligations.LegalWordsAreExactlyEleven
  intro w i
  rw [decode_eq_ok_iff_encode_eq]
  constructor
  · rintro rfl
    cases i with
    | keyexp k => revert k; decide
    | _ => decide
  · refine (?_ : ∀ p : Word × Instr, p ∈ _ → encode p.2 = p.1) (w, i)
    decide

/-- Settles O5: both sides single out the same lines, and each of R100's lines is the name of its word's command. -/
theorem assemblerAcceptsWellFormedLines : Obligations.AssemblerAcceptsWellFormedLines := by
  unfold Obligations.AssemblerAcceptsWellFormedLines
  exact ⟨assemble_isSome, by decide⟩

/-- Settles O1: the eleven words are the commands' encodings. -/
theorem elevenWordsDecode : Obligations.ElevenWordsDecode := by
  unfold Obligations.ElevenWordsDecode
  exact ⟨decode_encode .nop, decode_encode .check, decode_encode .round, decode_encode (.keyexp 0),
    decode_encode (.keyexp 1), decode_encode .expand, decode_encode .mix, decode_encode .absorb,
    decode_encode .permute, decode_encode .select, decode_encode .run⟩

end Sys2Proof.Machine
end

section
/-! PROOF. 40_block_round.md: the field, the S-box and the block round.  The S-box through the field inverse (R111,
R112), the round column by column (R113 to R116), and that the round loses nothing of its block (R116). -/

namespace Sys2Proof.Machine

/-! ### The field and the S-box -/

theorem gmul_two : ∀ a : Byte, gmul 2 a = xtime a := by decide +kernel

theorem gmul_three : ∀ a : Byte, gmul 3 a = xtime a ^^^ a := by decide +kernel

/-- With this rule simp sorts the summands of a byte, so that equal ones cancel. -/
theorem byte_xor_left_comm (a b c : Byte) : a ^^^ (b ^^^ c) = b ^^^ (a ^^^ c) := by ac_rfl

/-- Multiplication by x keeps sums (R110). -/
theorem xtime_xor (a b : Byte) : xtime (a ^^^ b) = xtime a ^^^ xtime b := by
  unfold xtime
  rw [BitVec.shiftLeft_xor_distrib, BitVec.getLsbD_xor]
  cases a.getLsbD 7 <;> cases b.getLsbD 7 <;> simp [BitVec.xor_assoc, BitVec.xor_comm, byte_xor_left_comm]

/-- The affine map of R112, undone. -/
def affinePreimage (b : Byte) : Byte := b.rotateLeft 1 ^^^ b.rotateLeft 3 ^^^ b.rotateLeft 6 ^^^ 0x05

theorem sboxAffine_affinePreimage : ∀ b : Byte, sboxAffine (affinePreimage b) = b := by decide +kernel

/-- The field inverse of R111, read off the S-box table: the byte whose affine image the table holds. -/
def fieldInv (a : Byte) : Byte := affinePreimage (sbox a)

theorem sbox_eq_sboxAffine_fieldInv (a : Byte) : sbox a = sboxAffine (fieldInv a) :=
  (sboxAffine_affinePreimage _).symm

theorem fieldInv_zero : fieldInv 0 = 0 := by decide

theorem gmul_fieldInv : ∀ a : Byte, a ≠ 0 → gmul a (fieldInv a) = 1 := by decide +kernel

theorem fieldInv_fieldInv : ∀ a : Byte, fieldInv (fieldInv a) = a := by decide +kernel

theorem sbox_injective : Function.Injective sbox :=
  .of_comp (f := affinePreimage) (Function.Involutive.injective fieldInv_fieldInv)

/-! ### The columns of a block -/

/-- Column c of a block: row r is byte 4c + r (R113). -/
def column (x : Block) (c : Fin 4) : Fin 4 → Byte := fun r => x[4 * c.val + r.val]

/-- MixColumns on one column (R114). -/
def mixColumn (a : Fin 4 → Byte) : Fin 4 → Byte := fun r => mixRow r.val (a 0) (a 1) (a 2) (a 3)

theorem eq_of_column_eq {x y : Block} (h : ∀ c r, column x c r = column y c r) : x = y := by
  apply Vector.ext
  intro i hi
  have hcr := h ⟨i / 4, by omega⟩ ⟨i % 4, by omega⟩
  simpa only [column, Nat.div_add_mod] using hcr

theorem column_subBytes (x : Block) (c r : Fin 4) : column (subBytes x) c r = sbox (column x c r) := by
  simp [column, subBytes]

/-- Row r is rotated left by r columns. -/
theorem column_shiftRows (x : Block) (c r : Fin 4) : column (shiftRows x) c r = column x (c + r) r := by
  have hdiv : (4 * c.val + r.val) / 4 = c.val := by omega
  have hmod : (4 * c.val + r.val) % 4 = r.val := by omega
  simp only [column, shiftRows, Vector.getElem_ofFn, hdiv, hmod, Fin.val_add]

theorem column_mixColumns (x : Block) (c : Fin 4) : column (mixColumns x) c = mixColumn (column x c) := by
  funext r
  have hdiv : (4 * c.val + r.val) / 4 = c.val := by omega
  have hmod : (4 * c.val + r.val) % 4 = r.val := by omega
  simp only [column, mixColumns, mixColumn, Vector.getElem_ofFn, hdiv, hmod]
  rfl

theorem column_bxor (x y : Block) (c r : Fin 4) : column (bxor x y) c r = column x c r ^^^ column y c r :=
  bxor_getElem _ _ _ _

/-- The round on one column: the rotated rows' bytes substituted, mixed, and summed with the key's (R115, R116). -/
theorem column_aesRound (x k : Block) (c r : Fin 4) :
    column (aesRound x k) c r = mixColumn (fun j => sbox (column x (c + j) j)) r ^^^ column k c r := by
  have hrows : column (shiftRows (subBytes x)) c = fun j => sbox (column x (c + j) j) := by
    funext j
    rw [column_shiftRows, column_subBytes]
  rw [aesRound, column_bxor, column_mixColumns, hrows]

/-! ### No layer of the round loses anything -/

/-- The sum of a column's bytes.  MixColumns keeps it, for each column of the matrix sums to 1. -/
def columnSum (a : Fin 4 → Byte) : Byte := a 0 ^^^ a 1 ^^^ a 2 ^^^ a 3

/-- A row of the matrix (02 03 01 01): the row's byte, the column's sum, and x times a sum of neighbours. -/
theorem mixColumn_apply (a : Fin 4 → Byte) (r : Fin 4) :
    mixColumn a r = a r ^^^ columnSum a ^^^ xtime (a r ^^^ a (r + 1)) := by
  simp only [mixColumn, mixRow, columnSum, xtime_xor]
  match r with
  | 0 | 1 | 2 | 3 =>
    simp only [gmul_two, gmul_three, zero_add, Fin.reduceAdd]
    generalize a 0 = w, a 1 = x, a 2 = y, a 3 = z
    simp [BitVec.xor_assoc, BitVec.xor_comm, byte_xor_left_comm]

theorem columnSum_mixColumn (a : Fin 4 → Byte) : columnSum (mixColumn a) = columnSum a := by
  rw [columnSum, columnSum]
  simp only [mixColumn_apply, zero_add, Fin.reduceAdd, xtime_xor]
  generalize xtime (a 0) = w, xtime (a 1) = x, xtime (a 2) = y, xtime (a 3) = z, columnSum a = s
  simp [BitVec.xor_assoc, BitVec.xor_comm, byte_xor_left_comm]

/-- The sum of two neighbours, mixed. -/
theorem mixColumn_xor_next (a : Fin 4 → Byte) (r : Fin 4) :
    mixColumn a r ^^^ mixColumn a (r + 1) = a r ^^^ a (r + 1) ^^^ xtime (a r ^^^ a (r + 2)) := by
  have hr : r + 1 + 1 = r + 2 := by revert r; decide
  simp only [mixColumn_apply, xtime_xor, hr]
  simp [BitVec.xor_assoc, byte_xor_left_comm]

/-- The square of the matrix is (05 00 04 00). -/
theorem mixColumn_mixColumn (a : Fin 4 → Byte) (r : Fin 4) :
    mixColumn (mixColumn a) r = a r ^^^ xtime (xtime (a r ^^^ a (r + 2))) := by
  rw [mixColumn_apply, columnSum_mixColumn, mixColumn_xor_next, mixColumn_apply, xtime_xor _ (xtime _)]
  simp [BitVec.xor_assoc, BitVec.xor_comm, byte_xor_left_comm]

/-- The fourth power of the matrix is the identity. -/
theorem mixColumn_twice_involutive : Function.Involutive (mixColumn ∘ mixColumn) := by
  intro a
  funext r
  have hr : r + 2 + 2 = r := by revert r; decide
  simp only [Function.comp_apply, mixColumn_mixColumn, hr, xtime_xor]
  simp [BitVec.xor_assoc, BitVec.xor_comm]

theorem mixColumn_injective : Function.Injective mixColumn := .of_comp mixColumn_twice_involutive.injective

theorem column_eq_of_aesRound_eq {x y k : Block} (h : aesRound x k = aesRound y k) (c r : Fin 4) :
    column x (c + r) r = column y (c + r) r := by
  have hmix : mixColumn (fun j => sbox (column x (c + j) j)) = mixColumn (fun j => sbox (column y (c + j) j)) := by
    funext j
    have hj := congrArg (fun v => column v c j) h
    simpa only [column_aesRound, BitVec.xor_left_inj] using hj
  exact sbox_injective (congrFun (mixColumn_injective hmix) r)

theorem aesRound_injective (k : Block) : Function.Injective (aesRound · k) := by
  intro x y h
  refine eq_of_column_eq fun c r => ?_
  simpa only [sub_add_cancel] using column_eq_of_aesRound_eq h (c - r) r

end Sys2Proof.Machine
end

section
/-! PROOF. 40_block_round.md: the key schedule as R118's recurrence.  The loop appends one word at a time and reads
only words that are there, so each word is what the finished list's earlier words give. -/

namespace Sys2Proof.Machine

/-- The list of R118's loop after n of its rounds: words 0 to 7 + n. -/
def keyWordsUpTo (K : Bytes 32) (n : Nat) : List (Bytes 4) :=
  (List.range' 8 n).foldl (fun ws i => ws ++ [nextKeyWord ws i]) (firstKeyWords K)

theorem keyWordsUpTo_succ (K : Bytes 32) (n : Nat) :
    keyWordsUpTo K (n + 1) = keyWordsUpTo K n ++ [nextKeyWord (keyWordsUpTo K n) (8 + n)] := by
  simp [keyWordsUpTo, List.range'_concat]

theorem keyWordsUpTo_length (K : Bytes 32) (n : Nat) : (keyWordsUpTo K n).length = 8 + n := by
  induction n with
  | zero => simp [keyWordsUpTo, firstKeyWords]
  | succ n ih => rw [keyWordsUpTo_succ, List.length_append, ih]; rfl

theorem keyWordAt_append_left {ws : List (Bytes 4)} {i : Nat} (h : i < ws.length) (vs : List (Bytes 4)) :
    keyWordAt (ws ++ vs) i = keyWordAt ws i :=
  List.getD_append _ _ _ _ h

/-- A word stays once it is in the list. -/
theorem keyWordAt_keyWordsUpTo_of_le (K : Bytes 32) {i m n : Nat} (h : m ≤ n) (hi : i < 8 + m) :
    keyWordAt (keyWordsUpTo K n) i = keyWordAt (keyWordsUpTo K m) i := by
  induction n, h using Nat.le_induction with
  | base => rfl
  | succ n hn ih =>
    rw [keyWordsUpTo_succ, keyWordAt_append_left (by rw [keyWordsUpTo_length]; omega), ih]

/-- The loop's body reads words i - 1 and i - 8 only. -/
theorem nextKeyWord_congr {ws vs : List (Bytes 4)} {i : Nat} (h1 : keyWordAt ws (i - 1) = keyWordAt vs (i - 1))
    (h8 : keyWordAt ws (i - 8) = keyWordAt vs (i - 8)) : nextKeyWord ws i = nextKeyWord vs i := by
  rw [nextKeyWord, nextKeyWord, h1, h8]

theorem keyWordAt_firstKeyWords (K : Bytes 32) {i : Nat} (h : i < 8) :
    keyWordAt (firstKeyWords K) i = slice K (4 * i) 4 := by
  simp only [keyWordAt, firstKeyWords, List.getD_eq_getElem?_getD, List.getElem?_ofFn, h, dif_pos, Option.getD_some]

/-- Words 0 to 7 are the key's own (R118). -/
theorem keyWordAt_keyWords_of_lt (K : Bytes 32) {i : Nat} (h : i < 8) :
    keyWordAt (keyWords K) i = slice K (4 * i) 4 :=
  (keyWordAt_keyWordsUpTo_of_le K (m := 0) (n := 32) (by omega) h).trans (keyWordAt_firstKeyWords K h)

/-- Every later word is the loop's body on the words of the finished list (R118). -/
theorem keyWordAt_keyWords_of_ge (K : Bytes 32) {i : Nat} (h8 : 8 ≤ i) (h : i < 40) :
    keyWordAt (keyWords K) i = nextKeyWord (keyWords K) i := by
  obtain ⟨n, rfl⟩ := Nat.exists_eq_add_of_le h8
  have hlast : keyWordAt (keyWordsUpTo K (n + 1)) (8 + n) = nextKeyWord (keyWordsUpTo K n) (8 + n) := by
    rw [keyWordsUpTo_succ, keyWordAt, List.getD_append_right _ _ _ _ (by rw [keyWordsUpTo_length]),
      keyWordsUpTo_length, Nat.sub_self]
    rfl
  have hearlier : ∀ j, j < 8 + n → keyWordAt (keyWordsUpTo K n) j = keyWordAt (keyWords K) j := fun j hj =>
    (keyWordAt_keyWordsUpTo_of_le K (n := 32) (by omega) hj).symm
  calc keyWordAt (keyWords K) (8 + n)
      = keyWordAt (keyWordsUpTo K (n + 1)) (8 + n) :=
        keyWordAt_keyWordsUpTo_of_le K (n := 32) (by omega) (by omega)
    _ = nextKeyWord (keyWordsUpTo K n) (8 + n) := hlast
    _ = nextKeyWord (keyWords K) (8 + n) := nextKeyWord_congr (hearlier _ (by omega)) (hearlier _ (by omega))

/-- Word n of the ten round keys is bytes 4(n mod 4) and the three after it of round key n div 4 (R118). -/
theorem keyExp10_word (K : Bytes 32) (n : Nat) (h : n < 40) :
    (Vector.ofFn fun r : Fin 4 => (keyExp10 K)[n / 4][4 * (n % 4) + r.val] : Bytes 4) = keyWordAt (keyWords K) n := by
  unfold keyExp10
  generalize keyWords K = ws
  apply Vector.ext
  intro r hr
  have hword : 4 * (n / 4) + (4 * (n % 4) + r) / 4 = n := by omega
  have hbyte : (4 * (n % 4) + r) % 4 = r := by omega
  simp only [Vector.getElem_ofFn, hword, hbyte]

theorem rconWord_eq {k : Nat} (h : 1 ≤ k) (h4 : k ≤ 4) :
    rconWord k = #v[BitVec.ofNat 8 (2 ^ (k - 1)), 0, 0, 0] := by
  interval_cases k <;> rfl

section
variable (ws : List (Bytes 4)) {i : Nat}

theorem nextKeyWord_of_mod_eq_zero (h : i % 8 = 0) :
    nextKeyWord ws i =
      bxor (keyWordAt ws (i - 8)) (bxor (subWord (rotWord (keyWordAt ws (i - 1)))) (rconWord (i / 8))) := by
  simp only [nextKeyWord, h, if_true]

theorem nextKeyWord_of_mod_eq_four (h : i % 8 = 4) :
    nextKeyWord ws i = bxor (keyWordAt ws (i - 8)) (subWord (keyWordAt ws (i - 1))) := by
  simp [nextKeyWord, h]

theorem nextKeyWord_of_mod_ne (h0 : i % 8 ≠ 0) (h4 : i % 8 ≠ 4) :
    nextKeyWord ws i = bxor (keyWordAt ws (i - 8)) (keyWordAt ws (i - 1)) := by
  simp only [nextKeyWord, h0, h4, if_false]

end

theorem subWord_eq (w : Bytes 4) : subWord w = Vector.ofFn fun r : Fin 4 => sbox w[r.val] := by
  apply Vector.ext
  simp [subWord]

theorem subWord_rotWord (w : Bytes 4) :
    subWord (rotWord w) = Vector.ofFn fun r : Fin 4 => sbox w[(r.val + 1) % 4] := by
  apply Vector.ext
  simp [subWord, rotWord]

end Sys2Proof.Machine
end

section
/-! PROOF. 40_block_round.md: the commands.  The slices of ST that KEYEXP reads (R93), and that HW_CAP reaches no value
a command computes (R120). -/

namespace Sys2Proof.Machine

theorem keySlice_zero (st : Bytes 200) : keySlice st 0 = Vector.ofFn fun n : Fin 32 => st[n.val] := by
  apply Vector.ext
  intro n hn
  simp [keySlice]

theorem keySlice_one (st : Bytes 200) : keySlice st 1 = Vector.ofFn fun n : Fin 32 => st[32 + n.val] := by
  apply Vector.ext
  intro n hn
  simp [keySlice]

/-- A command's end is the same under either HW_CAP when its commit does not touch that latch. -/
theorem finish_hwCap {s t : State} {commit : Engine → State → State} {r : Run Unit} (b : Bool)
    (hc : ∀ e u, commit e { u with hwCap := b } = { commit e u with hwCap := b })
    (h : finish s commit r = .next t) : finish { s with hwCap := b } commit r = .next { t with hwCap := b } := by
  rcases finish_next h with ⟨w, rfl, rfl⟩ | ⟨c, w, rfl, rfl⟩
  · exact congrArg (fun u => Host.Outcome.next (complete u)) (hc w.eng (s.withWork w))
  · rfl

/-- A command whose descriptor check passes under both settings reads HW_CAP no more (R120). -/
theorem exec_hwCap {i : Instr} {s t : State} {b : Bool} (hd : s.DescriptorOk)
    (hd' : State.DescriptorOk { s with hwCap := b }) (h : exec i s = .next t) :
    exec i { s with hwCap := b } = .next { t with hwCap := b } := by
  cases i with
  | nop | round | keyexp k | permute | select => cases h; rfl
  | check =>
    have hc := (checkDescriptor_eq_none s).2 hd
    have hc' := (checkDescriptor_eq_none _).2 hd'
    simp only [exec, execCheck, hc] at h
    cases h
    simp only [exec, execCheck, hc']
    rfl
  | expand => rw [exec_expand_ok hd] at h; rw [exec_expand_ok hd']; exact finish_hwCap b (fun _ _ => rfl) h
  | mix => rw [exec_mix_ok hd] at h; rw [exec_mix_ok hd']; exact finish_hwCap b (fun _ _ => rfl) h
  | absorb => rw [exec_absorb_ok hd] at h; rw [exec_absorb_ok hd']; exact finish_hwCap b (fun _ _ => rfl) h
  | run => rw [exec_run_ok hd] at h; rw [exec_run_ok hd']; exact finish_hwCap b (fun _ _ => rfl) h

end Sys2Proof.Machine
end

section
/-! PROOF. The obligations of 40_block_round.md. -/

namespace Sys2Proof.Machine

/-- Settles O29: the four rows of one column of the round. -/
theorem aesRoundBytes : Obligations.AesRoundBytes := by
  unfold Obligations.AesRoundBytes
  intro x k c hc
  have h := column_aesRound x k ⟨c, hc⟩
  exact ⟨h 0, h 1, h 2, h 3⟩

/-- Settles O30: each layer of the round can be undone. -/
theorem aesRoundIsInjective : Obligations.AesRoundIsInjective := by
  unfold Obligations.AesRoundIsInjective
  exact fun k _ _ h => aesRound_injective k h

/-- Settles O32: each word of the schedule is the body of R118's loop on the words before it. -/
theorem keyScheduleRecurrence : Obligations.KeyScheduleRecurrence := by
  unfold Obligations.KeyScheduleRecurrence
  intro K i hi
  simp (disch := omega) only [keyExp10_word]
  refine ⟨fun h => ?_, fun h => ?_⟩
  · rw [keyWordAt_keyWords_of_lt K h]; rfl
  · rw [keyWordAt_keyWords_of_ge K h hi]
    refine ⟨fun h0 => ?_, fun h4 => ?_, nextKeyWord_of_mod_ne _⟩
    · rw [nextKeyWord_of_mod_eq_zero _ h0, subWord_rotWord, rconWord_eq (by omega) (by omega)]
    · rw [nextKeyWord_of_mod_eq_four _ h4, subWord_eq]

/-- Settles O50: with the descriptor valid under both settings no command reads HW_CAP any further. -/
theorem variantChangesNoValue : Obligations.VariantChangesNoValue := by
  unfold Obligations.VariantChangesNoValue
  exact fun _ _ _ _ => exec_hwCap

/-- Settles O24: ROUND commits ROUT and completes. -/
theorem roundResult : Obligations.RoundResult := by
  unfold Obligations.RoundResult
  exact fun _ => rfl

/-- Settles O25: KEYEXP commits RK from the slice of ST that K selects, and completes. -/
theorem keyexpResult : Obligations.KeyexpResult := by
  unfold Obligations.KeyexpResult
  intro s k
  refine ⟨_, rfl, ⟨rfl, rfl⟩, ?_, ?_, rfl, rfl, rfl, rfl⟩
  · rintro rfl
    rw [← keySlice_zero]
    rfl
  · rintro rfl
    rw [← keySlice_one]
    rfl

/-- Settles O31: the table holds the affine image of the field inverse, and 0 takes the place of 0's inverse. -/
theorem sboxIsAffineOfInverse : Obligations.SboxIsAffineOfInverse := by
  unfold Obligations.SboxIsAffineOfInverse
  refine ⟨?_, fun a ha => ⟨fieldInv a, gmul_fieldInv a ha, sbox_eq_sboxAffine_fieldInv a⟩⟩
  rw [sbox_eq_sboxAffine_fieldInv, fieldInv_zero]

end Sys2Proof.Machine
end

section
/-! PROOF. 41_expander.md: the expansion's closed form (R142) and what a completed EXPAND leaves. -/

namespace Sys2Proof.Machine

/-- Pseudo10's ten rounds written out (R119). -/
theorem pseudo10_eq_rounds (x : Block) (ks : KeySchedule) : pseudo10 x ks =
    aesRound (aesRound (aesRound (aesRound (aesRound (aesRound (aesRound (aesRound (aesRound (aesRound x
      ks[0]) ks[1]) ks[2]) ks[3]) ks[4]) ks[5]) ks[6]) ks[7]) ks[8]) ks[9] := by
  have hlist : ks.toList = List.ofFn fun r : Fin 10 => ks[r] := by
    conv_lhs => rw [← Vector.ofFn_getElem (xs := ks), Vector.toList_ofFn]
    rfl
  rw [pseudo10, ← Vector.foldl_toList, hlist]
  rfl

/-- Block j of chunk I after EXPAND (R142). -/
theorem expandedBlock_chunk (st : Bytes 200) (I : Nat) {j : Nat} (hj : j < 8) :
    expandedBlock st (8 * I + j) =
      pseudo10Pow (I + 1) (slice st (64 + 16 * j) 16) (keyExp10 (slice st 0 32)) := by
  have hdiv : (8 * I + j) / 8 = I := by omega
  have hmod : (8 * I + j) % 8 = j := by omega
  simp only [expandedBlock, hdiv, hmod, textOf, textBlock, Vector.getElem_ofFn]

/-- What a completed EXPAND leaves: a region that is a function of ST, RK, and all else as it was (R141, R142). -/
structure ExpandResult (s t : State) : Prop where
  completed    : t.Completed
  blocks       : ∀ n, n < Config.nBlocks → spBlock t.port.mem s.spBase n = expandedBlock s.st n
  dataRegs     : t.dataRegs = { s.dataRegs with rk := keyExp10 (slice s.st 0 32) }
  surroundings : t.surroundings = s.surroundings
  latch        : t.latch = s.latch
  selection    : t.selection = s.selection
  outside      : ∀ x, x < s.spBase ∨ s.spBase + Config.spSize ≤ x → t.port.mem.byte x = s.port.mem.byte x

theorem exec_expand_result {s : State} (hd : s.DescriptorOk) (hs : s.RegionServed) :
    ∃ t, exec .expand s = .next t ∧ ExpandResult s t := by
  obtain ⟨w, hw, hup⟩ := expandPhase_ok s.st s.spBase s.work hs
  have h := exec_expand_ok hd
  rw [hw, finish_ok] at h
  have he := exec_ended h
  exact ⟨_, h, ⟨rfl, rfl⟩, hup.written, by simp [State.dataRegs, hup.ks], he.surroundings, rfl, rfl, he.port.outside⟩

end Sys2Proof.Machine
end

section
/-! PROOF. 41_expander.md: how EXPAND, RUN and MIX end when an access is the first that is not served (R144, R159,
R216): nothing is committed, and the accesses before it have had their effect. -/

namespace Sys2Proof.Machine

/-- A command ended in a bus error: the fault latch says so, and nothing is committed (R216, R220). -/
def State.EndedInBusError (s t : State) : Prop :=
  t.latch = (true, .busErr, s.eng.cw.extractLsb' 0 8) ∧ t.ph = .idle ∧ t.done = false ∧
    t.dataRegs = s.dataRegs ∧ t.selection = s.selection ∧ t.surroundings = s.surroundings

/-- A command whose end is the fault entry of a bus error has ended in one, its opcode byte as accepted. -/
theorem endedInBusError_of_exec {i : Instr} {s : State} {w : Work}
    (h : exec i s = .next (faultEntry .busErr (s.withWork w))) :
    s.EndedInBusError (faultEntry .busErr (s.withWork w)) := by
  have he := exec_ended h
  rcases he.outcome with ⟨hdone, _⟩ | ⟨_, hdata, hsel, c, _, hlatch⟩
  · exact absurd hdone Bool.false_ne_true
  · obtain rfl : FaultCode.busErr = c := congrArg (fun l => l.2.1) hlatch
    exact ⟨hlatch, rfl, rfl, hdata, hsel, he.surroundings⟩

/-! ### EXPAND and RUN -/

/-- EXPAND and RUN end as their expansion does when that faults (R196). -/
theorem exec_of_expandPhase_fault {i : Instr} {s : State} {c : FaultCode} {w : Work} (hi : i ∈ [Instr.expand, .run])
    (hd : s.DescriptorOk) (h : expandPhase s.st s.spBase s.work = .stop (.fault c) w) :
    exec i s = .next (faultEntry c (s.withWork w)) := by
  rcases List.mem_pair.1 hi with rfl | rfl
  · rw [exec_expand_ok hd, h, finish_fault]
  · rw [exec_run_ok hd, runPhase, h, Run.andThen_stop, finish_fault]

theorem expandTrace_length (st : Bytes 200) (base n : Nat) : (expandTrace st base n).length = n := by
  rw [expandTrace_eq, List.length_reverse, List.length_map, List.length_range]

/-- A write that is not served changes its own sixteen bytes only (R216). -/
theorem Port.Spoiled.byte_outside {addr x : Nat} {p q : Port} (h : Port.Spoiled addr p q)
    (hx : x < addr ∨ addr + 16 ≤ x) : q.mem.byte x = p.mem.byte x := by
  obtain ⟨v, rfl⟩ := h
  exact Memory.byte_writeBlock_outside _ _ _ _ hx

theorem Port.Spoiled.trace_length {addr : Nat} {p q : Port} (h : Port.Spoiled addr p q) :
    q.trace.length = p.trace.length + 1 := by
  obtain ⟨v, rfl⟩ := h
  rfl

/-- What the expansion leaves whose write of block n was the first that was not served (R144). -/
structure ExpandStopped (st : Bytes 200) (base n : Nat) (p q : Port) : Prop where
  written   : ∀ m, m < n → spBlock q.mem base m = expandedBlock st m
  untouched : ∀ x, x < base ∨ base + 16 * n + 16 ≤ x → q.mem.byte x = p.mem.byte x
  accesses  : q.trace.length = p.trace.length + n + 1

theorem ExpandedUpTo.stopped {st : Bytes 200} {base n : Nat} {w0 w : Work} {q : Port}
    (h : ExpandedUpTo st base w0 n w) (hq : Port.Spoiled (base + 16 * n) w.port q) :
    ExpandStopped st base n w0.port q where
  written m hm :=
    (Memory.readBlock_congr _ _ _ fun _ _ _ => hq.byte_outside (by omega)).trans (h.written m hm)
  untouched x hx := (hq.byte_outside (by omega)).trans (h.untouched x (by omega))
  accesses := by rw [hq.trace_length, h.trace, List.length_append, expandTrace_length, Nat.add_comm n]

/-- EXPAND and RUN when the write of block n is the first access that is not served (R144). -/
theorem exec_expansion_busError {i : Instr} {s : State} {n : Nat} (hi : i ∈ [Instr.expand, .run])
    (hd : s.DescriptorOk) (hn : n < Config.nBlocks)
    (hs : ∀ m, m < n → replyAt s.port.map (s.spBase + 16 * m) = .served)
    (hb : replyAt s.port.map (s.spBase + 16 * n) = .busError) :
    ∃ t, exec i s = .next t ∧ s.EndedInBusError t ∧ ExpandStopped s.st s.spBase n s.port t.port := by
  obtain ⟨v, hv, w, hup, hspoil⟩ := expandPhase_fails (w0 := s.work) hn hs hb
  have h := exec_of_expandPhase_fault hi hd hv
  exact ⟨_, h, endedInBusError_of_exec h, hup.stopped hspoil⟩

/-! ### MIX -/

/-- The mixer at the start of MIX, on the blocks the region holds (R159). -/
def State.mixView (s : State) : MixView := mixViewStart s.st (spBlock s.port.mem s.spBase)

/-- What a mixing leaves in its region that has stopped with `blocks` there, `k` accesses made. -/
structure MixStopped (base : Nat) (blocks : Nat → Block) (k : Nat) (p q : Port) : Prop where
  blocks   : ∀ n, n < Config.nBlocks → spBlock q.mem base n = blocks n
  outside  : ∀ x, x < base ∨ base + Config.spSize ≤ x → q.mem.byte x = p.mem.byte x
  accesses : q.trace.length = p.trace.length + k

section
variable {s : State} {K : Nat} (hd : s.DescriptorOk) (hh : s.HandedOver) (hK : K < Config.mixIter)
  (hs : ∀ k, k < K → (MixView.steps k s.mixView).Served s.spBase s.port.map)
include hd hh hK hs

/-- MIX when its iteration K is the first that stops: the region and the record are as that iteration leaves them. -/
theorem exec_mix_busError {blocks : Nat → Block} {k : Nat}
    (hstop : ∀ w, MixedUpTo s.spBase s.mixView s.work K w →
      ∃ v, mixStep s.spBase w = .stop (.fault .busErr) v ∧
        (∀ n, n < Config.nBlocks → spBlock v.port.mem s.spBase n = blocks n) ∧
        v.port.trace.length = s.port.trace.length + k) :
    ∃ t, exec .mix s = .next t ∧ s.EndedInBusError t ∧ MixStopped s.spBase blocks k s.port t.port := by
  obtain ⟨v, hv, hblocks, haccesses⟩ :=
    mixPhase_fails (w0 := s.work) (st := s.st) hK (fun _ _ => rfl) hh hs hstop
  have h := exec_mix_ok hd
  rw [hv, finish_fault] at h
  exact ⟨_, h, endedInBusError_of_exec h, hblocks, (exec_ended h).port.outside, haccesses⟩

/-- MIX when iteration K's first read is the first access that is not served (R159). -/
theorem exec_mix_first_read_busError
    (hb : replyAt s.port.map (s.spBase + spIndex (MixView.steps K s.mixView).a) = .busError) :
    ∃ t, exec .mix s = .next t ∧ s.EndedInBusError t ∧
      MixStopped s.spBase (MixView.steps K s.mixView).sp (4 * K + 1) s.port t.port := by
  refine exec_mix_busError hd hh hK hs fun w hw => ?_
  refine ⟨_, mixStep_first_fails hw.shows (by rw [hw.map_eq]; exact hb), hw.shows.sp, ?_⟩
  rw [Work.note_trace, Work.drawn_trace, List.length_cons, hw.trace, State.work_port]
  omega

/-- MIX when iteration K's second read is the first access that is not served (R159). -/
theorem exec_mix_second_read_busError
    (h1 : replyAt s.port.map (s.spBase + spIndex (MixView.steps K s.mixView).a) = .served)
    (hb : replyAt s.port.map (s.spBase + spIndex (MixView.steps K s.mixView).c1) = .busError) :
    ∃ t, exec .mix s = .next t ∧ s.EndedInBusError t ∧
      MixStopped s.spBase (MixView.steps K s.mixView).mid (4 * K + 3) s.port t.port := by
  refine exec_mix_busError hd hh hK hs fun w hw => ?_
  obtain ⟨-, -, hmid, -⟩ := mixFirstWork_shows hw.shows
  refine ⟨_, mixStep_second_fails hw.shows (by rw [hw.map_eq]; exact h1) (by rw [hw.map_eq]; exact hb), hmid, ?_⟩
  rw [Work.note_trace, Work.drawn_trace, List.length_cons]
  simp only [mixFirstWork, Work.note_trace, Work.put_trace, Work.setC1_port, Work.drawn_trace, List.length_cons,
    hw.trace, State.work_port]
  omega

end

end Sys2Proof.Machine
end

section
/-! PROOF. The obligations of 41_expander.md. -/

namespace Sys2Proof.Machine

/-- Settles O33: block j of chunk I is block 8I + j of the region. -/
theorem expandClosedForm : Obligations.ExpandClosedForm := by
  unfold Obligations.ExpandClosedForm
  refine ⟨fun s hd hs => ?_, pseudo10_eq_rounds⟩
  obtain ⟨t, ht, r⟩ := exec_expand_result hd hs
  refine ⟨t, ht, r.completed, fun I j hI hj _ => ?_, r.dataRegs, r.surroundings, r.latch, r.selection, r.outside⟩
  rw [show s.spBase + 128 * I + 16 * j = s.spBase + 16 * (8 * I + j) by omega, ← expandedBlock_chunk s.st I hj]
  exact r.blocks _ (show 8 * I + j < 131072 by omega)

/-- Settles O35: both runs complete with the result R142 gives, in which no byte of the old memory occurs. -/
theorem expandIgnoresThePrefill : Obligations.ExpandIgnoresThePrefill := by
  unfold Obligations.ExpandIgnoresThePrefill
  intro s m hd hs
  obtain ⟨t, ht, r⟩ := exec_expand_result hd hs
  obtain ⟨t', ht', r'⟩ := exec_expand_result (s := { s with port := { s.port with mem := m } }) hd hs
  exact ⟨t, t', ht, ht',
    fun x h1 h2 => byte_eq_of_spBlocks (fun n hn => (r'.blocks n hn).trans (r.blocks n hn).symm) h1 h2,
    r.completed, r'.completed, r'.dataRegs.trans r.dataRegs.symm, r'.surroundings.trans r.surroundings.symm,
    r'.latch.trans r.latch.symm, r'.selection.trans r.selection.symm⟩

/-- Settles O36: the phase runs up to the access that is not served and stops there. -/
theorem expandBusErrorKeepsEarlierWrites : Obligations.ExpandBusErrorKeepsEarlierWrites := by
  unfold Obligations.ExpandBusErrorKeepsEarlierWrites
  intro ended
  constructor
  · intro i s n hi hd hn hs hb
    obtain ⟨t, ht, he, r⟩ := exec_expansion_busError hi hd hn hs hb
    exact ⟨t, ht, he, r.written, r.untouched, r.accesses⟩
  · intro s K hd hh hK v hs
    constructor
    · intro hb
      obtain ⟨t, ht, he, r⟩ := exec_mix_first_read_busError hd hh hK hs hb
      exact ⟨t, ht, he, r.blocks, r.outside, r.accesses⟩
    · intro h1 hb
      obtain ⟨t, ht, he, r⟩ := exec_mix_second_read_busError hd hh hK hs h1 hb
      exact ⟨t, ht, he, r.blocks, r.outside, r.accesses⟩

end Sys2Proof.Machine
end

section
/-! PROOF. 42_mixer.md: the descriptor check.  Which fault it reports, in R150's order, and how the five commands that
make it end once it has passed. -/

namespace Sys2Proof.Machine

/-- CAP.ACCEL in its two parts (R23). -/
theorem accel_eq_true_iff (s : State) : s.accel = true ↔ s.accelBuild = true ∧ s.hwCap = true :=
  Bool.and_eq_true_iff

/-- SP_BASE_HI has no part in the alignment (R34). -/
theorem spBase_mod_sixteen (s : State) : s.spBase % 16 = s.spBaseLo.toNat % 16 := by
  unfold State.spBase
  omega

/-- The alignment that R152 requires of SP_BASE, by the registers. -/
theorem spBase_aligned_iff (s : State) : (s.accel = true → s.spBase % 16 = 0) ↔
    (s.accelBuild = true → s.hwCap = true → s.spBaseLo.toNat % 16 = 0) := by
  rw [accel_eq_true_iff, spBase_mod_sixteen, and_imp]

theorem checkDescriptor_spSize {s : State} (h : s.spLen ≠ 0x00200000#32) : checkDescriptor s = some .spSize :=
  if_pos (mt (spLen_eq_iff _).1 h)

theorem checkDescriptor_spAlign {s : State} (h : s.spLen = 0x00200000#32) (ha : s.accel = true)
    (hb : s.spBase % 16 ≠ 0) : checkDescriptor s = some .spAlign := by
  unfold checkDescriptor
  rw [if_neg (not_not.2 ((spLen_eq_iff _).2 h)), if_pos ⟨ha, hb⟩]

theorem checkDescriptor_spRange {s : State} (h : s.spLen = 0x00200000#32) (ha : s.accel = true → s.spBase % 16 = 0)
    (hr : 2 ^ 64 < s.spBase + Config.spSize) : checkDescriptor s = some .spRange := by
  unfold checkDescriptor
  rw [if_neg (not_not.2 ((spLen_eq_iff _).2 h)), if_neg fun hn => hn.2 (ha hn.1), if_pos hr]

/-- The five commands that make the descriptor check. -/
theorem checks_of_mem {i : Instr} (h : i ∈ [Instr.check, .expand, .mix, .absorb, .run]) :
    i = .check ∨ i.usesScratchpad = true := by
  cases i with
  | check => exact .inl rfl
  | expand | mix | absorb | run => exact .inr rfl
  | nop | round | keyexp _ | permute | select => simp at h

theorem exec_check_ok {s : State} (h : s.DescriptorOk) : exec .check s = .next (complete s) := by
  simp only [exec, execCheck, (checkDescriptor_eq_none s).2 h]

/-- A command whose pseudocode stops at bus errors only completes or ends in BUS_ERR. -/
theorem finish_completed_or_busErr {s t : State} {commit : Engine → State → State} {r : Run Unit} (hr : r.BusOnly)
    (h : finish s commit r = .next t) : t.Completed ∨ t.code = .busErr := by
  rcases finish_next h with ⟨w, -, rfl⟩ | ⟨c, w, hstop, rfl⟩
  · exact .inl ⟨rfl, rfl⟩
  · exact .inr (hr c w hstop)

/-- On a valid descriptor BUS_ERR is the only fault of these five commands (R150). -/
theorem exec_completed_or_busErr {i : Instr} {s t : State} (hi : i = .check ∨ i.usesScratchpad = true)
    (hd : s.DescriptorOk) (h : exec i s = .next t) : t.Completed ∨ t.code = .busErr := by
  cases i with
  | check =>
    rw [exec_check_ok hd] at h
    cases h
    exact .inl ⟨rfl, rfl⟩
  | expand => rw [exec_expand_ok hd] at h; exact finish_completed_or_busErr (expandPhase_busOnly _ _ _) h
  | mix => rw [exec_mix_ok hd] at h; exact finish_completed_or_busErr (mixPhase_busOnly _ _ _) h
  | absorb => rw [exec_absorb_ok hd] at h; exact finish_completed_or_busErr (absorbPhase_busOnly _ _ _) h
  | run => rw [exec_run_ok hd] at h; exact finish_completed_or_busErr (runPhase_busOnly _ _ _ _) h
  | nop | round | keyexp _ | permute | select => simp [Instr.usesScratchpad] at hi

end Sys2Proof.Machine
end

section
/-! PROOF. 42_mixer.md: the integers of the mixer.  The little-endian word SpIndex reads (R155), and the two lanes of
the sum (R157, R158). -/

namespace Sys2Proof.Machine

/-- The little-endian word at the start of a block (R12). -/
theorem le32_zero (v : Block) : le32 v 0 =
    v[0].toNat + 256 * v[1].toNat + 65536 * v[2].toNat + 16777216 * v[3].toNat := by
  have hlist : v.toList = List.ofFn fun k : Fin 16 => v[k] := by
    conv_lhs => rw [← Vector.ofFn_getElem (xs := v), Vector.toList_ofFn]
    rfl
  have htake : (v.toList.drop 0).take 4 = [v[0], v[1], v[2], v[3]] := by rw [hlist]; rfl
  rw [le32, htake]
  simp only [leNat]
  omega

/-- The first n base-256 digits of a number, read back as a number. -/
theorem leNat_digits (n : Nat) : ∀ x : Nat,
    leNat (List.ofFn fun k : Fin n => BitVec.ofNat 8 (x / 256 ^ k.val)) = x % 256 ^ n := by
  induction n with
  | zero => intro x; rw [List.ofFn_zero, pow_zero, Nat.mod_one, leNat]
  | succ n ih =>
    intro x
    have hrest : (List.ofFn fun k : Fin n => BitVec.ofNat 8 (x / 256 ^ k.succ.val)) =
        List.ofFn fun k : Fin n => BitVec.ofNat 8 (x / 256 / 256 ^ k.val) := by
      simp only [Fin.val_succ, pow_succ', Nat.div_div_eq_div_mul]
    rw [List.ofFn_succ, leNat, hrest, ih, pow_succ', Nat.mod_mul, BitVec.toNat_ofNat]
    simp

theorem leNat_toLe64 (x : Nat) : leNat (toLe64 x).toList = x % 2 ^ 64 := by
  rw [toLe64, Vector.toList_ofFn, leNat_digits]
  norm_num

/-- The low half of a block put together from two 64-bit integers. -/
theorem le64_low (x y : Nat) : le64 (toLe64 x ++ toLe64 y) 0 = x % 2 ^ 64 := by
  rw [le64, Vector.toList_append, List.drop_zero, List.take_left' Vector.length_toList, leNat_toLe64]

/-- The high half of a block put together from two 64-bit integers. -/
theorem le64_high (x y : Nat) : le64 (toLe64 x ++ toLe64 y) 8 = y % 2 ^ 64 := by
  rw [le64, Vector.toList_append, List.drop_left' Vector.length_toList,
    List.take_of_length_le Vector.length_toList.le, leNat_toLe64]

end Sys2Proof.Machine
end

section
/-! PROOF. 42_mixer.md: one iteration of the mixer (R158) in terms of the work it starts from.  What it has done on the
port is the replay of its four accesses, so that the memory is known byte by byte. -/

namespace Sys2Proof.Machine

/-- The mixer's view of a work: the registers A and B, and the blocks of the region at `base`. -/
def Work.mixView (base : Nat) (w : Work) : MixView where
  a  := w.eng.a
  b  := w.eng.b
  sp := spBlock w.port.mem base

theorem Work.mixView_shows {base : Nat} {w : Work}
    (hu : ∀ x, base ≤ x → x < base + Config.spSize → w.port.unsure x = false) : Shows base (w.mixView base) w :=
  ⟨rfl, rfl, fun _ _ => rfl, hu⟩

theorem spBlock_spIndex (m : Memory) (base : Nat) (c : Block) :
    spBlock m base (spIndex c / 16) = m.readBlock (base + spIndex c) := by
  rw [spBlock, spIndex_div_mul]

theorem spIndex_div_inj {c d : Block} : spIndex c / 16 = spIndex d / 16 ↔ spIndex c = spIndex d := by
  refine ⟨fun h => ?_, fun h => by rw [h]⟩
  rw [← spIndex_div_mul c, h, spIndex_div_mul]

/-- Blocks that SpIndex selects are the same or apart. -/
theorem spIndex_apart {c d : Block} (h : spIndex c ≠ spIndex d) :
    spIndex c + 16 ≤ spIndex d ∨ spIndex d + 16 ≤ spIndex c := by
  obtain ⟨n, -, hn⟩ := spIndex_block c
  obtain ⟨m, -, hm⟩ := spIndex_block d
  omega

theorem Work.mixView_c1 (base : Nat) (w : Work) : (w.mixView base).c1 =
    aesRound (w.port.mem.readBlock (base + spIndex w.eng.a)) w.eng.a := by
  rw [← spBlock_spIndex]
  rfl

/-- Y sees the first write when both indices are one (R74). -/
theorem Work.mixView_y (base : Nat) (w : Work) : (w.mixView base).y =
    if spIndex (w.mixView base).c1 = spIndex w.eng.a then bxor (w.mixView base).c1 w.eng.b
    else w.port.mem.readBlock (base + spIndex (w.mixView base).c1) := by
  simp only [← spBlock_spIndex, ← spIndex_div_inj]
  rfl

theorem Work.mixView_sum (base : Nat) (w : Work) : (w.mixView base).sum =
    mulAdd w.eng.a (w.mixView base).c1 (w.mixView base).y := rfl

/-- The record says which events a port has replayed. -/
theorem Port.Replays.eq_replay {p q : Port} {es : List PortEvent} (h : Port.Replays p q)
    (ht : q.trace = es.reverse ++ p.trace) : q = p.replay es := by
  obtain ⟨fs, rfl⟩ := h
  rw [Port.replay_trace, List.append_left_inj, List.reverse_inj] at ht
  rw [ht]

theorem mixStep_replays (base : Nat) (w : Work) : Port.Replays w.port (mixStep base w).work.port :=
  andThen_replays _ _ w (mixFirst_replays base w) fun _ => mixSecond_replays base

/-- The memory after a read and a write of one block, and then of another. -/
theorem Port.replay_two_updates_mem (a c : Nat) (x y : Block) (p : Port) :
    (p.replay [.read a, .write a x, .read c, .write c y]).mem = (p.mem.writeBlock a x).writeBlock c y := rfl

/-- What an iteration leaves on the port and in A and B, by the view it starts from (R158). -/
structure MixStepped (base : Nat) (v : MixView) (w w' : Work) : Prop where
  a     : w'.eng.a = bxor v.sum v.y
  b     : w'.eng.b = v.c1
  mem   : w'.port.mem =
    (w.port.mem.writeBlock (base + spIndex v.a) (bxor v.c1 v.b)).writeBlock (base + spIndex v.c1) v.sum
  trace : w'.port.trace = (v.accesses base).reverse ++ w.port.trace

theorem mixStep_stepped {base : Nat} {v : MixView} {w : Work} (h : Shows base v w) (hs : v.Served base w.port.map) :
    ∃ w', mixStep base w = .ok () w' ∧ MixStepped base v w w' := by
  obtain ⟨w', hok, hshows, -, ht⟩ := mixStep_ok h hs
  have hr := mixStep_replays base w
  rw [hok, Run.work_ok] at hr
  refine ⟨w', hok, hshows.a, hshows.b, ?_, ht⟩
  rw [hr.eq_replay ht]
  exact Port.replay_two_updates_mem _ _ _ _ _

/-- The block at the second index is the sum. -/
theorem MixStepped.second {base : Nat} {v : MixView} {w w' : Work} (h : MixStepped base v w w') :
    w'.port.mem.readBlock (base + spIndex v.c1) = v.sum := by
  rw [h.mem, Memory.readBlock_writeBlock_same]

/-- The block at the first index is C1 ⊕ B, unless the second write has gone there too. -/
theorem MixStepped.first {base : Nat} {v : MixView} {w w' : Work} (h : MixStepped base v w w')
    (hne : spIndex v.a ≠ spIndex v.c1) : w'.port.mem.readBlock (base + spIndex v.a) = bxor v.c1 v.b := by
  have hapart := spIndex_apart hne
  rw [h.mem, Memory.readBlock_writeBlock_other _ _ _ _ (by omega), Memory.readBlock_writeBlock_same]

theorem MixStepped.outside {base z : Nat} {v : MixView} {w w' : Work} (h : MixStepped base v w w')
    (h1 : z < base + spIndex v.a ∨ base + spIndex v.a + 16 ≤ z)
    (h2 : z < base + spIndex v.c1 ∨ base + spIndex v.c1 + 16 ≤ z) : w'.port.mem.byte z = w.port.mem.byte z := by
  rw [h.mem, Memory.byte_writeBlock_outside _ _ _ _ h2, Memory.byte_writeBlock_outside _ _ _ _ h1]

end Sys2Proof.Machine
end

section
/-! PROOF. The obligations of 42_mixer.md. -/

namespace Sys2Proof.Machine

/-- Settles O40: the loop carries the pure mixer's view through its iterations, and MIX commits nothing else. -/
theorem mixRefinesTheMixingStep : Obligations.MixRefinesTheMixingStep := by
  unfold Obligations.MixRefinesTheMixingStep
  intro s hd hh hs
  obtain ⟨w, hw, hblocks, -, htrace⟩ :=
    mixPhase_ok s.st s.spBase s.work (spBlock s.port.mem s.spBase) (fun _ _ => rfl) hh hs
  have h := exec_mix_ok hd
  rw [hw, finish_ok] at h
  have he := exec_ended h
  refine ⟨_, h, ⟨rfl, rfl⟩, fun n hn => ?_, rfl, he.surroundings, rfl, rfl, he.port.outside, ?_⟩
  · have hb := hblocks n hn
    rw [mixedBlock_eq] at hb
    exact hb
  · exact htrace.trans (Nat.add_comm _ _)

/-- Settles O39: the iteration writes what the view it starts from says, and nothing else. -/
theorem mixStepEffect : Obligations.MixStepEffect := by
  unfold Obligations.MixStepEffect
  intro base w hs hu j1 x c1 j2 y S
  have hc1 : (w.mixView base).c1 = c1 := w.mixView_c1 base
  have hj2 : spIndex (w.mixView base).c1 = j2 := congrArg spIndex hc1
  have hy : (w.mixView base).y = y := by rw [Work.mixView_y, hc1]
  have hS : (w.mixView base).sum = S := by rw [Work.mixView_sum, hc1, hy]
  obtain ⟨w', hok, h⟩ := mixStep_stepped (Work.mixView_shows hu) (MixView.served_of_all hs _)
  rw [← hS, ← hy, ← hj2, ← hc1]
  exact ⟨w', hok, h.a, h.b, h.second, h.first, fun _ => h.outside, h.trace⟩

/-- Settles O18: the check's result in each case, and its place before everything else. -/
theorem descriptorCheckComesFirst : Obligations.DescriptorCheckComesFirst := by
  unfold Obligations.DescriptorCheckComesFirst
  intro i s hi fault
  have hchecks := checks_of_mem hi
  refine ⟨fun hlen => ?_, fun hlen hbuild hcap hlo => ?_, fun hlen hlo hrange => ?_, fun hlen hlo hfit t => ?_⟩
  · exact exec_descriptor_fault hchecks (checkDescriptor_spSize hlen)
  · exact exec_descriptor_fault hchecks
      (checkDescriptor_spAlign hlen ((accel_eq_true_iff s).2 ⟨hbuild, hcap⟩) (spBase_mod_sixteen s ▸ hlo))
  · exact exec_descriptor_fault hchecks (checkDescriptor_spRange hlen ((spBase_aligned_iff s).2 hlo) hrange)
  · exact exec_completed_or_busErr hchecks ⟨hlen, (spBase_aligned_iff s).2 hlo, hfit⟩

/-- Settles O23: CHECK is the descriptor check alone. -/
theorem checkCompletesOnValidDescriptor : Obligations.CheckCompletesOnValidDescriptor := by
  unfold Obligations.CheckCompletesOnValidDescriptor
  intro s
  refine ⟨exec_check_ok, fun hd => ?_⟩
  obtain ⟨c, hc⟩ := Option.ne_none_iff_exists'.1 (mt (checkDescriptor_eq_none s).1 hd)
  exact ⟨_, exec_descriptor_fault (.inl rfl) hc, rfl, rfl⟩

/-- Settles O37: the mask keeps bits 20:4 of the index word. -/
theorem spIndexSelectsABlock : Obligations.SpIndexSelectsABlock := by
  unfold Obligations.SpIndexSelectsABlock
  intro v
  have h := spIndex_eq v
  rw [← le32_zero]
  exact ⟨h, by omega, by omega⟩

/-- Settles O38: each lane of the sum is one 64-bit integer, written and read back. -/
theorem mixSumLanes : Obligations.MixSumLanes := by
  unfold Obligations.MixSumLanes
  intro a c1 y
  constructor
  · exact (le64_low _ _).trans (Nat.mod_mod _ _)
  · exact (le64_high _ _).trans (Nat.mod_mod _ _)

end Sys2Proof.Machine
end

section
/-! PROOF. 43_finalizer.md: Keccak-f[1600] (R187), lane by lane.  What each of the round's maps does to one lane, and
the lanes after each of the 24 rounds. -/

namespace Sys2Proof.Machine

/-! ### The maps of a round on one lane -/

theorem lane_ofFn (f : Fin 25 → BitVec 64) {x y : Nat} (hx : x < 5) (hy : y < 5) :
    lane (Vector.ofFn f) x y = f ⟨x + 5 * y, by omega⟩ := by
  simp only [lane, Vector.getElem_ofFn, Nat.mod_eq_of_lt hx, Nat.mod_eq_of_lt hy]

@[simp] theorem lane_mod_left (A : Lanes) (x y : Nat) : lane A (x % 5) y = lane A x y := by
  simp only [lane, Nat.mod_mod]

@[simp] theorem thetaC_mod (A : Lanes) (x : Nat) : thetaC A (x % 5) = thetaC A x := by
  simp only [thetaC, lane_mod_left]

theorem lane_theta (A : Lanes) {x y : Nat} (hx : x < 5) (hy : y < 5) : lane (theta A) x y =
    lane A x y ^^^ (thetaC A ((x + 4) % 5) ^^^ (thetaC A ((x + 1) % 5)).rotateLeft 1) := by
  rw [theta, lane_ofFn _ hx hy]
  simp only [show (x + 5 * y) % 5 = x by omega, thetaC_mod]
  simp only [lane, Nat.mod_eq_of_lt hx, Nat.mod_eq_of_lt hy]

/-- Rho and pi, read from the source lane as R187 writes them: y + 3(2x + 3y) = x, mod 5. -/
theorem lane_rhoPi (A : Lanes) {x y : Nat} (hx : x < 5) (hy : y < 5) : lane (rhoPi A) y ((2 * x + 3 * y) % 5) =
    (lane A x y).rotateLeft ((keccakRot.getD x []).getD y 0) := by
  have hY : (2 * x + 3 * y) % 5 < 5 := Nat.mod_lt _ (by decide)
  have hx' : (y + 3 * ((2 * x + 3 * y) % 5)) % 5 = x := by omega
  rw [rhoPi, lane_ofFn _ hy hY]
  simp only [show ∀ Y, (y + 5 * Y) % 5 = y by omega, show ∀ Y, (y + 5 * Y) / 5 = Y by omega, hx']

theorem lane_chi (B : Lanes) {x y : Nat} (hx : x < 5) (hy : y < 5) : lane (chi B) x y =
    lane B x y ^^^ (~~~ lane B ((x + 1) % 5) y &&& lane B ((x + 2) % 5) y) := by
  rw [chi, lane_ofFn _ hx hy]
  simp only [show (x + 5 * y) % 5 = x by omega, show (x + 5 * y) / 5 = y by omega, lane_mod_left]

theorem lane_iota (A : Lanes) (rc : BitVec 64) {x y : Nat} (hx : x < 5) (hy : y < 5) :
    lane (iota A rc) x y = lane A x y ^^^ (if x = 0 ∧ y = 0 then rc else 0) := by
  simp only [iota, lane, Nat.mod_eq_of_lt hx, Nat.mod_eq_of_lt hy]
  by_cases h : x = 0 ∧ y = 0
  · obtain ⟨rfl, rfl⟩ := h
    simp
  · rw [if_neg h, Vector.getElem_set_ne _ _ (by omega)]
    simp

/-! ### The bytes of the lanes -/

/-- Byte k of a 64-bit little-endian integer (R12). -/
theorem le64_byte {n : Nat} (v : Bytes n) (o k : Nat) (hk : k < 8) (h : o + k < n) :
    (BitVec.ofNat 64 (le64 v o)).extractLsb' (8 * k) 8 = v[o + k] := by
  apply BitVec.eq_of_toNat_eq
  have hlt : le64 v o < 2 ^ 64 :=
    (leNat_lt _).trans_le (Nat.pow_le_pow_right (by decide) (List.length_take_le 8 _) : _ ≤ 256 ^ 8)
  have hpow : 2 ^ (8 * k) = 256 ^ k := by rw [pow_mul]; rfl
  have hdigit : le64 v o / 256 ^ k % 2 ^ 8 = _ := leNat_digit _ k
  rw [BitVec.extractLsb'_toNat, BitVec.toNat_ofNat, Nat.shiftRight_eq_div_pow, Nat.mod_eq_of_lt hlt, hpow, hdigit,
    List.getD_eq_getElem _ _ (by simp; omega)]
  simp

theorem lane_lanesOf_byte (S : Bytes 200) {x y k : Nat} (hx : x < 5) (hy : y < 5) (hk : k < 8) :
    (lane (lanesOf S) x y).extractLsb' (8 * k) 8 = S[8 * (x + 5 * y) + k] := by
  rw [lanesOf, lane_ofFn _ hx hy, le64_byte _ _ _ hk]

theorem bytesOf_getElem (A : Lanes) {x y k : Nat} (hx : x < 5) (hy : y < 5) (hk : k < 8) :
    (bytesOf A)[8 * (x + 5 * y) + k] = (lane A x y).extractLsb' (8 * k) 8 := by
  simp only [bytesOf, Vector.getElem_ofFn, lane, Nat.mod_eq_of_lt hx, Nat.mod_eq_of_lt hy,
    show (8 * (x + 5 * y) + k) / 8 = x + 5 * y by omega, show (8 * (x + 5 * y) + k) % 8 = k by omega]

/-! ### The rounds -/

/-- The lanes before round r (R187). -/
def keccakLanes (S : Bytes 200) (r : Nat) : Lanes := (keccakRC.flatten.take r).foldl keccakRound (lanesOf S)

theorem keccakLanes_zero (S : Bytes 200) : keccakLanes S 0 = lanesOf S := rfl

/-- R187 prints RC in rows of four. -/
theorem keccakRC_flatten_getElem? : ∀ r, r < 24 →
    keccakRC.flatten[r]? = some ((keccakRC.getD (r / 4) []).getD (r % 4) 0) := by decide

theorem keccakLanes_succ (S : Bytes 200) {r : Nat} (hr : r < 24) : keccakLanes S (r + 1) =
    keccakRound (keccakLanes S r) ((keccakRC.getD (r / 4) []).getD (r % 4) 0) := by
  rw [keccakLanes, List.take_add_one, keccakRC_flatten_getElem? r hr, List.foldl_append]
  rfl

theorem keccakF1600_eq (S : Bytes 200) : keccakF1600 S = bytesOf (keccakLanes S 24) := by
  rw [keccakF1600, keccakLanes, List.take_of_length_le (by decide)]

/-- Theta, rho and pi of one round, lane by lane. -/
theorem lane_rhoPi_theta (A : Lanes) {x y : Nat} (hx : x < 5) (hy : y < 5) :
    lane (rhoPi (theta A)) y ((2 * x + 3 * y) % 5) =
      (lane A x y ^^^ (thetaC A ((x + 4) % 5) ^^^ (thetaC A ((x + 1) % 5)).rotateLeft 1)).rotateLeft
        ((keccakRot.getD x []).getD y 0) := by
  rw [lane_rhoPi _ hx hy, lane_theta _ hx hy]

/-- Chi and iota of one round, lane by lane. -/
theorem lane_keccakRound (A : Lanes) (rc : BitVec 64) {x y : Nat} (hx : x < 5) (hy : y < 5) :
    lane (keccakRound A rc) x y = lane (rhoPi (theta A)) x y ^^^
      (~~~ lane (rhoPi (theta A)) ((x + 1) % 5) y &&& lane (rhoPi (theta A)) ((x + 2) % 5) y) ^^^
      (if x = 0 ∧ y = 0 then rc else 0) := by
  rw [keccakRound, lane_iota _ _ hx hy, lane_chi _ hx hy]

end Sys2Proof.Machine
end

section
/-! PROOF. 43_finalizer.md: what each of the finalizer's commands leaves when it completes, and how ABSORB ends at a
read that is not served (R184, R188, R192, R216). -/

namespace Sys2Proof.Machine

/-! ### The selector -/

theorem selector_toNat (f : Bytes 200) : (selector f).toNat = f[0].toNat % 4 := by
  have hmod : f[0].toNat % 4 < 4 := Nat.mod_lt _ (by decide)
  have hand : (f[0] &&& 3).toNat = f[0].toNat % 4 := Nat.and_two_pow_sub_one_eq_mod _ 2
  rw [selector, BitVec.toNat_setWidth, hand]
  exact Nat.mod_eq_of_lt hmod

/-- The hash R190 gives a selector value. -/
theorem hashOf_eq {sel : BitVec 2} {alg : HashAlg} (h0 : sel.toNat = 0 → alg = .blake256)
    (h1 : sel.toNat = 1 → alg = .groestl256) (h2 : sel.toNat = 2 → alg = .jh256)
    (h3 : sel.toNat = 3 → alg = .skein512_256) : hashOf sel = alg := by
  have hlt : sel.toNat < 4 := sel.isLt
  obtain h | h | h | h : sel.toNat = 0 ∨ sel.toNat = 1 ∨ sel.toNat = 2 ∨ sel.toNat = 3 := by omega
  · simp only [h0 h, hashOf, h]
  · simp only [h1 h, hashOf, h]
  · simp only [h2 h, hashOf, h]
  · simp only [h3 h, hashOf, h]

/-! ### PERMUTE and SELECT -/

/-- PERMUTE commits FST and makes one call of its port (R186, R188). -/
theorem exec_permute_result (s : State) : ∃ t, exec .permute s = .next t ∧ t.Completed ∧
    t.dataRegs = { s.dataRegs with fst := permPort s.permUnit s.fst } ∧
    t.port = { s.port with trace := .permute :: s.port.trace } ∧
    t.surroundings = s.surroundings ∧ t.latch = s.latch ∧ t.selection = s.selection :=
  ⟨_, rfl, ⟨rfl, rfl⟩, rfl, rfl, rfl, rfl, rfl⟩

/-- SELECT commits DIGEST, SEL and SELV and makes one call of the selected port (R186, R192). -/
theorem exec_select_result (s : State) : ∃ t, exec .select s = .next t ∧ t.Completed ∧
    t.selection = (selector s.fst, true) ∧
    t.dataRegs = { s.dataRegs with digest := Config.hashPort (hashOf (selector s.fst)) s.fst } ∧
    t.port = { s.port with trace := .hash (hashOf (selector s.fst)) :: s.port.trace } ∧
    t.surroundings = s.surroundings ∧ t.latch = s.latch :=
  ⟨_, rfl, ⟨rfl, rfl⟩, rfl, rfl, rfl, rfl, rfl⟩

/-! ### ABSORB -/

/-- FW byte by byte: bytes 64 to 191 are the text, the others are ST's (R184). -/
theorem absorbedState_getElem (st : Bytes 200) (t : Text) {i : Nat} (hi : i < 200) : (absorbedState st t)[i] =
    if h : 64 ≤ i ∧ i < 192 then (textBytes t)[i - 64] else st[i] := by
  have happ : (absorbedState st t)[i] = (slice st 0 64 ++ textBytes t ++ slice st 192 8)[i] := rfl
  rw [happ]
  by_cases hlow : i < 64
  · rw [Vector.getElem_append_left (by omega), Vector.getElem_append_left hlow, dif_neg (by omega)]
    simp
  · by_cases htext : i < 192
    · rw [Vector.getElem_append_left (by omega), Vector.getElem_append_right (by omega) (by omega),
        dif_pos ⟨by omega, htext⟩]
    · rw [Vector.getElem_append_right (by omega) (by omega), dif_neg (by omega)]
      simp [show 192 + (i - 192) = i by omega]

theorem absorbedState_text (st : Bytes 200) (t : Text) {j k : Nat} (hj : j < 8) (hk : k < 16) :
    (absorbedState st t)[64 + 16 * j + k] = t[j][k] := by
  have hoff : 64 + 16 * j + k - 64 = 16 * j + k := by omega
  have hdiv : (16 * j + k) / 16 = j := by omega
  have hmod : (16 * j + k) % 16 = k := by omega
  rw [absorbedState_getElem _ _ (by omega), dif_pos (by omega)]
  simp only [textBytes, Vector.getElem_ofFn, hoff, hdiv, hmod]

/-- Lane j of the absorbed text (R181). -/
theorem absorbedText_getElem (st : Bytes 200) (sp : Nat → Block) {j : Nat} (hj : j < 8) :
    (absorbedText st sp)[j] =
      absorbLane (keyExp10 (slice st 32 32)) sp j (slice st (64 + 16 * j) 16) Config.nChunks := by
  simp only [absorbedText, Vector.getElem_ofFn, Fin.getElem_fin, textOf, textBlock]

/-- What a completed ABSORB leaves of a region that holds the blocks `sp` (R184). -/
structure AbsorbResult (sp : Nat → Block) (s t : State) : Prop where
  completed    : t.Completed
  dataRegs     : t.dataRegs = { s.dataRegs with fst := absorbed s.st sp, rk := keyExp10 (slice s.st 32 32) }
  surroundings : t.surroundings = s.surroundings
  latch        : t.latch = s.latch
  selection    : t.selection = s.selection
  mem          : t.port.mem = s.port.mem

theorem exec_absorb_result {s : State} {sp : Nat → Block} (hd : s.DescriptorOk) (hh : s.HandedOver)
    (hs : s.RegionServed) (hsp : ∀ n, n < Config.nBlocks → spBlock s.port.mem s.spBase n = sp n) :
    ∃ t, exec .absorb s = .next t ∧ AbsorbResult sp s t := by
  obtain ⟨w, hw, hfw, hks, -, hmem, -⟩ := absorbPhase_ok s.st s.spBase s.work sp hsp hh hs
  have h := exec_absorb_ok hd
  rw [hw, finish_ok] at h
  exact ⟨_, h, ⟨rfl, rfl⟩, by simp [State.dataRegs, hfw, hks], (exec_ended h).surroundings, rfl, rfl, hmem⟩

theorem absorbTrace_length (base n : Nat) : (absorbTrace base n).length = n := by
  rw [absorbTrace_eq, List.length_reverse, List.length_map, List.length_range]

/-- ABSORB when the read of block n is the first access that is not served (R184, R216). -/
theorem exec_absorb_busError {s : State} {n : Nat} (hd : s.DescriptorOk) (hn : n < Config.nBlocks)
    (hs : ∀ m, m < n → replyAt s.port.map (s.spBase + 16 * m) = .served)
    (hb : replyAt s.port.map (s.spBase + 16 * n) = .busError) :
    ∃ t, exec .absorb s = .next t ∧ s.EndedInBusError t ∧ t.port.mem = s.port.mem ∧
      t.port.trace.length = s.port.trace.length + n + 1 := by
  obtain ⟨w, hw, htrace⟩ := absorbPhase_fails (w0 := s.work) (st := s.st) hn hs hb
  have h := exec_absorb_ok hd
  rw [hw, finish_fault] at h
  refine ⟨_, h, endedInBusError_of_exec h, congrArg Prod.fst (execAbsorb_held h), ?_⟩
  rw [faultEntry_port, withWork_port, htrace, List.length_cons, List.length_append, absorbTrace_length, Nat.add_comm n,
    State.work_port]

/-! ### RUN -/

/-- RUN's scratchpad accesses come first, then one call of each external unit, whatever its reads bring (R186, R196). -/
theorem runPhase_trace (u : PermUnit) (st : Bytes 200) (base : Nat) (w : Work) (hs : Served base w.port.map) :
    ∃ w' es, runPhase u st base w = .ok () w' ∧ (∀ e ∈ es, e.isAccess = true) ∧
      w'.port.trace = .hash (hashOf (selector w'.eng.fw)) :: .permute :: es ++ w.port.trace := by
  obtain ⟨_, w1, he, hm1, es, hes, ht1⟩ := expandPhase_goes hs st w rfl
  obtain ⟨_, w2, hx, hm2, fs, hfs, ht2⟩ := mixPhase_goes hs st w1 hm1
  obtain ⟨_, w3, ha, -, gs, hgs, ht3⟩ := absorbPhase_goes hs st w2 hm2
  refine ⟨_, gs ++ fs ++ es, by rw [runPhase, he, Run.andThen_ok, hx, Run.andThen_ok, ha, Run.andThen_ok], ?_, ?_⟩
  · intro e hmem
    rcases List.mem_append.1 hmem with hmem | hmem
    · exact (List.mem_append.1 hmem).elim (hgs e) (hfs e)
    · exact hes e hmem
  · simp [selectWork, permuteWork, ht1, ht2, ht3]

end Sys2Proof.Machine
end

section
/-! PROOF. 43_finalizer.md: every command as a function of what the window and the region hold (R196, R197).  On a state
that is ready for the scratchpad commands each command completes and refines that function, so the function composed
says where a sequence of issued commands ends. -/

namespace Sys2Proof.Machine

/-! ### The commands on the registers and the region's blocks -/

/-- What the commands compute on: the data registers, SEL and SELV, and the blocks of the region. -/
structure Contents where
  regs      : DataRegs
  selection : BitVec 2 × Bool
  blocks    : Nat → Block

/-- KeyExp10 of the slice of ST that K selects (R122). -/
def Contents.keyexp (k : BitVec 1) (c : Contents) : Contents :=
  { c with regs := { c.regs with rk := keyExp10 (keySlice c.regs.st k) } }

/-- The expansion (R142). -/
def Contents.expand (c : Contents) : Contents :=
  { c with regs := { c.regs with rk := keyExp10 (slice c.regs.st 0 32) }, blocks := expandedBlock c.regs.st }

/-- The mixing (R159). -/
def Contents.mix (c : Contents) : Contents := { c with blocks := mixedBlock c.regs.st c.blocks }

/-- The absorption (R181, R184). -/
def Contents.absorb (c : Contents) : Contents :=
  { c with regs := { c.regs with fst := absorbed c.regs.st c.blocks, rk := keyExp10 (slice c.regs.st 32 32) } }

/-- The permutation (R188). -/
def Contents.permute (u : PermUnit) (c : Contents) : Contents :=
  { c with regs := { c.regs with fst := permPort u c.regs.fst } }

/-- The selected hash (R192). -/
def Contents.select (c : Contents) : Contents :=
  { c with
    regs := { c.regs with digest := Config.hashPort (hashOf (selector c.regs.fst)) c.regs.fst }
    selection := (selector c.regs.fst, true) }

/-- What a command that completes makes of the contents; RUN is the five phases one after another (R196). -/
def Contents.after (u : PermUnit) (c : Contents) : Instr → Contents
  | .nop | .check => c
  | .round => { c with regs := { c.regs with rout := aesRound c.regs.rin c.regs.rkey } }
  | .keyexp k => c.keyexp k
  | .expand => c.expand
  | .mix => c.mix
  | .absorb => c.absorb
  | .permute => c.permute u
  | .select => c.select
  | .run => (c.expand.mix.absorb.permute u).select

/-- EXPAND leaves nothing of the blocks the region held (R143). -/
theorem Contents.after_expand_blocks (u : PermUnit) (c : Contents) :
    (c.after u .expand).blocks = expandedBlock c.regs.st := by
  simp only [Contents.after, Contents.expand]

/-- All that RUN changes is a function of ST (R85, R196). -/
theorem Contents.after_run (u : PermUnit) (c : Contents) : c.after u .run =
    { regs := { c.regs with
        rk := keyExp10 (slice c.regs.st 32 32)
        fst := finalState u c.regs.st
        digest := Config.hashPort (hashOf (selector (finalState u c.regs.st))) (finalState u c.regs.st) }
      selection := (selector (finalState u c.regs.st), true)
      blocks := mixedBlock c.regs.st (expandedBlock c.regs.st) } := by
  simp only [Contents.after, Contents.expand, Contents.mix, Contents.absorb, Contents.permute, Contents.select,
    finalState]

/-- The stepwise sequence makes of the contents what RUN makes of them (R197). -/
theorem Contents.after_stepwise (u : PermUnit) (c : Contents) :
    [Instr.check, .expand, .mix, .absorb, .permute, .select].foldl (Contents.after u) c = c.after u .run := by
  simp only [List.foldl_cons, List.foldl_nil, Contents.after]

/-- The state's registers and region hold these contents. -/
structure State.Holds (s : State) (c : Contents) : Prop where
  regs      : s.dataRegs = c.regs
  selection : s.selection = c.selection
  blocks    : ∀ n, n < Config.nBlocks → spBlock s.port.mem s.spBase n = c.blocks n

/-- What a state holds. -/
def State.contents (s : State) : Contents := ⟨s.dataRegs, s.selection, spBlock s.port.mem s.spBase⟩

theorem State.holds_contents (s : State) : s.Holds s.contents := ⟨rfl, rfl, fun _ _ => rfl⟩

/-! ### Ready for the scratchpad commands -/

/-- A valid descriptor, a region handed over, and a memory system that serves every access to it. -/
structure State.Ready (s : State) : Prop where
  descriptor : s.DescriptorOk
  handedOver : s.HandedOver
  served     : s.RegionServed

theorem State.spBase_congr {s t : State} (hlo : t.spBaseLo = s.spBaseLo) (hhi : t.spBaseHi = s.spBaseHi) :
    t.spBase = s.spBase := by
  rw [State.spBase, hlo, hhi, State.spBase]

theorem Ended.spBase {i : Instr} {s t : State} (h : Ended i s t) : t.spBase = s.spBase :=
  State.spBase_congr h.spBaseLo h.spBaseHi

theorem Ended.accel {i : Instr} {s t : State} (h : Ended i s t) : t.accel = s.accel := by
  rw [State.accel, State.accel, show t.accelBuild = s.accelBuild from congrArg Surroundings.accelBuild h.surroundings,
    show t.hwCap = s.hwCap from congrArg Surroundings.hwCap h.surroundings]

/-- A command leaves the state ready for the next one (R53, R73). -/
theorem Ended.ready {i : Instr} {s t : State} (h : Ended i s t) (hs : s.Ready) : t.Ready where
  descriptor := by
    rw [State.DescriptorOk, h.spLen, h.accel, h.spBase]
    exact hs.descriptor
  handedOver := by
    rw [State.HandedOver, h.spBase]
    exact fun x h1 h2 => (h.port.unsure x).trans (hs.handedOver x h1 h2)
  served := by
    rw [State.RegionServed, h.spBase, h.port.map_eq]
    exact hs.served

/-! ### The refinement -/

/-- A MIX that completes leaves the mixed blocks of those the region held (R159). -/
theorem exec_mix_result {s : State} {sp : Nat → Block} (hs : s.Ready)
    (hsp : ∀ n, n < Config.nBlocks → spBlock s.port.mem s.spBase n = sp n) :
    ∃ t, exec .mix s = .next t ∧ t.Completed ∧ t.latch = s.latch ∧ t.dataRegs = s.dataRegs ∧
      t.selection = s.selection ∧
      ∀ n, n < Config.nBlocks → spBlock t.port.mem s.spBase n = mixedBlock s.st sp n := by
  obtain ⟨w, hw, hblocks, -⟩ := mixPhase_ok s.st s.spBase s.work sp hsp hs.handedOver hs.served
  have h := exec_mix_ok hs.descriptor
  rw [hw, finish_ok] at h
  exact ⟨_, h, ⟨rfl, rfl⟩, rfl, rfl, rfl, hblocks⟩

/-- On a ready state each command completes and does to the contents what its rules say. -/
theorem exec_refines (i : Instr) {s : State} {c : Contents} (hs : s.Ready) (hc : s.Holds c) :
    ∃ t, exec i s = .next t ∧ t.Completed ∧ t.latch = s.latch ∧ t.Holds (c.after s.permUnit i) := by
  obtain ⟨regs, sel, sp⟩ := c
  obtain ⟨rfl, rfl, hsp⟩ := hc
  cases i with
  | nop => exact ⟨_, rfl, ⟨rfl, rfl⟩, rfl, rfl, rfl, hsp⟩
  | check => exact ⟨_, exec_check_ok hs.descriptor, ⟨rfl, rfl⟩, rfl, rfl, rfl, hsp⟩
  | round => exact ⟨_, rfl, ⟨rfl, rfl⟩, rfl, rfl, rfl, hsp⟩
  | keyexp k => exact ⟨_, rfl, ⟨rfl, rfl⟩, rfl, rfl, rfl, hsp⟩
  | expand =>
    obtain ⟨t, ht, r⟩ := exec_expand_result hs.descriptor hs.served
    refine ⟨t, ht, r.completed, r.latch, r.dataRegs, r.selection, ?_⟩
    rw [(exec_ended ht).spBase, Contents.after_expand_blocks]
    exact r.blocks
  | mix =>
    obtain ⟨t, ht, hdone, hlatch, hregs, hsel, hblocks⟩ := exec_mix_result hs hsp
    refine ⟨t, ht, hdone, hlatch, hregs, hsel, ?_⟩
    rw [(exec_ended ht).spBase]
    exact hblocks
  | absorb =>
    obtain ⟨t, ht, r⟩ := exec_absorb_result hs.descriptor hs.handedOver hs.served hsp
    refine ⟨t, ht, r.completed, r.latch, r.dataRegs, r.selection, ?_⟩
    rw [(exec_ended ht).spBase, r.mem]
    exact hsp
  | permute => exact ⟨_, rfl, ⟨rfl, rfl⟩, rfl, rfl, rfl, hsp⟩
  | select => exact ⟨_, rfl, ⟨rfl, rfl⟩, rfl, rfl, rfl, hsp⟩
  | run =>
    obtain ⟨t, ht, r⟩ := exec_run_result hs.descriptor hs.handedOver hs.served
    rw [Contents.after_run]
    refine ⟨t, ht, r.completed, r.latch, r.dataRegs, r.selection, ?_⟩
    rw [(exec_ended ht).spBase]
    exact r.blocks

/-! ### Sequences of issued commands -/

/-- Issued commands have led from `s` to `t`, which holds `c` and is ready for the next one. -/
structure Reached (s : State) (c : Contents) (t : State) : Prop where
  ready    : t.Ready
  holds    : t.Holds c
  latch    : t.latch = s.latch
  permUnit : t.permUnit = s.permUnit
  spBase   : t.spBase = s.spBase
  outside  : ∀ x, x < s.spBase ∨ s.spBase + Config.spSize ≤ x → t.port.mem.byte x = s.port.mem.byte x

theorem Reached.refl {s : State} (h : s.Ready) : Reached s s.contents s :=
  ⟨h, s.holds_contents, rfl, rfl, rfl, fun _ _ => rfl⟩

/-- One more command (R197). -/
theorem Reached.issue (i : Instr) {s t : State} {c : Contents} (h : Reached s c t) :
    ∃ u, issue i t = .next u ∧ u.Completed ∧ u.lastop = (encode i).extractLsb' 0 8 ∧
      Reached s (c.after s.permUnit i) u := by
  have hready : (latchCommand (encode i) t).Ready := ⟨h.ready.descriptor, h.ready.handedOver, h.ready.served⟩
  have hholds : (latchCommand (encode i) t).Holds c := ⟨h.holds.regs, h.holds.selection, h.holds.blocks⟩
  obtain ⟨u, hu, hdone, hlatch, hholds'⟩ := exec_refines i hready hholds
  have he := exec_ended hu
  refine ⟨u, hu, hdone, congrArg Surroundings.lastop he.surroundings, he.ready hready, ?_, hlatch.trans h.latch,
    (congrArg Surroundings.permUnit he.surroundings).trans h.permUnit, he.spBase.trans h.spBase, fun x hx => ?_⟩
  · rw [← h.permUnit]
    exact hholds'
  · exact (he.port.outside x (h.spBase.symm ▸ hx)).trans (h.outside x hx)

/-- Two states reached with the same contents agree in every byte of memory. -/
theorem Reached.byte_eq {s t u : State} {c : Contents} (ht : Reached s c t) (hu : Reached s c u) (x : Nat) :
    t.port.mem.byte x = u.port.mem.byte x := by
  by_cases hx : s.spBase ≤ x ∧ x < s.spBase + Config.spSize
  · refine byte_eq_of_spBlocks (fun n hn => ?_) hx.1 hx.2
    rw [← ht.spBase, ht.holds.blocks n hn, ht.spBase, ← hu.spBase, hu.holds.blocks n hn]
  · have hout : x < s.spBase ∨ s.spBase + Config.spSize ≤ x := by omega
    rw [ht.outside x hout, hu.outside x hout]

end Sys2Proof.Machine
end

section
/-! PROOF. The obligations of 43_finalizer.md. -/

namespace Sys2Proof.Machine

/-- Settles O46: the six commands' functions composed are RUN's, so both ends hold the same contents. -/
theorem stepwiseEqualsRun : Obligations.StepwiseEqualsRun := by
  unfold Obligations.StepwiseEqualsRun
  intro s _ hd hh hs
  have h0 := Reached.refl (s := s) ⟨hd, hh, hs⟩
  obtain ⟨s1, e1, -, -, h1⟩ := h0.issue .check
  obtain ⟨s2, e2, -, -, h2⟩ := h1.issue .expand
  obtain ⟨s3, e3, -, -, h3⟩ := h2.issue .mix
  obtain ⟨s4, e4, -, -, h4⟩ := h3.issue .absorb
  obtain ⟨s5, e5, -, -, h5⟩ := h4.issue .permute
  obtain ⟨s6, e6, hdone6, hop6, h6⟩ := h5.issue .select
  obtain ⟨r, er, hdoner, hopr, hr⟩ := h0.issue .run
  rw [← Contents.after_stepwise] at hr
  exact ⟨s1, s2, s3, s4, s5, s6, r, e1, e2, e3, e4, e5, e6, er, hdone6, hdoner,
    h6.holds.regs.trans hr.holds.regs.symm, h6.holds.selection.trans hr.holds.selection.symm,
    h6.latch.trans hr.latch.symm, h6.byte_eq hr, hop6, hopr⟩

/-- Settles O43: RUN's result, and a command changes no byte outside its region. -/
theorem runComputesTheDigest : Obligations.RunComputesTheDigest := by
  unfold Obligations.RunComputesTheDigest
  intro s hd hh hs
  obtain ⟨t, ht, r⟩ := exec_run_result hd hh hs
  exact ⟨t, ht, r.completed, r.dataRegs, r.selection, r.blocks, r.surroundings, r.latch, (exec_ended ht).port.outside⟩

/-- Settles O44: the three phases make scratchpad accesses only, and one call of each unit follows. -/
theorem runCallsEachPortOnce : Obligations.RunCallsEachPortOnce := by
  unfold Obligations.RunCallsEachPortOnce
  intro s hd hs
  obtain ⟨w, es, hw, hes, htrace⟩ := runPhase_trace s.permUnit s.st s.spBase s.work hs
  have h := exec_run_ok hd
  rw [hw, finish_ok] at h
  exact ⟨_, es, h, hes, htrace⟩

/-- Settles O41: FW byte by byte, its text lane by lane. -/
theorem absorbResult : Obligations.AbsorbResult := by
  unfold Obligations.AbsorbResult
  intro s hd hh hs
  obtain ⟨t, ht, r⟩ := exec_absorb_result hd hh hs (fun _ _ => rfl)
  have hfst : t.fst = absorbed s.st (spBlock s.port.mem s.spBase) := congrArg DataRegs.fst r.dataRegs
  refine ⟨t, ht, r.completed, fun i h => ?_, fun j k hj hk => ?_, fun i h => ?_, ?_, r.surroundings, r.latch,
    r.selection, r.mem⟩
  · simp only [hfst, absorbed]
    rw [absorbedState_getElem _ _ (by omega), dif_neg (by omega)]
  · simp only [hfst, absorbed]
    rw [absorbedState_text _ _ hj hk, absorbedText_getElem _ _ hj]
    rfl
  · simp only [hfst, absorbed]
    rw [absorbedState_getElem _ _ (by omega), dif_neg (by omega)]
  · rw [r.dataRegs, hfst]

/-- Settles O47: ABSORB stores nothing, and stops at the read that is not served. -/
theorem absorbBusErrorChangesNothing : Obligations.AbsorbBusErrorChangesNothing := by
  unfold Obligations.AbsorbBusErrorChangesNothing
  intro s n hd hn hs hb
  obtain ⟨t, ht, ⟨hlatch, hph, hdone, hregs, hsel, hsur⟩, hmem, htrace⟩ := exec_absorb_busError hd hn hs hb
  exact ⟨t, ht, hlatch, hph, hdone, hregs, hsel, hsur, hmem, htrace⟩

/-- Settles O26: the lanes before each round, and those between the round's two halves. -/
theorem permuteResult : Obligations.PermuteResult := by
  unfold Obligations.PermuteResult
  refine ⟨fun s => ?_, fun S => ?_⟩
  · obtain ⟨t, ht, hc, hregs, hrest⟩ := exec_permute_result s
    refine ⟨t, ht, hc, fun hu => ?_, fun hu => ?_, hrest⟩
    · rw [hregs, hu, permPort]
    · rw [hregs, hu, permPort]
  · refine ⟨fun r => lane (keccakLanes S r), fun r => lane (rhoPi (theta (keccakLanes S r))), ?_⟩
    intro ROT RC C D
    refine ⟨fun x y k hx hy hk => lane_lanesOf_byte S hx hy hk, fun r x y hr hx hy => ⟨?_, ?_⟩,
      fun x y k hx hy hk => ?_⟩
    · exact lane_rhoPi_theta _ hx hy
    · simp only [keccakLanes_succ S hr]
      exact lane_keccakRound _ _ hx hy
    · simp only [keccakF1600_eq]
      exact bytesOf_getElem _ hx hy hk

/-- Settles O27: SELECT commits the digest of the hash FST's low two bits select. -/
theorem selectResult : Obligations.SelectResult := by
  unfold Obligations.SelectResult
  intro s
  obtain ⟨t, ht, hdone, hsel, hregs, hport, hsur, hlatch⟩ := exec_select_result s
  obtain ⟨hs, hv⟩ := Prod.mk.inj hsel
  refine ⟨t, ht, hdone, by rw [hs, selector_toNat], hv, fun alg h0 h1 h2 h3 => ?_, hsur, hlatch⟩
  rw [← selector_toNat] at h0 h1 h2 h3
  rw [hregs, hport, hashOf_eq h0 h1 h2 h3]
  exact ⟨rfl, rfl⟩

/-- Settles O22: NOP is the completion alone. -/
theorem nopCompletes : Obligations.NopCompletes := by
  unfold Obligations.NopCompletes
  exact fun _ => rfl

end Sys2Proof.Machine
end

section
/-! PROOF. 60_exceptions.md: the words that raise BAD_CMD (R97, R213).  None of R97's three kinds decodes, and in the
engine's turn a word that does not decode takes the fault entry. -/

namespace Sys2Proof.Machine

/-- R97: an illegal word by its fields, OP undefined, RSV not 0, or K set for another command than KEYEXP. -/
def IllegalWord (w : Word) : Prop :=
  9 < (opField w).toNat ∨ rsvField w ≠ 0 ∨ (kField w = 1 ∧ opField w ≠ 0x03)

theorem opcode_toNat_le (i : Instr) : (opcode i).toNat ≤ 9 := by
  cases i <;> simp [opcode]

theorem IllegalWord.decode_eq_error {w : Word} (h : IllegalWord w) : ∃ r, decode w = .error r := by
  cases hd : decode w with
  | error r => exact ⟨r, rfl⟩
  | ok i =>
    obtain ⟨hcmd, hrsv, hstray⟩ := decode_eq_ok_iff.1 hd
    rcases h with hop | hne | ⟨hk, hop⟩
    · exact absurd (opcode_of_commandOf hcmd ▸ opcode_toNat_le i) (Nat.not_le.2 hop)
    · exact absurd hrsv hne
    · exact absurd (hstray hk) hop

theorem engineTurn_badCmd {s : State} {r : Reject} (hp : s.ph = .exec) (hd : decode s.eng.cw = .error r) :
    engineTurn s = .next (faultEntry .badCmd s) := by
  simp only [engineTurn, hp, runCommand, hd]

/-- An empty schedule and a move of the engine's both give it its turn, with the move taken off. -/
theorem step_engineTurn {s : State} {ms : List Move} (h : s.moves = [] ∨ s.moves = .engine :: ms) :
    step s = engineTurn { s with moves := s.moves.tail } := by
  rcases h with h | h
  · rw [step_of_no_move h, h, List.tail_nil, ← h]
  · rw [step_of_engine h, h, List.tail_cons]

end Sys2Proof.Machine
end

section
/-! PROOF. The obligations of 60_exceptions.md. -/

namespace Sys2Proof.Machine

/-- Settles O4: the word does not decode, so the engine's turn is BAD_CMD's fault entry. -/
theorem illegalWordRaisesBadCmd : Obligations.IllegalWordRaisesBadCmd := by
  unfold Obligations.IllegalWordRaisesBadCmd
  intro s ms hm hp hill
  obtain ⟨r, hd⟩ := IllegalWord.decode_eq_error hill
  rw [step_engineTurn hm]
  exact engineTurn_badCmd (s := { s with moves := s.moves.tail }) hp hd

/-- Settles O19: a command that ends with FAULT set has not completed, since completion leaves the latch clear. -/
theorem faultEntryCommitsNothing : Obligations.FaultEntryCommitsNothing := by
  unfold Obligations.FaultEntryCommitsNothing
  intro i s t hs he ht
  have hend := exec_ended he
  rcases hend.outcome with ⟨_, hl, _⟩ | ⟨hdone, hregs, hsel, c, hc, hl⟩
  · have hf : t.faulted = s.faulted := (State.latch_eq hl).1
    exact absurd (ht.symm.trans (hf.trans hs)) (by decide)
  · have hcode : t.code = c := congrArg (·.2.1) hl
    have hfop : t.fop = s.eng.cw.extractLsb' 0 8 := congrArg (·.2.2) hl
    exact ⟨hcode ▸ hc, hfop, hend.idle, hdone, hregs, hsel, hend.surroundings⟩

end Sys2Proof.Machine
end

section
/-! PROOF. 70_reset_and_hazards.md: commands that never end (R252).  An access that is never answered stops the piece of
pseudocode that makes it, and each piece around that one. -/

namespace Sys2Proof.Machine

/-- The run waits for ever for an access to be answered. -/
def Run.Stuck {α : Type} (r : Run α) : Prop := ∃ w, r = .stop .unanswered w

theorem Run.Stuck.andThen {α β : Type} {r : Run α} (h : r.Stuck) (f : α → Work → Run β) : (r.andThen f).Stuck := by
  obtain ⟨w, rfl⟩ := h
  exact ⟨w, rfl⟩

/-- A loop whose first round is stuck is stuck. -/
theorem loop_stuck {f : Nat → Work → Run Unit} {n i : Nat} {w : Work} (hn : 0 < n) (h : (f i w).Stuck) :
    (loop f n i w).Stuck := by
  obtain ⟨n, rfl⟩ := Nat.exists_eq_add_of_lt hn
  rw [Nat.zero_add, loop_succ]
  exact h.andThen _

theorem portRead_stuck {addr : Nat} {w : Work} (h : replyAt w.port.map addr = .noAnswer) :
    (portRead addr w).Stuck := by
  unfold portRead
  rw [h]
  exact ⟨_, rfl⟩

theorem portWrite_stuck {addr : Nat} {v : Block} {w : Work} (h : replyAt w.port.map addr = .noAnswer) :
    (portWrite addr v w).Stuck := by
  unfold portWrite
  rw [h]
  exact ⟨_, rfl⟩

/-- The expansion writes block 0 first. -/
theorem expandPhase_stuck {base : Nat} {w : Work} (st : Bytes 200) (h : replyAt w.port.map base = .noAnswer) :
    (expandPhase st base w).Stuck :=
  loop_stuck (by decide) (loop_stuck (by decide) (portWrite_stuck h))

/-- An iteration of the mixing reads the block A selects first. -/
theorem mixFirst_stuck {base : Nat} {w : Work} (h : replyAt w.port.map (base + spIndex w.eng.a) = .noAnswer) :
    (mixFirst base w).Stuck := by
  unfold mixFirst
  exact (portRead_stuck h).andThen _

/-- The mixing's first iteration has R159's A. -/
theorem mixPhase_stuck {base : Nat} {w : Work} {st : Bytes 200}
    (h : replyAt w.port.map (base + spIndex (startA st)) = .noAnswer) : (mixPhase st base w).Stuck :=
  loop_stuck (by decide) ((mixFirst_stuck (w := (mixStart st w).setI 0) h).andThen _)

theorem absorbBlock_stuck {base I j : Nat} {w : Work}
    (h : replyAt w.port.map (base + blockOffset I j) = .noAnswer) : (absorbBlock base I j w).Stuck := by
  unfold absorbBlock
  exact (portRead_stuck h).andThen _

/-- The absorption reads block 0 first. -/
theorem absorbPhase_stuck {base : Nat} {w : Work} (st : Bytes 200) (h : replyAt w.port.map base = .noAnswer) :
    (absorbPhase st base w).Stuck := by
  have hloop : (loop (absorbChunk base) Config.nChunks 0 (absorbStart st w)).Stuck :=
    loop_stuck (by decide) (loop_stuck (by decide) (absorbBlock_stuck h))
  exact hloop.andThen _

/-- RUN expands first. -/
theorem runPhase_stuck {base : Nat} {w : Work} (u : PermUnit) (st : Bytes 200)
    (h : replyAt w.port.map base = .noAnswer) : (runPhase u st base w).Stuck :=
  (expandPhase_stuck st h).andThen _

/-- A scratchpad command that is stuck never ends; the model stops (R252). -/
theorem finish_stuck {r : Run Unit} (s : State) (commit : Engine → State → State) (h : r.Stuck) :
    finish s commit r = .fault .scratchpadNeverAnswers := by
  obtain ⟨w, rfl⟩ := h
  rfl

end Sys2Proof.Machine
end

section
/-! PROOF. 70_reset_and_hazards.md: the two resets and CAP.  A write to CTRL (R24, R242), the port a hardware reset
leaves (R240), and that no other step touches what CAP shows (R241). -/

namespace Sys2Proof.Machine

/-- STATUS and FAULT read 0 where both resets leave their fields (R52). -/
theorem statusWord_faultWord_cleared {s : State} {op : BitVec 8} (ho : s.ovr = false)
    (h : s.status = ⟨.idle, false, false, .noFault, 0, 0, false, 0, op⟩) : statusWord s = 0 ∧ faultWord s = 0 := by
  simp only [State.status, Status.mk.injEq] at h
  obtain ⟨hph, hdone, hfaulted, hcode, hfop, hsel, hselv, hlastop, -⟩ := h
  rw [statusWord, faultWord, (busy_eq_false s).2 hph, hdone, hfaulted, ho, hsel, hselv, hlastop, hcode, hfop]
  exact ⟨rfl, rfl⟩

/-! ### Soft reset -/

/-- A host write to CTRL while the engine is idle: bit 0 decides (R24). -/
theorem step_writeCtrl {s : State} {ms : List Move} {val : Word} (hm : s.moves = wr32 s.regBase 0x008 val :: ms)
    (hp : s.ph = .idle) :
    step s = .next (if val.getLsbD 0 then softReset { s with moves := ms } else { s with moves := ms }) := by
  rw [step_wr32 s ms 0x008 val (by decide) (by decide) hm]
  exact congrArg _ (writeRW_idle (s := { s with moves := ms }) (writeCtrl val) hp)

/-- ID, CAP, SPSZ, ITER and ALIGN read after a soft reset as before it (R242). -/
theorem readReg_softReset (s : State) : ∀ off ∈ [0x000, 0x004, 0x024, 0x028, 0x02C],
    readReg (softReset s) (regAt off) = readReg s (regAt off) := by
  simp only [List.forall_mem_cons, List.not_mem_nil, false_implies, implies_true, and_true]
  exact ⟨rfl, rfl, rfl, rfl, rfl⟩

/-! ### Hardware reset -/

/-- The events of a command that does not use the scratchpad are calls of an external unit (R72). -/
theorem pendingEvents_without_scratchpad {s : State} {i : Instr} (hd : decode s.eng.cw = .ok i)
    (hi : i.usesScratchpad = false) : ∀ e ∈ pendingEvents s, e.address? = none := by
  unfold pendingEvents
  rw [hd]
  cases i with
  | nop | check | round | keyexp _ => exact nofun
  | permute | select =>
    intro e he
    rw [List.mem_singleton.1 he]
    rfl
  | expand | mix | absorb | run => cases hi

theorem portAtReset_idle {s : State} (hp : s.ph = .idle) (k : Nat) (b : Bool) : portAtReset k b s = s.port := by
  simp only [portAtReset, hp]

theorem portAtReset_exec {s : State} (hp : s.ph = .exec) (k : Nat) (b : Bool) :
    portAtReset k b s = abandonedPort k b s := by
  simp only [portAtReset, hp]

theorem portAtReset_map (k : Nat) (b : Bool) (s : State) : (portAtReset k b s).map = s.port.map := by
  cases hp : s.ph with
  | idle => rw [portAtReset_idle hp]
  | exec => rw [portAtReset_exec hp, abandonedPort_map]

/-- A hardware reset that interrupts a command without scratchpad accesses leaves the memory as it was (R240). -/
theorem portAtReset_mem_without_scratchpad {s : State} {i : Instr} (hp : s.ph = .exec) (hd : decode s.eng.cw = .ok i)
    (hi : i.usesScratchpad = false) (k : Nat) (b : Bool) : (portAtReset k b s).mem = s.port.mem := by
  rw [portAtReset_exec hp]
  exact congrArg Prod.fst (abandonedPort_held (pendingEvents_without_scratchpad hd hi))

theorem portAtReset_outside {s : State} {x : Nat} (hx : x < s.spBase ∨ s.spBase + Config.spSize ≤ x) (k : Nat)
    (b : Bool) : (portAtReset k b s).mem.byte x = s.port.mem.byte x := by
  cases hp : s.ph with
  | idle => rw [portAtReset_idle hp]
  | exec => rw [portAtReset_exec hp, abandonedPort_outside k b s x hx]

theorem step_hardReset {s : State} {ms : List Move} {k : Nat} {b : Bool} (hm : s.moves = .hardReset k b :: ms) :
    step s = .next (hardReset k b { s with moves := ms }) := by
  rw [step_of_move hm]
  rfl

/-! ### CAP -/

/-- What CAP shows: the build's variant, and HW_CAP as latched (R23). -/
def State.capFields (s : State) : Bool × Bool := (s.accelBuild, s.hwCap)

theorem capWord_congr {s t : State} (h : t.capFields = s.capFields) : capWord t = capWord s := by
  obtain ⟨hb, hc⟩ := Prod.mk.inj h
  unfold capWord State.accel
  rw [hb, hc]

theorem State.capFields_of_surroundings {s t : State} (h : t.surroundings = s.surroundings) :
    t.capFields = s.capFields :=
  congrArg (fun c : Surroundings => (c.accelBuild, c.hwCap)) h

theorem Written.capFields {r : Reg} {val : Word} {s t : State} (h : Written r val s t) :
    t.capFields = s.capFields := by
  cases h with
  | unchanged | dropped | reset => rfl
  | accepted _ _ _ _ ha => exact Prod.ext ha.accel ha.hwCap
  | data _ _ hsur => exact State.capFields_of_surroundings hsur

theorem engineTurn_capFields {s t : State} (h : engineTurn s = .next t) : t.capFields = s.capFields := by
  rcases engineTurn_cases h with ⟨_, rfl⟩ | ⟨_, i, _, he⟩ | ⟨_, _, _, rfl⟩
  · rfl
  · exact State.capFields_of_surroundings (exec_ended he).surroundings
  · rfl

/-- Every move but a hardware reset leaves CAP (R241). -/
theorem Stepped.capFields {u t : State} {m : Option Move} (h : Stepped u m t)
    (hm : ∀ k b, m ≠ some (.hardReset k b)) : t.capFields = u.capFields := by
  cases h with
  | engine _ _ _ ht => exact engineTurn_capFields ht
  | write off val => exact (writeReg_written (regAt off) val u).capFields
  | reset k b => exact absurd rfl (hm k b)
  | elsewhere | read | store | storeCached | load | writeBack | invalidate | input => rfl

theorem step_capFields {s t : State} (h : step s = .next t) (hm : ∀ k b ms, s.moves ≠ .hardReset k b :: ms) :
    t.capFields = s.capFields := by
  rcases step_cases h with ⟨_, hs⟩ | ⟨m, ms, hmoves, hs⟩
  · exact hs.capFields nofun
  · exact hs.capFields fun k b e => hm k b ms (hmoves.trans (by rw [Option.some.inj e]))

end Sys2Proof.Machine
end

section
/-! PROOF. 70_reset_and_hazards.md: a hardware reset while EXPAND executes (R240, R144).  The events such an EXPAND
would perform are its writes in order, so the port it leaves is the replay of the first of them. -/

namespace Sys2Proof.Machine

/-- The writes of the first `n` blocks of the region at `base`, oldest first. -/
def blockWrites (base : Nat) (f : Nat → Block) (n : Nat) : List PortEvent :=
  (List.range n).map fun m => .write (base + 16 * m) (f m)

theorem blockWrites_succ (base : Nat) (f : Nat → Block) (n : Nat) :
    blockWrites base f (n + 1) = blockWrites base f n ++ [.write (base + 16 * n) (f n)] := by
  simp only [blockWrites, List.range_succ, List.map_append, List.map_singleton]

theorem take_blockWrites (base : Nat) (f : Nat → Block) {k n : Nat} (h : k ≤ n) :
    (blockWrites base f n).take k = blockWrites base f k := by
  rw [blockWrites, ← List.map_take, List.take_range, Nat.min_eq_left h, blockWrites]

theorem blockWrites_getElem? (base : Nat) (f : Nat → Block) {k n : Nat} (h : k < n) :
    (blockWrites base f n)[k]? = some (.write (base + 16 * k) (f k)) := by
  rw [blockWrites, List.getElem?_map, List.getElem?_range h, Option.map_some]

/-- The first `n` blocks of the region at `base` are those of `f`, and no byte has changed below `base` nor from `e`
on. -/
structure BlocksWritten (base : Nat) (f : Nat → Block) (n e : Nat) (m m' : Memory) : Prop where
  written   : ∀ j, j < n → m'.readBlock (base + 16 * j) = f j
  untouched : ∀ x, x < base ∨ e ≤ x → m'.byte x = m.byte x

/-- One more block, whatever it is: the earlier ones stay. -/
theorem BlocksWritten.writeBlock {base n : Nat} {f : Nat → Block} {m m' : Memory}
    (h : BlocksWritten base f n (base + 16 * n) m m') (v : Block) :
    BlocksWritten base f n (base + 16 * n + 16) m (m'.writeBlock (base + 16 * n) v) where
  written j hj := (Memory.readBlock_writeBlock_other _ _ _ _ (by omega)).trans (h.written j hj)
  untouched x hx := (Memory.byte_writeBlock_outside _ _ _ _ (by omega)).trans (h.untouched x (by omega))

/-- The replay of the first `n` writes. -/
theorem replay_blockWrites (base : Nat) (f : Nat → Block) (p : Port) (n : Nat) :
    BlocksWritten base f n (base + 16 * n) p.mem (p.replay (blockWrites base f n)).mem := by
  induction n with
  | zero => exact ⟨nofun, fun _ _ => rfl⟩
  | succ n ih =>
    rw [blockWrites_succ, Port.replay_append]
    have hnext := ih.writeBlock (f n)
    refine ⟨fun j hj => ?_, hnext.untouched⟩
    rcases Nat.lt_succ_iff_lt_or_eq.1 hj with hlt | rfl
    · exact hnext.written j hlt
    · exact Memory.readBlock_writeBlock_same _ _ _

/-- An EXPAND with a valid descriptor and every access served would perform R142's writes, in order. -/
theorem pendingEvents_expand {s : State} (hcw : decode s.eng.cw = .ok .expand) (hd : s.DescriptorOk)
    (hs : s.RegionServed) : pendingEvents s = blockWrites s.spBase (expandedBlock s.st) Config.nBlocks := by
  have hd' : State.DescriptorOk { s with port := { s.port with trace := [] } } := hd
  obtain ⟨w, hw, ht⟩ :=
    expandPhase_writes s.st s.spBase (State.work { s with port := { s.port with trace := [] } }) hs
  have hrun : expandRun { s with port := { s.port with trace := [] } } = .ok () w := (checked_ok _ hd').trans hw
  simp only [pendingEvents, hcw, commandRun, hrun, Run.work_ok, ht]
  exact (congrArg List.reverse (List.append_nil _)).trans (List.reverse_reverse _)

/-- Between two events the memory is the replay's. -/
theorem abandonedPort_mem_between (k : Nat) (s : State) : (abandonedPort k false s).mem =
    (Port.replay { s.port with trace := [] } ((pendingEvents s).take k)).mem := rfl

/-- In the midst of a write the bytes of its block are free (R240). -/
theorem abandonedPort_mem_midWrite {k a : Nat} {v : Block} {s : State}
    (h : (pendingEvents s)[k]? = some (.write a v)) : (abandonedPort k true s).mem =
      (Port.replay { s.port with trace := [] } ((pendingEvents s).take k)).mem.writeBlock a
        (freeBlock (drawnByCommand s) a) := by
  simp only [abandonedPort, h]
  rfl

section
variable {s : State} (hp : s.ph = .exec) (hcw : decode s.eng.cw = .ok .expand) (hd : s.DescriptorOk)
  (hs : s.RegionServed)
include hp hcw hd hs

theorem portAtReset_expand_between {k : Nat} (hk : k ≤ Config.nBlocks) :
    BlocksWritten s.spBase (expandedBlock s.st) k (s.spBase + 16 * k) s.port.mem (portAtReset k false s).mem := by
  rw [portAtReset_exec hp, abandonedPort_mem_between, pendingEvents_expand hcw hd hs, take_blockWrites _ _ hk]
  exact replay_blockWrites _ _ { s.port with trace := [] } _

theorem portAtReset_expand_midWrite {k : Nat} (hk : k < Config.nBlocks) :
    BlocksWritten s.spBase (expandedBlock s.st) k (s.spBase + 16 * k + 16) s.port.mem (portAtReset k true s).mem := by
  have hev := pendingEvents_expand hcw hd hs
  rw [portAtReset_exec hp, abandonedPort_mem_midWrite (hev ▸ blockWrites_getElem? _ _ hk), hev,
    take_blockWrites _ _ (Nat.le_of_lt hk)]
  exact (replay_blockWrites _ _ { s.port with trace := [] } _).writeBlock _

end

end Sys2Proof.Machine
end

section
/-! PROOF. The obligations of 70_reset_and_hazards.md. -/

namespace Sys2Proof.Machine

/-- Settles O20: what a command that ends leaves, and that each phase ends when its accesses are answered. -/
theorem commandsEnd : Obligations.CommandsEnd := by
  unfold Obligations.CommandsEnd
  refine fun i s => ⟨fun t h => ?_, exec_ends i s⟩
  have hend := exec_ended h
  refine ⟨hend.idle, ?_⟩
  rcases hend.outcome with ⟨hdone, _⟩ | ⟨hdone, _, _, c, _, hl⟩
  · exact .inl hdone
  · exact .inr ⟨hdone, congrArg Prod.fst hl⟩

/-- Settles O21: each phase makes its first access at once, and is stuck there. -/
theorem unansweredAccessIsStuck : Obligations.UnansweredAccessIsStuck := by
  unfold Obligations.UnansweredAccessIsStuck
  refine fun s hd => ⟨fun h => ⟨?_, ?_, ?_⟩, fun h => ?_⟩
  · rw [exec_expand_ok hd, finish_stuck _ _ (expandPhase_stuck _ h)]
  · rw [exec_absorb_ok hd, finish_stuck _ _ (absorbPhase_stuck _ h)]
  · rw [exec_run_ok hd, finish_stuck _ _ (runPhase_stuck _ _ h)]
  · rw [exec_mix_ok hd, finish_stuck _ _ (mixPhase_stuck h)]

/-- Settles O52: bit 0 decides while the engine is idle, and a write while it is busy is dropped. -/
theorem softReset_spec : Obligations.SoftReset := by
  unfold Obligations.SoftReset
  refine fun s ms val hm => ⟨fun hp hv => ?_, fun hp hv => ?_, fun hp => ?_, rfl⟩
  · have h := step_writeCtrl hm hp
    rw [if_pos hv] at h
    obtain ⟨hstatus, hfault⟩ := statusWord_faultWord_cleared (s := softReset { s with moves := ms }) rfl rfl
    exact ⟨_, h, rfl, rfl, hstatus, hfault, readReg_softReset _, rfl, rfl⟩
  · rw [step_writeCtrl hm hp, hv]
    rfl
  · rw [step_wr32 s ms 0x008 val (by decide) (by decide) hm]
    exact congrArg _ (writeReg_busy (s := { s with moves := ms }) (.inl rfl) val hp)

/-- Settles O53: the registers are the reset's own; the memory is what the abandoned command leaves. -/
theorem hardReset_spec : Obligations.HardReset := by
  unfold Obligations.HardReset
  intro s ms k b hm
  obtain ⟨hstatus, hfault⟩ := statusWord_faultWord_cleared (s := hardReset k b { s with moves := ms }) rfl rfl
  exact ⟨_, step_hardReset hm, rfl, rfl, hstatus, hfault, rfl, rfl, rfl, portAtReset_map k b { s with moves := ms },
    fun hp => congrArg Port.mem (portAtReset_idle (s := { s with moves := ms }) hp k b),
    fun i hp hd hi => portAtReset_mem_without_scratchpad (s := { s with moves := ms }) hp hd hi k b,
    fun x hx => portAtReset_outside (s := { s with moves := ms }) hx k b⟩

/-- Settles O54: the port at the reset is the replay of the writes performed, and of one more in progress. -/
theorem hardResetKeepsPerformedWrites : Obligations.HardResetKeepsPerformedWrites := by
  unfold Obligations.HardResetKeepsPerformedWrites
  intro s ms k b hm hp hcw hd hs
  refine ⟨?_, ?_⟩
  · rintro rfl hk
    have h := portAtReset_expand_between (s := { s with moves := ms }) hp hcw hd hs hk
    exact ⟨_, step_hardReset hm, h.written, h.untouched⟩
  · rintro rfl hk
    have h := portAtReset_expand_midWrite (s := { s with moves := ms }) hp hcw hd hs hk
    exact ⟨_, step_hardReset hm, h.written, h.untouched⟩

/-- Settles O55: every other step keeps what CAP shows, and these two moves have one next state each. -/
theorem capChangesOnlyAtHardwareReset : Obligations.CapChangesOnlyAtHardwareReset := by
  unfold Obligations.CapChangesOnlyAtHardwareReset
  refine fun s t h => ⟨fun hm => capWord_congr (step_capFields h hm), fun k b ms hm => ?_, fun level ms hm => ?_⟩
  · rw [step_hardReset hm] at h
    cases h
    exact ⟨rfl, rfl⟩
  · rw [step_of_move hm] at h
    cases h
    rfl

end Sys2Proof.Machine
end
